-- ==== Sys2Proof/Word.lean ====
section
/-! DEFINITION. The word types of the H8/500 (spec/00_scope.md R8): bytes, words and physical addresses. -/

namespace Sys2Proof

/-- A byte, 8 bits (R8). -/
abbrev Byte := BitVec 8

/-- A word, 16 bits (R8): a general register, PC, SR, an offset within a page. -/
abbrev Word := BitVec 16

/-- A physical byte address: 24 bits in maximum mode; in minimum mode the upper 8 are zero (20_memory.md R72). -/
abbrev Addr := BitVec 24

end Sys2Proof
end

