-- ==== Sys2Proof/Config.lean ====
section
/-! DEFINITION. What the spec leaves to the implementation and gives no value for: the free values.
Each is an opaque constant without a body, so nothing can be proved about it and a claim holds whatever it is.
The arguments are plain data: the count of free values drawn so far (State.draws), or the operands named. -/

namespace Sys2Proof

/-- `draw(8)` of 00_scope.md R15: the unused upper byte of a pushed byte operand or CP word
(20_memory.md R89, 60_exceptions.md R380, D15). Free value; log entry 12. -/
opaque Config.freeByte : Nat → Byte

/-- `draw(16)` of R15: what a misaligned word read returns (20_memory.md R78, R79, D5). Free value; log entry 6. -/
opaque Config.freeWord : Nat → Word

/-- `SWAP_NZ_WIDTH` (40_data_transfer.md R183, D14): true when N and Z after SWAP describe the low byte
of the result, false when they describe all 16 bits. Free value; log entry 11. -/
opaque Config.swapFlagsFromByte : Bool

/-- `STACKED_PC_INVALID` (60_exceptions.md R381, D9): true when the invalid instruction exception stacks the PC
at detection, false when it stacks the address of the first byte of the code. Free value; log entry 8. -/
opaque Config.invalidStacksDetectionPc : Bool

/-- `STACKED_PC_ZERODIV` (R381, D10): true when zero divide stacks the address of the DIVXU itself, false when it
stacks the address after it. Free value; log entry 8. -/
opaque Config.zeroDivideStacksOwnAddress : Bool

/-- `STACKED_PC_ADDRERR` (R381, D11): what the address error exception stacks, from the address of the first byte
of the instruction and the PC at its end. The spec names no set of choices. Free value; log entry 8. -/
opaque Config.addressErrorStackedPc : Word → Word → Word

end Sys2Proof
end

