-- ==== Sys2Proof/Syntax.lean ====
section
/-! DEFINITION. The instructions of the H8/500 as syntax: one constructor for each row of spec/opcode_table.json. -/

namespace Sys2Proof

/-- The operand size, the Sz bit of an EA field (30_encoding.md R125): 0 byte, 1 word. -/
inductive Size where
  | byte
  | word
  deriving DecidableEq, Repr

/-- The operand width `W = 8 * sz` in bits (00_scope.md R16). -/
abbrev Size.bits : Size → Nat
  | .byte => 8
  | .word => 16

/-- The general registers (10_state.md R20); R6 is FP and R7 is SP (R21). -/
inductive Reg where
  | r0 | r1 | r2 | r3 | r4 | r5 | r6 | r7
  deriving DecidableEq, Repr

/-- A decoded EA field (20_memory.md R82): the ten addressing modes 1 to 6. -/
inductive Ea where
  | reg (r : Reg)
  | ind (r : Reg)
  | disp8 (r : Reg) (d : Byte)
  | disp16 (r : Reg) (d : Word)
  | preDec (r : Reg)
  | postInc (r : Reg)
  | abs8 (a : Byte)
  | abs16 (a : Word)
  | imm8 (v : Byte)
  | imm16 (v : Word)
  deriving DecidableEq, Repr

/-- The classes an EA field falls into for the operation code after it (30_encoding.md R133): R, M and I. -/
inductive EaClass where
  | register
  | memory
  | immediate
  deriving DecidableEq, Repr

/-- The class of an EA field (30_encoding.md R133). -/
def Ea.cls : Ea → EaClass
  | .reg _ => .register
  | .ind _ | .disp8 _ _ | .disp16 _ _ | .preDec _ | .postInc _ | .abs8 _ | .abs16 _ => .memory
  | .imm8 _ | .imm16 _ => .immediate

/-- The control registers that LDC, STC, ANDC, ORC and XORC can name (10_state.md R45). -/
inductive ControlReg where
  | sr | ccr | br | ep | dp | tp
  deriving DecidableEq, Repr

/-- The one operand size a control register allows (10_state.md R45, Table 1-12). -/
def ControlReg.size : ControlReg → Size
  | .sr => .word
  | .ccr | .br | .ep | .dp | .tp => .byte

/-- The sixteen conditions of Bcc (43_branch.md R291), in the order of their codes. -/
inductive Cond where
  | bra | brn | bhi | bls | bcc | bcs | bne | beq | bvc | bvs | bpl | bmi | bge | blt | bgt | ble
  deriving DecidableEq, Repr

/-- An operation code that Table 2-10 lists as invalid after an EA field (30_encoding.md R141), or after an EA field
and the prefix code H'00 (R143). -/
inductive UndefOp where
  | op (b : Byte)
  | prefixed (b : Byte)
  deriving DecidableEq, Repr

/-- The first bytes whose second byte selects the instruction and may be invalid (30_encoding.md R142). -/
inductive SecondGroup where
  | scbF | scbNE | scbEQ | page
  deriving DecidableEq, Repr

/-- The instructions. The order is that of spec/opcode_table.json. The first ten are the codes that begin with the
row's EA field and go on with an operation code Table 2-10 lists as invalid (log entry 34). -/
inductive Instr where
  | eaRn (sz : Size) (r : Reg) (t : UndefOp)
  | eaPreDec (sz : Size) (r : Reg) (t : UndefOp)
  | eaPostInc (sz : Size) (r : Reg) (t : UndefOp)
  | eaInd (sz : Size) (r : Reg) (t : UndefOp)
  | eaDisp8 (sz : Size) (r : Reg) (d : Byte) (t : UndefOp)
  | eaDisp16 (sz : Size) (r : Reg) (d : Word) (t : UndefOp)
  | eaAbs8 (sz : Size) (a : Byte) (t : UndefOp)
  | eaAbs16 (sz : Size) (a : Word) (t : UndefOp)
  | eaImm8 (v : Byte) (t : UndefOp)
  | eaImm16 (v : Word) (t : UndefOp)
  | cmpGImm8 (ea : Ea) (imm : Byte)
  | cmpGImm16 (ea : Ea) (imm : Word)
  | movGImm8 (ea : Ea) (imm : Byte)
  | movGImm16 (ea : Ea) (imm : Word)
  | addQ1 (sz : Size) (ea : Ea)
  | addQ2 (sz : Size) (ea : Ea)
  | addQm1 (sz : Size) (ea : Ea)
  | addQm2 (sz : Size) (ea : Ea)
  | swap (rd : Reg)
  | exts (rd : Reg)
  | extu (rd : Reg)
  | clr (sz : Size) (ea : Ea)
  | neg (sz : Size) (ea : Ea)
  | notG (sz : Size) (ea : Ea)
  | tst (sz : Size) (ea : Ea)
  | tas (ea : Ea)
  | shal (sz : Size) (ea : Ea)
  | shar (sz : Size) (ea : Ea)
  | shll (sz : Size) (ea : Ea)
  | shlr (sz : Size) (ea : Ea)
  | rotl (sz : Size) (ea : Ea)
  | rotr (sz : Size) (ea : Ea)
  | rotxl (sz : Size) (ea : Ea)
  | rotxr (sz : Size) (ea : Ea)
  | addG (sz : Size) (ea : Ea) (rd : Reg)
  | adds (sz : Size) (ea : Ea) (rd : Reg)
  | sub (sz : Size) (ea : Ea) (rd : Reg)
  | subs (sz : Size) (ea : Ea) (rd : Reg)
  | orG (sz : Size) (ea : Ea) (rd : Reg)
  | bsetR (sz : Size) (rs : Reg) (ea : Ea)
  | orc (imm : Word) (cr : ControlReg)
  | andG (sz : Size) (ea : Ea) (rd : Reg)
  | bclrR (sz : Size) (rs : Reg) (ea : Ea)
  | andc (imm : Word) (cr : ControlReg)
  | xorG (sz : Size) (ea : Ea) (rd : Reg)
  | bnotR (sz : Size) (rs : Reg) (ea : Ea)
  | xorc (imm : Word) (cr : ControlReg)
  | cmpG (sz : Size) (ea : Ea) (rd : Reg)
  | btstR (sz : Size) (rs : Reg) (ea : Ea)
  | movGLoad (sz : Size) (ea : Ea) (rd : Reg)
  | ldc (ea : Ea) (cr : ControlReg)
  | xch (rs : Reg) (rd : Reg)
  | movGStore (sz : Size) (rs : Reg) (ea : Ea)
  | stc (cr : ControlReg) (ea : Ea)
  | addx (sz : Size) (ea : Ea) (rd : Reg)
  | mulxu (sz : Size) (ea : Ea) (rd : Reg)
  | subx (sz : Size) (ea : Ea) (rd : Reg)
  | divxu (sz : Size) (ea : Ea) (rd : Reg)
  | bsetI (sz : Size) (n : BitVec 4) (ea : Ea)
  | bclrI (sz : Size) (n : BitVec 4) (ea : Ea)
  | bnotI (sz : Size) (n : BitVec 4) (ea : Ea)
  | btstI (sz : Size) (n : BitVec 4) (ea : Ea)
  | movfpe (ea : Ea) (rd : Reg)
  | movtpe (rs : Reg) (ea : Ea)
  | dadd (rs : Reg) (rd : Reg)
  | dsub (rs : Reg) (rd : Reg)
  | nop
  | scbF (r : Reg) (d : Byte)
  | scbNE (r : Reg) (d : Byte)
  | scbEQ (r : Reg) (d : Byte)
  | ldm (list : Byte)
  | stm (list : Byte)
  | pjsrAbs (page : Byte) (a : Word)
  | pjmpAbs (page : Byte) (a : Word)
  | trapa (v : BitVec 4)
  | trapVS
  | rte
  | bsr8 (d : Byte)
  | bsr16 (d : Word)
  | unlk
  | jmpAbs (a : Word)
  | jsrAbs (a : Word)
  | rtd8 (i : Byte)
  | rtd16 (i : Word)
  | link8 (i : Byte)
  | link16 (i : Word)
  | rts
  | sleep
  | prtd8 (i : Byte)
  | prtd16 (i : Word)
  | prts
  | pjmpReg (r : Reg)
  | pjsrReg (r : Reg)
  | jmpInd (r : Reg)
  | jsrInd (r : Reg)
  | jmpDisp8 (r : Reg) (d : Byte)
  | jsrDisp8 (r : Reg) (d : Byte)
  | jmpDisp16 (r : Reg) (d : Word)
  | jsrDisp16 (r : Reg) (d : Word)
  | bcc8 (cc : Cond) (d : Byte)
  | bcc16 (cc : Cond) (d : Word)
  | cmpE (imm : Byte) (rd : Reg)
  | cmpI (imm : Word) (rd : Reg)
  | movE (imm : Byte) (rd : Reg)
  | movI (imm : Word) (rd : Reg)
  | movL (sz : Size) (a : Byte) (rd : Reg)
  | movS (sz : Size) (rs : Reg) (a : Byte)
  | movFLoad (sz : Size) (d : Byte) (rd : Reg)
  | movFStore (sz : Size) (rs : Reg) (d : Byte)
  | invalid0B
  | invalid16
  | invalid1B
  | invalidSecond (g : SecondGroup) (b2 : Byte)
  deriving DecidableEq, Repr

end Sys2Proof
end

