-- ==== Sys2Proof/WellFormed.lean ====
section
/-! DEFINITION. Which terms of Instr are instructions: the checks the encoding makes by itself
(an operand class, a size, an invalid code that Table 2-10 does list). -/

namespace Sys2Proof

/-- An immediate EA has the length of the operand size (30_encoding.md R126); every other mode takes both sizes. -/
def Ea.fits : Ea → Size → Bool
  | .imm8 _, .word => false
  | .imm16 _, .byte => false
  | _, _ => true

/-- The EA is a register or memory operand, classes R and M of 30_encoding.md R133. -/
def Ea.isPlace (ea : Ea) : Bool :=
  match ea.cls with
  | .immediate => false
  | _ => true

/-- The EA is a memory operand, class M of 30_encoding.md R133. -/
def Ea.isMemory (ea : Ea) : Bool :=
  match ea.cls with
  | .memory => true
  | _ => false

/-- `lo ≤ n ≤ hi`: one range of Table 2-10. -/
def inRange (n lo hi : Nat) : Bool := decide (lo ≤ n) && decide (n ≤ hi)

/-- Table 2-10 (b) and (c), one list of invalid second bytes (30_encoding.md R142, R143). -/
def secondByteInvalid (b : Byte) : Bool :=
  let n := b.toNat
  inRange n 0x00 0x13 || inRange n 0x15 0x18 || inRange n 0x1A 0x1B || inRange n 0x1D 0x7F
    || inRange n 0x88 0x8F || inRange n 0x98 0x9F || inRange n 0xA8 0xAF

/-- Table 2-10 (a): the operation codes that are invalid after an EA field of the class (30_encoding.md R141); the
prefix code H'00 is invalid after an immediate only. -/
def opInvalid (c : EaClass) (b : Byte) : Bool :=
  let n := b.toNat
  match c with
  | .register => inRange n 0x01 0x07 || inRange n 0x0A 0x0B || inRange n 0x0E 0x0F
  | .memory => inRange n 0x01 0x03 || inRange n 0x0A 0x0B || inRange n 0x0E 0x12
  | .immediate => inRange n 0x00 0x1F || inRange n 0x78 0x7F || inRange n 0x90 0x9F || inRange n 0xC0 0xFF

/-- The undefined operation code is one that Table 2-10 lists for the class (30_encoding.md R141, R143). -/
def UndefOp.wf (c : EaClass) : UndefOp → Bool
  | .op b => opInvalid c b
  | .prefixed b =>
    match c with
    | .immediate => false
    | _ => secondByteInvalid b

/-- The immediate of a byte control register has 8 bits (44_system_control.md R338). -/
def ControlReg.immFits (cr : ControlReg) (imm : Word) : Bool :=
  match cr.size with
  | .byte => decide (imm.toNat < 256)
  | .word => true

/-- An instruction that some code encodes. -/
def Instr.wf : Instr → Bool
  | .eaRn _ _ t => t.wf .register
  | .eaPreDec _ _ t | .eaPostInc _ _ t | .eaInd _ _ t => t.wf .memory
  | .eaDisp8 _ _ _ t => t.wf .memory
  | .eaDisp16 _ _ _ t => t.wf .memory
  | .eaAbs8 _ _ t => t.wf .memory
  | .eaAbs16 _ _ t => t.wf .memory
  | .eaImm8 _ t => t.wf .immediate
  | .eaImm16 _ t => t.wf .immediate
  | .cmpGImm8 ea _ | .movGImm8 ea _ => ea.isMemory
  | .cmpGImm16 ea _ | .movGImm16 ea _ => ea.isMemory
  | .addQ1 _ ea | .addQ2 _ ea | .addQm1 _ ea | .addQm2 _ ea => ea.isPlace
  | .clr _ ea | .neg _ ea | .notG _ ea | .tst _ ea => ea.isPlace
  | .tas ea => ea.isPlace
  | .shal _ ea | .shar _ ea | .shll _ ea | .shlr _ ea => ea.isPlace
  | .rotl _ ea | .rotr _ ea | .rotxl _ ea | .rotxr _ ea => ea.isPlace
  | .addG sz ea _ | .adds sz ea _ | .sub sz ea _ | .subs sz ea _ => ea.fits sz
  | .addx sz ea _ | .mulxu sz ea _ | .subx sz ea _ | .divxu sz ea _ => ea.fits sz
  | .orG sz ea _ | .andG sz ea _ | .xorG sz ea _ | .cmpG sz ea _ | .movGLoad sz ea _ => ea.fits sz
  | .bsetR _ _ ea | .bclrR _ _ ea | .bnotR _ _ ea | .btstR _ _ ea => ea.isPlace
  | .bsetI _ _ ea | .bclrI _ _ ea | .bnotI _ _ ea | .btstI _ _ ea => ea.isPlace
  | .orc imm cr | .andc imm cr | .xorc imm cr => cr.immFits imm
  | .ldc ea cr => ea.fits cr.size
  | .stc _ ea => ea.isPlace
  | .movGStore _ _ ea => ea.isMemory
  | .movfpe ea _ => ea.isMemory
  | .movtpe _ ea => ea.isMemory
  | .invalidSecond _ b2 => secondByteInvalid b2
  | .swap _ | .exts _ | .extu _ | .xch _ _ | .dadd _ _ | .dsub _ _ | .nop | .scbF _ _ | .scbNE _ _ | .scbEQ _ _
  | .ldm _ | .stm _ | .pjsrAbs _ _ | .pjmpAbs _ _ | .trapa _ | .trapVS | .rte | .bsr8 _ | .bsr16 _ | .unlk
  | .jmpAbs _ | .jsrAbs _ | .rtd8 _ | .rtd16 _ | .link8 _ | .link16 _ | .rts | .sleep | .prtd8 _ | .prtd16 _ | .prts
  | .pjmpReg _ | .pjsrReg _ | .jmpInd _ | .jsrInd _ | .jmpDisp8 _ _ | .jsrDisp8 _ _ | .jmpDisp16 _ _
  | .jsrDisp16 _ _ | .bcc8 _ _ | .bcc16 _ _ | .cmpE _ _ | .cmpI _ _ | .movE _ _ | .movI _ _ | .movL _ _ _
  | .movS _ _ _ | .movFLoad _ _ _ | .movFStore _ _ _ | .invalid0B | .invalid16 | .invalid1B => true

end Sys2Proof
end

