-- ==== Sys2Proof/Decode.lean ====
section
/-! DEFINITION. The decoder and the encoder, both from the encoding tables of spec/30_encoding.md R125 to R138.
Decoding is total on any bytes; what is neither an instruction nor a listed invalid code is rejected by name (R146).
A listed invalid code (Table 2-10) decodes to an instruction of its own, whose meaning takes the exception. -/

namespace Sys2Proof

/-! ### Fields -/

/-- A three-bit register number (30_encoding.md R127): 000 is R0, 111 is R7. -/
def Reg.ofBits (b : BitVec 3) : Reg :=
  match b.toNat with
  | 0 => .r0
  | 1 => .r1
  | 2 => .r2
  | 3 => .r3
  | 4 => .r4
  | 5 => .r5
  | 6 => .r6
  | _ => .r7

/-- The number of a register, as its field holds it (R127). -/
def Reg.toBits : Reg → BitVec 3
  | .r0 => 0
  | .r1 => 1
  | .r2 => 2
  | .r3 => 3
  | .r4 => 4
  | .r5 => 5
  | .r6 => 6
  | .r7 => 7

/-- The Sz bit (R125): 0 byte, 1 word. -/
def Size.ofBit (b : Bool) : Size := if b then .word else .byte

/-- The Sz bit of a size (R125). -/
def Size.toBit : Size → BitVec 1
  | .byte => 0
  | .word => 1

/-- The condition field `cccc` (43_branch.md R291). -/
def Cond.ofBits (b : BitVec 4) : Cond :=
  match b.toNat with
  | 0 => .bra
  | 1 => .brn
  | 2 => .bhi
  | 3 => .bls
  | 4 => .bcc
  | 5 => .bcs
  | 6 => .bne
  | 7 => .beq
  | 8 => .bvc
  | 9 => .bvs
  | 10 => .bpl
  | 11 => .bmi
  | 12 => .bge
  | 13 => .blt
  | 14 => .bgt
  | _ => .ble

/-- The code of a condition (43_branch.md R291). -/
def Cond.toBits : Cond → BitVec 4
  | .bra => 0
  | .brn => 1
  | .bhi => 2
  | .bls => 3
  | .bcc => 4
  | .bcs => 5
  | .bne => 6
  | .beq => 7
  | .bvc => 8
  | .bvs => 9
  | .bpl => 10
  | .bmi => 11
  | .bge => 12
  | .blt => 13
  | .bgt => 14
  | .ble => 15

/-- The control register field `ccc` with the size of the EA field (30_encoding.md R128); none where Table 1-12 says
the combination is not allowed. -/
def ControlReg.ofBits (sz : Size) (b : BitVec 3) : Option ControlReg :=
  match sz, b.toNat with
  | .word, 0 => some .sr
  | .byte, 1 => some .ccr
  | .byte, 3 => some .br
  | .byte, 4 => some .ep
  | .byte, 5 => some .dp
  | .byte, 7 => some .tp
  | _, _ => none

/-- The code of a control register (R128). -/
def ControlReg.toBits : ControlReg → BitVec 3
  | .sr => 0
  | .ccr => 1
  | .br => 3
  | .ep => 4
  | .dp => 5
  | .tp => 7

/-- Bits 2 to 0 of a byte. -/
def low3 (b : Byte) : BitVec 3 := b.extractLsb' 0 3

/-- Bits 3 to 0 of a byte. -/
def low4 (b : Byte) : BitVec 4 := b.extractLsb' 0 4

/-- The register that bits 2 to 0 name (R127). -/
def regOf (b : Byte) : Reg := Reg.ofBits (low3 b)

/-- The size that bit 3 names (R125). -/
def sizeOf3 (b : Byte) : Size := Size.ofBit (b.getLsbD 3)

/-- The upper byte of a word, stored first (30_encoding.md R123). -/
def hiByte (w : Word) : Byte := w.extractLsb' 8 8

/-- The lower byte of a word. -/
def loByte (w : Word) : Byte := w.extractLsb' 0 8

/-! ### What decoding answers -/

/-- Why bytes are no instruction though Table 2-10 does not list them as invalid (30_encoding.md R146): the spec gives
them no effect, "proper handling is not assured". -/
inductive DecodeError where
  /-- A second byte after H'01, H'06, H'07 or H'11 that no rule defines (R134, R135). -/
  | undefinedSecondByte (g : SecondGroup) (b2 : Byte)
  /-- A second byte of TRAPA outside H'10 to H'1F (R137). -/
  | undefinedTrapa (b2 : Byte)
  /-- An operation code after the prefix H'00 that no rule defines (R136). -/
  | undefinedPrefixed (op : Byte)
  /-- An operation code with an Sz it does not allow (R146 (b)). -/
  | sizeNotAllowed (op : Byte)
  /-- A control register code not allowed for the size (R128, R146 (c)). -/
  | controlRegisterNotAllowed (ccc : BitVec 3)
  /-- DADD or DSUB with a memory EA, MOVFPE or MOVTPE with a register EA (R146 (d)). -/
  | operandClassNotAllowed (op : Byte)
  /-- Fewer bytes were given than the instruction has. -/
  | truncated
  deriving DecidableEq, Repr

/-- What decoding answers (30_encoding.md R138): an instruction and how many bytes it has, or a rejection by name and
how many bytes decided it. -/
inductive Decoded where
  | instr (i : Instr) (len : Nat)
  | rejected (e : DecodeError) (len : Nat)
  deriving DecidableEq, Repr

/-- How many bytes the answer rests on. -/
def Decoded.len : Decoded → Nat
  | .instr _ n => n
  | .rejected _ n => n

/-- The byte at a place of the instruction. -/
def byteAt (bs : List Byte) (k : Nat) : Byte := bs.getD k 0

/-- The two-byte quantity at a place of the instruction, high byte first (30_encoding.md R123). -/
def wordAt (bs : List Byte) (k : Nat) : Word := byteAt bs k ++ byteAt bs (k + 1)

/-! ### General format -/

/-- The code "this EA field, then an undefined operation code", as the instruction of the EA field's own table row. -/
def Ea.undefined (sz : Size) (t : UndefOp) : Ea → Instr
  | .reg r => .eaRn sz r t
  | .preDec r => .eaPreDec sz r t
  | .postInc r => .eaPostInc sz r t
  | .ind r => .eaInd sz r t
  | .disp8 r d => .eaDisp8 sz r d t
  | .disp16 r d => .eaDisp16 sz r d t
  | .abs8 a => .eaAbs8 sz a t
  | .abs16 a => .eaAbs16 sz a t
  | .imm8 v => .eaImm8 v t
  | .imm16 v => .eaImm16 v t

/-- The operation code after an EA field and the prefix code H'00, classes R and M (30_encoding.md R136).
`k` is the place of the operation code. -/
def decodePrefixed (sz : Size) (ea : Ea) (op : Byte) (k : Nat) : Decoded :=
  let n := k + 1
  let memoryByte (i : Instr) : Decoded :=
    match ea.cls, sz with
    | .memory, .byte => .instr i n
    | .memory, .word => .rejected (.sizeNotAllowed op) n
    | _, _ => .rejected (.operandClassNotAllowed op) n
  let registerByte (mk : Reg → Instr) : Decoded :=
    match ea, sz with
    | .reg rs, .byte => .instr (mk rs) n
    | .reg _, .word => .rejected (.sizeNotAllowed op) n
    | _, _ => .rejected (.operandClassNotAllowed op) n
  match (op.extractLsb' 3 5).toNat with
  | 0x10 => memoryByte (.movfpe ea (regOf op))
  | 0x12 => memoryByte (.movtpe (regOf op) ea)
  | 0x14 => registerByte (fun rs => .dadd rs (regOf op))
  | 0x16 => registerByte (fun rs => .dsub rs (regOf op))
  | _ =>
    if secondByteInvalid op then .instr (ea.undefined sz (.prefixed op)) n
    else .rejected (.undefinedPrefixed op) n

/-- Operation codes H'01 to H'0F after an EA field (30_encoding.md R133). `k` is the place of the operation code. -/
def decodeOp0 (sz : Size) (ea : Ea) (op : Byte) (k : Nat) (bs : List Byte) : Decoded :=
  let n := k + 1
  let bad : Decoded := .instr (ea.undefined sz (.op op)) n
  let place (i : Instr) : Decoded := if ea.isPlace then .instr i n else bad
  let imm8 (i : Instr) : Decoded :=
    if ea.isMemory then
      match sz with
      | .byte => .instr i (n + 1)
      | .word => .rejected (.sizeNotAllowed op) n
    else bad
  let imm16 (i : Instr) : Decoded :=
    if ea.isMemory then
      match sz with
      | .byte => .rejected (.sizeNotAllowed op) n
      | .word => .instr i (n + 2)
    else bad
  match (low4 op).toNat with
  | 0x4 => imm8 (.cmpGImm8 ea (byteAt bs n))
  | 0x5 => imm16 (.cmpGImm16 ea (wordAt bs n))
  | 0x6 => imm8 (.movGImm8 ea (byteAt bs n))
  | 0x7 => imm16 (.movGImm16 ea (wordAt bs n))
  | 0x8 => place (.addQ1 sz ea)
  | 0x9 => place (.addQ2 sz ea)
  | 0xC => place (.addQm1 sz ea)
  | 0xD => place (.addQm2 sz ea)
  | _ => bad

/-- Operation codes H'10 to H'1F after an EA field (30_encoding.md R133). -/
def decodeOp1 (sz : Size) (ea : Ea) (op : Byte) (k : Nat) : Decoded :=
  let n := k + 1
  let bad : Decoded := .instr (ea.undefined sz (.op op)) n
  let place (i : Instr) : Decoded := if ea.isPlace then .instr i n else bad
  let registerByte (mk : Reg → Instr) : Decoded :=
    match ea, sz with
    | .reg r, .byte => .instr (mk r) n
    | .reg _, .word => .rejected (.sizeNotAllowed op) n
    | _, _ => bad
  match (low4 op).toNat with
  | 0x0 => registerByte .swap
  | 0x1 => registerByte .exts
  | 0x2 => registerByte .extu
  | 0x3 => place (.clr sz ea)
  | 0x4 => place (.neg sz ea)
  | 0x5 => place (.notG sz ea)
  | 0x6 => place (.tst sz ea)
  | 0x7 =>
    match ea.isPlace, sz with
    | true, .word => .rejected (.sizeNotAllowed op) n
    | _, _ => place (.tas ea)
  | 0x8 => place (.shal sz ea)
  | 0x9 => place (.shar sz ea)
  | 0xA => place (.shll sz ea)
  | 0xB => place (.shlr sz ea)
  | 0xC => place (.rotl sz ea)
  | 0xD => place (.rotr sz ea)
  | 0xE => place (.rotxl sz ea)
  | _ => place (.rotxr sz ea)

/-- The control register that an operation code names, or the rejection of 30_encoding.md R146 (c). -/
def withControlReg (sz : Size) (op : Byte) (n : Nat) (mk : ControlReg → Instr) : Decoded :=
  match ControlReg.ofBits sz (low3 op) with
  | some cr => .instr (mk cr) n
  | none => .rejected (.controlRegisterNotAllowed (low3 op)) n

/-- The 8 or 16 bits an immediate EA carries. -/
def Ea.immediate : Ea → Word
  | .imm8 v => v.setWidth 16
  | .imm16 v => v
  | _ => 0

/-- Operation codes H'20 to H'FF after an EA field (30_encoding.md R133). -/
def decodeOpHigh (sz : Size) (ea : Ea) (op : Byte) (k : Nat) : Decoded :=
  let n := k + 1
  let r := regOf op
  let bad : Decoded := .instr (ea.undefined sz (.op op)) n
  let place (i : Instr) : Decoded := if ea.isPlace then .instr i n else bad
  let placeOrControl (i : Instr) (mk : Word → ControlReg → Instr) : Decoded :=
    if ea.isPlace then .instr i n else withControlReg sz op n (mk ea.immediate)
  match (op.extractLsb' 3 5).toNat with
  | 0x04 => .instr (.addG sz ea r) n
  | 0x05 => .instr (.adds sz ea r) n
  | 0x06 => .instr (.sub sz ea r) n
  | 0x07 => .instr (.subs sz ea r) n
  | 0x08 => .instr (.orG sz ea r) n
  | 0x09 => placeOrControl (.bsetR sz r ea) .orc
  | 0x0A => .instr (.andG sz ea r) n
  | 0x0B => placeOrControl (.bclrR sz r ea) .andc
  | 0x0C => .instr (.xorG sz ea r) n
  | 0x0D => placeOrControl (.bnotR sz r ea) .xorc
  | 0x0E => .instr (.cmpG sz ea r) n
  | 0x0F => place (.btstR sz r ea)
  | 0x10 => .instr (.movGLoad sz ea r) n
  | 0x11 => withControlReg sz op n (fun cr => .ldc ea cr)
  | 0x12 =>
    match ea, sz with
    | .reg rs, .word => .instr (.xch rs r) n
    | .reg _, .byte => .rejected (.sizeNotAllowed op) n
    | _, _ => place (.movGStore sz r ea)
  | 0x13 => if ea.isPlace then withControlReg sz op n (fun cr => .stc cr ea) else bad
  | 0x14 => .instr (.addx sz ea r) n
  | 0x15 => .instr (.mulxu sz ea r) n
  | 0x16 => .instr (.subx sz ea r) n
  | 0x17 => .instr (.divxu sz ea r) n
  | 0x18 | 0x19 => place (.bsetI sz (low4 op) ea)
  | 0x1A | 0x1B => place (.bclrI sz (low4 op) ea)
  | 0x1C | 0x1D => place (.bnotI sz (low4 op) ea)
  | _ => place (.btstI sz (low4 op) ea)

/-- The rest of a general-format instruction: its EA field is decoded, `k` is the place of the operation code
(30_encoding.md R121, R133, R136). -/
def decodeGeneral (sz : Size) (ea : Ea) (k : Nat) (bs : List Byte) : Decoded :=
  let op := byteAt bs k
  match (op.extractLsb' 4 4).toNat with
  | 0x0 =>
    if op = 0 ∧ ea.isPlace then decodePrefixed sz ea (byteAt bs (k + 1)) (k + 1)
    else decodeOp0 sz ea op k bs
  | 0x1 => decodeOp1 sz ea op k
  | _ => decodeOpHigh sz ea op k

/-! ### Special format -/

/-- SCB (30_encoding.md R135): the second byte is `1011 1rrr`. -/
def decodeScb (g : SecondGroup) (mk : Reg → Byte → Instr) (bs : List Byte) : Decoded :=
  let b2 := byteAt bs 1
  if b2.extractLsb' 3 5 = 0x17 then .instr (mk (regOf b2) (byteAt bs 2)) 3
  else if secondByteInvalid b2 then .instr (.invalidSecond g b2) 2
  else .rejected (.undefinedSecondByte g b2) 2

/-- The second byte after H'11 (30_encoding.md R134). -/
def decodePage (bs : List Byte) : Decoded :=
  let b2 := byteAt bs 1
  let r := regOf b2
  match (b2.extractLsb' 3 5).toNat with
  | 0x18 => .instr (.pjmpReg r) 2
  | 0x19 => .instr (.pjsrReg r) 2
  | 0x1A => .instr (.jmpInd r) 2
  | 0x1B => .instr (.jsrInd r) 2
  | 0x1C => .instr (.jmpDisp8 r (byteAt bs 2)) 3
  | 0x1D => .instr (.jsrDisp8 r (byteAt bs 2)) 3
  | 0x1E => .instr (.jmpDisp16 r (wordAt bs 2)) 4
  | 0x1F => .instr (.jsrDisp16 r (wordAt bs 2)) 4
  | _ =>
    if b2 = 0x14 then .instr (.prtd8 (byteAt bs 2)) 3
    else if b2 = 0x19 then .instr .prts 2
    else if b2 = 0x1C then .instr (.prtd16 (wordAt bs 2)) 4
    else if secondByteInvalid b2 then .instr (.invalidSecond .page b2) 2
    else .rejected (.undefinedSecondByte .page b2) 2

/-- First bytes H'00 to H'0F (30_encoding.md R132). -/
def decodeFirst0 (b1 : Byte) (bs : List Byte) : Decoded :=
  match (low4 b1).toNat with
  | 0x0 => .instr .nop 1
  | 0x1 => decodeScb .scbF .scbF bs
  | 0x2 => .instr (.ldm (byteAt bs 1)) 2
  | 0x3 => .instr (.pjsrAbs (byteAt bs 1) (wordAt bs 2)) 4
  | 0x4 => decodeGeneral .byte (.imm8 (byteAt bs 1)) 2 bs
  | 0x5 => decodeGeneral .byte (.abs8 (byteAt bs 1)) 2 bs
  | 0x6 => decodeScb .scbNE .scbNE bs
  | 0x7 => decodeScb .scbEQ .scbEQ bs
  | 0x8 =>
    if (byteAt bs 1).extractLsb' 4 4 = 1 then .instr (.trapa (low4 (byteAt bs 1))) 2
    else .rejected (.undefinedTrapa (byteAt bs 1)) 2
  | 0x9 => .instr .trapVS 1
  | 0xA => .instr .rte 1
  | 0xB => .instr .invalid0B 1
  | 0xC => decodeGeneral .word (.imm16 (wordAt bs 1)) 3 bs
  | 0xD => decodeGeneral .word (.abs8 (byteAt bs 1)) 2 bs
  | 0xE => .instr (.bsr8 (byteAt bs 1)) 2
  | _ => .instr .unlk 1

/-- First bytes H'10 to H'1F (30_encoding.md R132). -/
def decodeFirst1 (b1 : Byte) (bs : List Byte) : Decoded :=
  match (low4 b1).toNat with
  | 0x0 => .instr (.jmpAbs (wordAt bs 1)) 3
  | 0x1 => decodePage bs
  | 0x2 => .instr (.stm (byteAt bs 1)) 2
  | 0x3 => .instr (.pjmpAbs (byteAt bs 1) (wordAt bs 2)) 4
  | 0x4 => .instr (.rtd8 (byteAt bs 1)) 2
  | 0x5 => decodeGeneral .byte (.abs16 (wordAt bs 1)) 3 bs
  | 0x6 => .instr .invalid16 1
  | 0x7 => .instr (.link8 (byteAt bs 1)) 2
  | 0x8 => .instr (.jsrAbs (wordAt bs 1)) 3
  | 0x9 => .instr .rts 1
  | 0xA => .instr .sleep 1
  | 0xB => .instr .invalid1B 1
  | 0xC => .instr (.rtd16 (wordAt bs 1)) 3
  | 0xD => decodeGeneral .word (.abs16 (wordAt bs 1)) 3 bs
  | 0xE => .instr (.bsr16 (wordAt bs 1)) 3
  | _ => .instr (.link16 (wordAt bs 1)) 3

/-- The first-byte table, total over the 256 values (30_encoding.md R132), on bytes that reach as far as needed. -/
def decodeBytes (bs : List Byte) : Decoded :=
  let b1 := byteAt bs 0
  let r := regOf b1
  let sz := sizeOf3 b1
  match (b1.extractLsb' 4 4).toNat with
  | 0x0 => decodeFirst0 b1 bs
  | 0x1 => decodeFirst1 b1 bs
  | 0x2 => .instr (.bcc8 (Cond.ofBits (low4 b1)) (byteAt bs 1)) 2
  | 0x3 => .instr (.bcc16 (Cond.ofBits (low4 b1)) (wordAt bs 1)) 3
  | 0x4 =>
    match sz with
    | .byte => .instr (.cmpE (byteAt bs 1) r) 2
    | .word => .instr (.cmpI (wordAt bs 1) r) 3
  | 0x5 =>
    match sz with
    | .byte => .instr (.movE (byteAt bs 1) r) 2
    | .word => .instr (.movI (wordAt bs 1) r) 3
  | 0x6 => .instr (.movL sz (byteAt bs 1) r) 2
  | 0x7 => .instr (.movS sz r (byteAt bs 1)) 2
  | 0x8 => .instr (.movFLoad sz (byteAt bs 1) r) 2
  | 0x9 => .instr (.movFStore sz r (byteAt bs 1)) 2
  | 0xA => decodeGeneral sz (.reg r) 1 bs
  | 0xB => decodeGeneral sz (.preDec r) 1 bs
  | 0xC => decodeGeneral sz (.postInc r) 1 bs
  | 0xD => decodeGeneral sz (.ind r) 1 bs
  | 0xE => decodeGeneral sz (.disp8 r (byteAt bs 1)) 2 bs
  | _ => decodeGeneral sz (.disp16 r (wordAt bs 1)) 3 bs

/-- Decode (30_encoding.md R138): total on any list of bytes. -/
def decode (bs : List Byte) : Decoded :=
  let d := decodeBytes bs
  if d.len ≤ bs.length then d else .rejected .truncated bs.length

/-! ### The encoder -/

/-- A byte whose upper five bits are an operation code and whose lower three are a field. -/
def opReg (op : BitVec 5) (f : BitVec 3) : Byte := op ++ f

/-- A byte of an upper nibble and a four-bit field. -/
def opNibble (op : BitVec 4) (f : BitVec 4) : Byte := op ++ f

/-- A byte of an upper nibble, Sz in bit 3 and a register (30_encoding.md R125). -/
def opSizeReg (op : BitVec 4) (sz : Size) (r : Reg) : Byte := op ++ sz.toBit ++ r.toBits

/-- A 16-bit quantity inside an instruction, high byte first (30_encoding.md R123). -/
def wordBytes (w : Word) : List Byte := [hiByte w, loByte w]

/-- The EA field and its extension (30_encoding.md R125, Table 1-9). -/
def encodeEa (sz : Size) : Ea → List Byte
  | .reg r => [opSizeReg 0xA sz r]
  | .preDec r => [opSizeReg 0xB sz r]
  | .postInc r => [opSizeReg 0xC sz r]
  | .ind r => [opSizeReg 0xD sz r]
  | .disp8 r d => [opSizeReg 0xE sz r, d]
  | .disp16 r d => opSizeReg 0xF sz r :: wordBytes d
  | .abs8 a => [opSizeReg 0x0 sz .r5, a]
  | .abs16 a => opSizeReg 0x1 sz .r5 :: wordBytes a
  | .imm8 v => [0x04, v]
  | .imm16 v => 0x0C :: wordBytes v

/-- The bytes of an undefined operation code (30_encoding.md R141, R143). -/
def UndefOp.encode : UndefOp → List Byte
  | .op b => [b]
  | .prefixed b => [0x00, b]

/-- The EA field of an immediate for a control register: `#xx:8` or `#xx:16` by its size (44_system_control.md R338). -/
def encodeControlImm (cr : ControlReg) (imm : Word) : List Byte :=
  match cr.size with
  | .byte => [0x04, loByte imm]
  | .word => 0x0C :: wordBytes imm

/-- The first byte of a second-byte group (30_encoding.md R142). -/
def SecondGroup.firstByte : SecondGroup → Byte
  | .scbF => 0x01
  | .scbNE => 0x06
  | .scbEQ => 0x07
  | .page => 0x11

/-- The bytes of an instruction (30_encoding.md R132 to R137). -/
def encode : Instr → List Byte
  | .eaRn sz r t => encodeEa sz (.reg r) ++ t.encode
  | .eaPreDec sz r t => encodeEa sz (.preDec r) ++ t.encode
  | .eaPostInc sz r t => encodeEa sz (.postInc r) ++ t.encode
  | .eaInd sz r t => encodeEa sz (.ind r) ++ t.encode
  | .eaDisp8 sz r d t => encodeEa sz (.disp8 r d) ++ t.encode
  | .eaDisp16 sz r d t => encodeEa sz (.disp16 r d) ++ t.encode
  | .eaAbs8 sz a t => encodeEa sz (.abs8 a) ++ t.encode
  | .eaAbs16 sz a t => encodeEa sz (.abs16 a) ++ t.encode
  | .eaImm8 v t => encodeEa .byte (.imm8 v) ++ t.encode
  | .eaImm16 v t => encodeEa .word (.imm16 v) ++ t.encode
  | .cmpGImm8 ea imm => encodeEa .byte ea ++ [0x04, imm]
  | .cmpGImm16 ea imm => encodeEa .word ea ++ 0x05 :: wordBytes imm
  | .movGImm8 ea imm => encodeEa .byte ea ++ [0x06, imm]
  | .movGImm16 ea imm => encodeEa .word ea ++ 0x07 :: wordBytes imm
  | .addQ1 sz ea => encodeEa sz ea ++ [0x08]
  | .addQ2 sz ea => encodeEa sz ea ++ [0x09]
  | .addQm1 sz ea => encodeEa sz ea ++ [0x0C]
  | .addQm2 sz ea => encodeEa sz ea ++ [0x0D]
  | .swap rd => encodeEa .byte (.reg rd) ++ [0x10]
  | .exts rd => encodeEa .byte (.reg rd) ++ [0x11]
  | .extu rd => encodeEa .byte (.reg rd) ++ [0x12]
  | .clr sz ea => encodeEa sz ea ++ [0x13]
  | .neg sz ea => encodeEa sz ea ++ [0x14]
  | .notG sz ea => encodeEa sz ea ++ [0x15]
  | .tst sz ea => encodeEa sz ea ++ [0x16]
  | .tas ea => encodeEa .byte ea ++ [0x17]
  | .shal sz ea => encodeEa sz ea ++ [0x18]
  | .shar sz ea => encodeEa sz ea ++ [0x19]
  | .shll sz ea => encodeEa sz ea ++ [0x1A]
  | .shlr sz ea => encodeEa sz ea ++ [0x1B]
  | .rotl sz ea => encodeEa sz ea ++ [0x1C]
  | .rotr sz ea => encodeEa sz ea ++ [0x1D]
  | .rotxl sz ea => encodeEa sz ea ++ [0x1E]
  | .rotxr sz ea => encodeEa sz ea ++ [0x1F]
  | .addG sz ea rd => encodeEa sz ea ++ [opReg 0x04 rd.toBits]
  | .adds sz ea rd => encodeEa sz ea ++ [opReg 0x05 rd.toBits]
  | .sub sz ea rd => encodeEa sz ea ++ [opReg 0x06 rd.toBits]
  | .subs sz ea rd => encodeEa sz ea ++ [opReg 0x07 rd.toBits]
  | .orG sz ea rd => encodeEa sz ea ++ [opReg 0x08 rd.toBits]
  | .bsetR sz rs ea => encodeEa sz ea ++ [opReg 0x09 rs.toBits]
  | .orc imm cr => encodeControlImm cr imm ++ [opReg 0x09 cr.toBits]
  | .andG sz ea rd => encodeEa sz ea ++ [opReg 0x0A rd.toBits]
  | .bclrR sz rs ea => encodeEa sz ea ++ [opReg 0x0B rs.toBits]
  | .andc imm cr => encodeControlImm cr imm ++ [opReg 0x0B cr.toBits]
  | .xorG sz ea rd => encodeEa sz ea ++ [opReg 0x0C rd.toBits]
  | .bnotR sz rs ea => encodeEa sz ea ++ [opReg 0x0D rs.toBits]
  | .xorc imm cr => encodeControlImm cr imm ++ [opReg 0x0D cr.toBits]
  | .cmpG sz ea rd => encodeEa sz ea ++ [opReg 0x0E rd.toBits]
  | .btstR sz rs ea => encodeEa sz ea ++ [opReg 0x0F rs.toBits]
  | .movGLoad sz ea rd => encodeEa sz ea ++ [opReg 0x10 rd.toBits]
  | .ldc ea cr => encodeEa cr.size ea ++ [opReg 0x11 cr.toBits]
  | .xch rs rd => encodeEa .word (.reg rs) ++ [opReg 0x12 rd.toBits]
  | .movGStore sz rs ea => encodeEa sz ea ++ [opReg 0x12 rs.toBits]
  | .stc cr ea => encodeEa cr.size ea ++ [opReg 0x13 cr.toBits]
  | .addx sz ea rd => encodeEa sz ea ++ [opReg 0x14 rd.toBits]
  | .mulxu sz ea rd => encodeEa sz ea ++ [opReg 0x15 rd.toBits]
  | .subx sz ea rd => encodeEa sz ea ++ [opReg 0x16 rd.toBits]
  | .divxu sz ea rd => encodeEa sz ea ++ [opReg 0x17 rd.toBits]
  | .bsetI sz n ea => encodeEa sz ea ++ [opNibble 0xC n]
  | .bclrI sz n ea => encodeEa sz ea ++ [opNibble 0xD n]
  | .bnotI sz n ea => encodeEa sz ea ++ [opNibble 0xE n]
  | .btstI sz n ea => encodeEa sz ea ++ [opNibble 0xF n]
  | .movfpe ea rd => encodeEa .byte ea ++ [0x00, opReg 0x10 rd.toBits]
  | .movtpe rs ea => encodeEa .byte ea ++ [0x00, opReg 0x12 rs.toBits]
  | .dadd rs rd => encodeEa .byte (.reg rs) ++ [0x00, opReg 0x14 rd.toBits]
  | .dsub rs rd => encodeEa .byte (.reg rs) ++ [0x00, opReg 0x16 rd.toBits]
  | .nop => [0x00]
  | .scbF r d => [0x01, opReg 0x17 r.toBits, d]
  | .scbNE r d => [0x06, opReg 0x17 r.toBits, d]
  | .scbEQ r d => [0x07, opReg 0x17 r.toBits, d]
  | .ldm list => [0x02, list]
  | .stm list => [0x12, list]
  | .pjsrAbs page a => 0x03 :: page :: wordBytes a
  | .pjmpAbs page a => 0x13 :: page :: wordBytes a
  | .trapa v => [0x08, opNibble 0x1 v]
  | .trapVS => [0x09]
  | .rte => [0x0A]
  | .bsr8 d => [0x0E, d]
  | .bsr16 d => 0x1E :: wordBytes d
  | .unlk => [0x0F]
  | .jmpAbs a => 0x10 :: wordBytes a
  | .jsrAbs a => 0x18 :: wordBytes a
  | .rtd8 i => [0x14, i]
  | .rtd16 i => 0x1C :: wordBytes i
  | .link8 i => [0x17, i]
  | .link16 i => 0x1F :: wordBytes i
  | .rts => [0x19]
  | .sleep => [0x1A]
  | .prtd8 i => [0x11, 0x14, i]
  | .prtd16 i => 0x11 :: 0x1C :: wordBytes i
  | .prts => [0x11, 0x19]
  | .pjmpReg r => [0x11, opReg 0x18 r.toBits]
  | .pjsrReg r => [0x11, opReg 0x19 r.toBits]
  | .jmpInd r => [0x11, opReg 0x1A r.toBits]
  | .jsrInd r => [0x11, opReg 0x1B r.toBits]
  | .jmpDisp8 r d => [0x11, opReg 0x1C r.toBits, d]
  | .jsrDisp8 r d => [0x11, opReg 0x1D r.toBits, d]
  | .jmpDisp16 r d => 0x11 :: opReg 0x1E r.toBits :: wordBytes d
  | .jsrDisp16 r d => 0x11 :: opReg 0x1F r.toBits :: wordBytes d
  | .bcc8 cc d => [opNibble 0x2 cc.toBits, d]
  | .bcc16 cc d => opNibble 0x3 cc.toBits :: wordBytes d
  | .cmpE imm rd => [opSizeReg 0x4 .byte rd, imm]
  | .cmpI imm rd => opSizeReg 0x4 .word rd :: wordBytes imm
  | .movE imm rd => [opSizeReg 0x5 .byte rd, imm]
  | .movI imm rd => opSizeReg 0x5 .word rd :: wordBytes imm
  | .movL sz a rd => [opSizeReg 0x6 sz rd, a]
  | .movS sz rs a => [opSizeReg 0x7 sz rs, a]
  | .movFLoad sz d rd => [opSizeReg 0x8 sz rd, d]
  | .movFStore sz rs d => [opSizeReg 0x9 sz rs, d]
  | .invalid0B => [0x0B]
  | .invalid16 => [0x16]
  | .invalid1B => [0x1B]
  | .invalidSecond g b2 => [g.firstByte, b2]

/-! ### The table's words -/

/-- The bytes of a table word. spec/opcode_table.json numbers a row's bits with the first byte the most significant
(its `match` and `encoding` show it), so the first byte is the upper one (log entry 34). -/
def bigEndianBytes : Nat → Nat → List Byte
  | 0, _ => []
  | n + 1, w => BitVec.ofNat 8 (w / 256 ^ n) :: bigEndianBytes n w

/-- The EA field put before a row of one operation code byte, which the table gives without one: `@R0` of byte size where
the row needs memory (MOV:G store), `R0` of word size where it needs SR or a
bit number of 8 or more, else `R0` of byte size (log entry 34). -/
def fieldBefore (op : Byte) : Byte :=
  if op.extractLsb' 3 5 = 0x12 then 0xD0
  else if op = 0x88 ∨ op = 0x98 ∨ (op.extractLsb' 6 2 = 3 ∧ op.getLsbD 3) then 0xA8
  else 0xA0

/-- The table's rows of format "general" give the operation code alone, "after the EA field and its extension": such a
row's bytes get an EA field before them. A row that is a whole instruction from its first byte stays as it is, and where
the two coincide the whole instruction wins (log entry 34). -/
def withEaField : List Byte → List Byte
  | [b] => if b ∈ [0x00, 0x09, 0x0A, 0x0B, 0x0F, 0x16, 0x19, 0x1A, 0x1B] then [b] else [fieldBefore b, b]
  | [b, d] =>
    if b = 0x04 ∨ b = 0x06 then [0xD0, b, d]
    else if b = 0x00 then
      if d.extractLsb' 5 3 = 0x4 then [0xD0, b, d] else [0xA0, b, d]
    else [b, d]
  | [b, d, e] =>
    if b = 0x05 ∨ (b = 0x07 ∧ d.extractLsb' 3 5 ≠ 0x17) then [0xD8, b, d, e] else [b, d, e]
  | bs => bs

/-- The six bytes in memory that a table word stands for: its own bytes, an EA field before them where the row needs one,
and zeros after them. -/
def tableBytes (nbits w : Nat) : List Byte :=
  (withEaField (bigEndianBytes (nbits / 8) w) ++ List.replicate 6 0).take 6

/-- The instruction the decoder reads from a word of the opcode table. -/
def decodeTableWord (nbits w : Nat) : Option Instr :=
  match decode (tableBytes nbits w) with
  | .instr i _ => some i
  | .rejected _ _ => none

end Sys2Proof
end

