-- ==== Sys2Proof/Machine/State.lean ====
section
/-! DEFINITION. The state of the machine as plain data (spec/10_state.md), why a step stops, and the state after reset. -/

namespace Sys2Proof.Machine

/-- The address-space mode of 00_scope.md R9. -/
inductive Mode where
  | minimum
  | maximum
  deriving DecidableEq, Repr

/-- The CPU operating states of 10_state.md R48. -/
inductive CpuState where
  | reset
  | exceptionHandling
  | executing
  | busReleased
  | sleep
  | softwareStandby
  | hardwareStandby
  deriving DecidableEq, Repr

/-- The chips of the family (00_scope.md R1); they differ for the CPU in three features (R10). -/
inductive Chip where
  | h8510
  | h8520
  | h8532
  | h8534
  | h8536
  | h8570
  deriving DecidableEq, Repr

/-- A pending maskable interrupt request (60_exceptions.md R392): its level and its vector table index less 32
(R385: indices 32 to 79). -/
structure Request where
  level : BitVec 3
  vec : Fin 48
  deriving DecidableEq, Repr

/-- The eight general registers (10_state.md R20). -/
structure Regs where
  r0 : Word
  r1 : Word
  r2 : Word
  r3 : Word
  r4 : Word
  r5 : Word
  r6 : Word
  r7 : Word
  deriving DecidableEq, Repr

/-- Memory: address and byte pairs (20_memory.md R76), in the form Memory.wf. -/
abbrev Memory := List Host.Cell

/-- What a byte of memory that nothing has written reads as (log entry 3, DESIGN CHOICE). -/
def Memory.unlisted : Byte := 0x00

/-- The canonical form, seen from below: addresses from `lo` on, strictly rising and below 2^24, and no byte that an
unlisted address reads as. -/
def Memory.wfFrom : Nat → Memory → Bool
  | _, [] => true
  | lo, (a, b) :: m => decide (lo ≤ a) && decide (a < 2 ^ 24) && decide (b ≠ Memory.unlisted) && Memory.wfFrom (a + 1) m

/-- The canonical form of a memory: equal memories are equal lists. -/
def Memory.wf (m : Memory) : Bool := Memory.wfFrom 0 m

/-- The machine (10_state.md). The last three fields are the model's own; the rest the spec names. -/
@[ext]
structure State where
  /-- R0 to R7 (R20). -/
  regs : Regs
  /-- The program counter (R25). -/
  pc : Word
  /-- The status register with CCR as its low byte (R28). -/
  sr : Word
  /-- The code page register (R41). -/
  cp : Byte
  /-- The data page register (R42). -/
  dp : Byte
  /-- The extended page register (R43). -/
  ep : Byte
  /-- The stack page register (R44). -/
  tp : Byte
  /-- The base register (R45). -/
  br : Byte
  /-- The mode latched at reset (R52). -/
  mode : Mode
  /-- The CPU operating state (R48). -/
  cpuState : CpuState
  /-- SSBY of SBYCR (R52). -/
  ssby : Bool
  /-- Set by the instructions that hold trace and interrupts off once (R50). -/
  defer : Bool
  /-- An address error was detected in this instruction (R51). -/
  aerr : Bool
  /-- The NMI request (R49, 60_exceptions.md R392). -/
  nmiRequest : Bool
  /-- The pending maskable requests, in the order the platform presents equal levels (R49; log entry 17). -/
  pending : List Request
  /-- The RES pin is Low (60_exceptions.md R400). -/
  resLow : Bool
  /-- The STBY pin is Low (60_exceptions.md R405). -/
  stbyLow : Bool
  /-- The BREQ pin is Low (60_exceptions.md R406). -/
  breqLow : Bool
  /-- The mode the mode pins select (70_reset_and_hazards.md R421). -/
  modePins : Mode
  /-- The chip (00_scope.md R10). -/
  chip : Chip
  /-- The bytes of the address space (20_memory.md R76). -/
  mem : Memory
  /-- `a` of 60_exceptions.md R375: the address of the first byte of the instruction being executed. -/
  insAddr : Word
  /-- The model's own: how many free values have been drawn (00_scope.md R15; log entry 12). -/
  draws : Nat
  /-- The model's own: the bytes the running instruction has stored to, latest first (20_memory.md R104; log entry 7). -/
  stores : List Addr
  deriving DecidableEq, Repr

/-- The one fault of the machine. -/
inductive Fault where
  /-- `fault(StackErrorInSequence)` of 60_exceptions.md R384: the pushes of an exception-handling sequence meet an odd R7.
  Raised by Sequence. Safe: the hardware's behaviour is unknown and the model stops. -/
  | stackErrorInSequence
  deriving DecidableEq, Repr

/-- The reasons a step has no meaning. -/
inductive Refusal where
  /-- An instruction whose meaning has not been written. No arm of exec raises it. Safe. -/
  | notModelled (mnemonic : String)
  /-- The bytes are no instruction and no listed invalid code (30_encoding.md R146). Raised by the fetch. Safe. -/
  | undefinedEncoding (e : DecodeError)
  /-- An odd register number where a pair is meant (41_arithmetic.md R212, 43_branch.md R302, R303). Raised by word
  MULXU and DIVXU, `PJMP @Rn` and `PJSR @Rn`. Safe. -/
  | oddRegisterPair
  /-- `@-Rn` or `@Rn+` with the same Rn as the register operand (20_memory.md R94). Raised by the instructions with an
  EA field and a register operand. Safe. -/
  | eaSideEffectOnOperandRegister
  /-- A decimal operand with a digit above 9 (41_arithmetic.md R209). Raised by DADD and DSUB. Safe. -/
  | invalidBcdDigit
  /-- A bit number of 8 or more with a byte operand (42_logic_shift_bit.md R270). Raised by BSET, BCLR, BNOT and BTST.
  Safe. -/
  | bitNumberExceedsOperandSize
  /-- The chip has no E clock (40_data_transfer.md R190, R191). Raised by MOVTPE and MOVFPE. Safe. -/
  | noEClock
  /-- A store into the bytes of the next sequential instruction (20_memory.md R104). Raised by the step after the
  instruction. Safe. -/
  | storeIntoNextInstruction
  deriving DecidableEq, Repr

/-- What a meaning answers. -/
abbrev Outcome := Host.Outcome State Fault Refusal

/-- All eight registers zero: what the model takes where the spec says "Undetermined" (log entry 4, DESIGN CHOICE). -/
def Regs.zero : Regs := ⟨0, 0, 0, 0, 0, 0, 0, 0⟩

/-- The machine right after reset (70_reset_and_hazards.md R420 to R422). SR is H'0700; PC and CP are what the reset
vector holds in a memory with nothing listed; registers the spec leaves undetermined are zero (log entry 4); the mode and
the chip are those of log entries 2 and 28. -/
def State.reset : State where
  regs := Regs.zero
  pc := 0x0000
  sr := 0x0700
  cp := 0x00
  dp := 0x00
  ep := 0x00
  tp := 0x00
  br := 0x00
  mode := .maximum
  cpuState := .executing
  ssby := false
  defer := false
  aerr := false
  nmiRequest := false
  pending := []
  resLow := false
  stbyLow := false
  breqLow := false
  modePins := .maximum
  chip := .h8532
  mem := []
  insAddr := 0x0000
  draws := 0
  stores := []

end Sys2Proof.Machine
end

