-- ==== Sys2Proof/Machine/Memory.lean ====
section
/-! DEFINITION. Reading and writing memory: bytes, words and the physical address (spec/20_memory.md R72 to R79). -/

namespace Sys2Proof.Machine

/-- The byte at an address of a memory (R76). -/
def Memory.readAt : Memory → Nat → Byte
  | [], _ => Memory.unlisted
  | (k, b) :: m, a => if k = a then b else Memory.readAt m a

/-- An entry in front of a memory, unless it says what an unlisted address reads as anyway. -/
def Memory.cons (a : Nat) (b : Byte) (m : Memory) : Memory := if b = Memory.unlisted then m else (a, b) :: m

/-- The memory with one byte written (R76), in canonical form. -/
def Memory.writeAt : Memory → Nat → Byte → Memory
  | [], a, b => Memory.cons a b []
  | (k, c) :: m, a, b =>
    if a < k then Memory.cons a b ((k, c) :: m)
    else if a = k then Memory.cons a b m
    else (k, c) :: Memory.writeAt m a b

/-- `Phys(pg, off)` (R72): the page counts in maximum mode only. -/
def State.phys (s : State) (page : Byte) (off : Word) : Addr :=
  match s.mode with
  | .maximum => page ++ off
  | .minimum => (0 : Byte) ++ off

/-- `MemRead(a, 1)` (R78). -/
def State.readByte (s : State) (a : Addr) : Byte := s.mem.readAt a.toNat

/-- `MemWrite(a, 1, v)` (R78). The address is noted among the running instruction's stores (R104). -/
def State.writeByte (s : State) (a : Addr) (v : Byte) : State :=
  { s with mem := s.mem.writeAt a.toNat v, stores := a :: s.stores }

/-- `Mem[a] :: Mem[a+1]` (R76): a word, its upper byte at the lower address. -/
def State.wordAt (s : State) (a : Addr) : Word := s.readByte a ++ s.readByte (a + 1)

/-- An odd address (R79). -/
def odd (a : BitVec n) : Bool := a.getLsbD 0

/-- `draw(8)` (00_scope.md R15). -/
def State.drawByte (s : State) : Byte × State := (Config.freeByte s.draws, { s with draws := s.draws + 1 })

/-- `MemRead(a, 2)` (R78): at an odd address an address error is noted and the value is free (R79, D5). -/
def State.readWord (s : State) (a : Addr) : Word × State :=
  if odd a then (Config.freeWord s.draws, { s with aerr := true, draws := s.draws + 1 }) else (s.wordAt a, s)

/-- A byte that becomes free at an address (R78, D5). It is not noted among the stores (DESIGN CHOICE, log entry 7). -/
def State.scribble (s : State) (a : Addr) : State :=
  { s.drawByte.2 with mem := s.mem.writeAt a.toNat s.drawByte.1 }

/-- The address after `a` in the same page (R71, D4). -/
def nextInPage (a : Addr) : Addr := a.extractLsb' 16 8 ++ (a.extractLsb' 0 16 + 1)

/-- `MemWrite(a, 2, v)` (R78): at an odd address an address error is noted and the memory effect is unspecified: the bytes
of the two words that hold `a` in either half, `a` and its neighbours in the page, become free (R79, D5; log entry 6).
None of the three counts as stored to for R104, so the address error, which D5 calls certain, is always taken; what counts
there is left open (DESIGN CHOICE, log entry 7). -/
def State.writeWord (s : State) (a : Addr) (v : Word) : State :=
  if odd a then (({ s with aerr := true }.scribble (a - 1)).scribble a).scribble (nextInPage a)
  else (s.writeByte a (hiByte v)).writeByte (a + 1) (loByte v)

end Sys2Proof.Machine
end

