-- ==== Sys2Proof/Machine/Flags.lean ====
section
/-! DEFINITION. The status register (spec/10_state.md R28 to R37) and every flag computation of Table 2-7 (R38, R40).
A computation takes the operands at their width and the flags before, and answers the result and the flags after. -/

namespace Sys2Proof.Machine

/-! ### The status register -/

/-- A word with one bit set to a value. -/
def putBit (v : BitVec n) (i : Nat) (b : Bool) : BitVec n :=
  if b then v ||| BitVec.twoPow n i else v &&& ~~~(BitVec.twoPow n i)

/-- The four condition codes (R33 to R36). -/
structure Flags where
  n : Bool
  z : Bool
  v : Bool
  c : Bool
  deriving DecidableEq, Repr

/-- The bits of SR that can be written (R28). -/
def srMask : Word := 0x870F

/-- T, bit 15 (R29). -/
def State.flagT (s : State) : Bool := s.sr.getLsbD 15

/-- I2 to I0, bits 10 to 8 (R31). -/
def State.intMask (s : State) : BitVec 3 := s.sr.extractLsb' 8 3

/-- N, Z, V, C: bits 3 to 0 (R28). -/
def State.flags (s : State) : Flags := ⟨s.sr.getLsbD 3, s.sr.getLsbD 2, s.sr.getLsbD 1, s.sr.getLsbD 0⟩

/-- SR with new condition codes. -/
def srWithFlags (sr : Word) (f : Flags) : Word := putBit (putBit (putBit (putBit sr 3 f.n) 2 f.z) 1 f.v) 0 f.c

/-- The condition codes are written; T and I2 to I0 stay. -/
def State.setFlags (s : State) (f : Flags) : State := { s with sr := srWithFlags s.sr f }

/-- A write to the whole of SR: reserved bits cannot be written (R28, R30). -/
def State.setSr (s : State) (v : Word) : State := { s with sr := v &&& srMask }

/-- A write to CCR, the low byte of SR (R28, 44_system_control.md R330). -/
def State.setCcr (s : State) (v : Byte) : State := { s with sr := hiByte s.sr ++ (v &&& 0x0F) }

/-- T cleared (R29). -/
def State.clearT (s : State) : State := { s with sr := putBit s.sr 15 false }

/-- SR with a new interrupt mask level. -/
def srWithMask (sr : Word) (l : BitVec 3) : Word :=
  putBit (putBit (putBit sr 10 (l.getLsbD 2)) 9 (l.getLsbD 1)) 8 (l.getLsbD 0)

/-- I2 to I0 written (R32). -/
def State.setMask (s : State) (l : BitVec 3) : State := { s with sr := srWithMask s.sr l }

/-! ### Addition and subtraction: `AddFlags` and `SubFlags` (R40) -/

/-- Bit m, the most significant bit of the operand size (R38). -/
def top (v : BitVec w) : Bool := v.msb

/-- A carry or borrow as a number of the operand's width. -/
def carryIn (w : Nat) (b : Bool) : BitVec w := if b then 1 else 0

/-- `AddFlags(s, d, cin, W)` (R40). -/
def addFlags (s d : BitVec w) (cin : Bool) : BitVec w × Flags :=
  let r := s + d + carryIn w cin
  (r, { n := top r
        z := r == 0
        v := (top s && top d && !top r) || (!top s && !top d && top r)
        c := (top s && top d) || (top d && !top r) || (top s && !top r) })

/-- `SubFlags(s, d, bin, W)` (R40): d less s. -/
def subFlags (s d : BitVec w) (bin : Bool) : BitVec w × Flags :=
  let r := d - s - carryIn w bin
  (r, { n := top r
        z := r == 0
        v := (!top s && top d && !top r) || (top s && !top d && top r)
        c := (top s && !top d) || (!top d && top r) || (top s && top r) })

/-- ADD (41_arithmetic.md R201, R202). -/
def aluAdd (s d : BitVec w) (_ : Flags) : BitVec w × Flags := addFlags s d false

/-- SUB and CMP (R203, R220). -/
def aluSub (s d : BitVec w) (_ : Flags) : BitVec w × Flags := subFlags s d false

/-- ADDX: with the carry, and Z only ever cleared (R204). -/
def aluAddx (s d : BitVec w) (f : Flags) : BitVec w × Flags :=
  let p := addFlags s d f.c
  (p.1, { p.2 with z := f.z && p.2.z })

/-- SUBX: with the borrow, and Z only ever cleared (R205). -/
def aluSubx (s d : BitVec w) (f : Flags) : BitVec w × Flags :=
  let p := subFlags s d f.c
  (p.1, { p.2 with z := f.z && p.2.z })

/-- NEG: 0 less the operand (R228). -/
def aluNeg (d : BitVec w) (_ : Flags) : BitVec w × Flags := subFlags d 0 false

/-- What ADD:Q adds (R202): a number of either width, so that -1 and -2 enter as H'FF.. and H'FE.. (D12; log entry 9). -/
def quick (q : Int) (d : BitVec w) (_ : Flags) : BitVec w × Flags := addFlags (BitVec.ofInt w q) d false

/-! ### Results that set N and Z and clear V -/

/-- `MovFlags(v, W)` (40_data_transfer.md R170): N and Z from the value, V cleared, C kept. -/
def movFlags (r : BitVec w) (f : Flags) : Flags := { n := top r, z := r == 0, v := false, c := f.c }

/-- N and Z from the value, V and C cleared: TST, TAS, EXTS, MULXU (R214, R225, R227, R231). -/
def testFlags (r : BitVec w) : Flags := { n := top r, z := r == 0, v := false, c := false }

/-- CLR (R229). -/
def clearFlags : Flags := { n := false, z := true, v := false, c := false }

/-- AND (42_logic_shift_bit.md R250, R251). -/
def aluAnd (s d : BitVec w) (f : Flags) : BitVec w × Flags := (d &&& s, movFlags (d &&& s) f)

/-- OR (R252). -/
def aluOr (s d : BitVec w) (f : Flags) : BitVec w × Flags := (d ||| s, movFlags (d ||| s) f)

/-- XOR (R253). -/
def aluXor (s d : BitVec w) (f : Flags) : BitVec w × Flags := (d ^^^ s, movFlags (d ^^^ s) f)

/-- NOT (R254). -/
def aluNot (d : BitVec w) (f : Flags) : BitVec w × Flags := (~~~d, movFlags (~~~d) f)

/-- TAS: bit 7 set in the result, the flags from the value before (41_arithmetic.md R231; log entry 31). -/
def aluTas (d : BitVec w) (_ : Flags) : BitVec w × Flags := (d ||| BitVec.twoPow w (w - 1), testFlags d)

/-! ### Shifts and rotates by one bit (42_logic_shift_bit.md R260 to R268) -/

/-- A bit as the lowest of a word. -/
def lowBit (w : Nat) (b : Bool) : BitVec w := if b then 1 else 0

/-- A bit as the highest of a word. -/
def highBit (w : Nat) (b : Bool) : BitVec w := if b then BitVec.twoPow w (w - 1) else 0

/-- A shift to the left that takes a bit in: the result and the flags, C the bit shifted out. -/
def shiftLeft (d : BitVec w) (inBit v : Bool) : BitVec w × Flags :=
  let r := (d <<< 1) ||| lowBit w inBit
  (r, { n := top r, z := r == 0, v := v, c := top d })

/-- A shift to the right that takes a bit in: the result and the flags, C the bit shifted out. -/
def shiftRight (d : BitVec w) (inBit : Bool) : BitVec w × Flags :=
  let r := (d >>> 1) ||| highBit w inBit
  (r, { n := top r, z := r == 0, v := false, c := d.getLsbD 0 })

/-- SHAL (R261): V is set when the sign changes. -/
def aluShal (d : BitVec w) (_ : Flags) : BitVec w × Flags := shiftLeft d false (top d ^^ d.getLsbD (w - 2))

/-- SHAR (R262). -/
def aluShar (d : BitVec w) (_ : Flags) : BitVec w × Flags := shiftRight d (top d)

/-- SHLL (R263). -/
def aluShll (d : BitVec w) (_ : Flags) : BitVec w × Flags := shiftLeft d false false

/-- SHLR (R264). -/
def aluShlr (d : BitVec w) (_ : Flags) : BitVec w × Flags := shiftRight d false

/-- ROTL (R265). -/
def aluRotl (d : BitVec w) (_ : Flags) : BitVec w × Flags := shiftLeft d (top d) false

/-- ROTR (R266). -/
def aluRotr (d : BitVec w) (_ : Flags) : BitVec w × Flags := shiftRight d (d.getLsbD 0)

/-- ROTXL (R267). -/
def aluRotxl (d : BitVec w) (f : Flags) : BitVec w × Flags := shiftLeft d f.c false

/-- ROTXR (R268). -/
def aluRotxr (d : BitVec w) (f : Flags) : BitVec w × Flags := shiftRight d f.c

/-! ### Bits (42_logic_shift_bit.md R270 to R274) -/

/-- The bit test: Z is the complement of the bit, the other flags stay (R270). -/
def bitFlags (d : BitVec w) (i : Nat) (f : Flags) : Flags := { f with z := !d.getLsbD i }

/-- BSET (R271). -/
def aluBset (i : Nat) (d : BitVec w) (f : Flags) : BitVec w × Flags := (putBit d i true, bitFlags d i f)

/-- BCLR (R272). -/
def aluBclr (i : Nat) (d : BitVec w) (f : Flags) : BitVec w × Flags := (putBit d i false, bitFlags d i f)

/-- BNOT (R273). -/
def aluBnot (i : Nat) (d : BitVec w) (f : Flags) : BitVec w × Flags := (putBit d i (!d.getLsbD i), bitFlags d i f)

/-! ### Decimal arithmetic (41_arithmetic.md R209 to R211) -/

/-- Both digits are 0 to 9 (R209). -/
def bcdValid (b : Byte) : Bool := decide (b.toNat / 16 ≤ 9) && decide (b.toNat % 16 ≤ 9)

/-- `bcd(b)` (R209). -/
def bcd (b : Byte) : Nat := 10 * (b.toNat / 16) + b.toNat % 16

/-- `enc(n)` (R209), for n below 100. -/
def bcdEncode (n : Nat) : Byte := BitVec.ofNat 8 (16 * (n / 10) + n % 10)

/-- DADD (R210). -/
def decimalAdd (s d : Byte) (f : Flags) : Byte × Flags :=
  let t := bcd d + bcd s + f.c.toNat
  let r := bcdEncode (t % 100)
  (r, { f with z := f.z && r == 0, c := decide (100 ≤ t) })

/-- DSUB (R211). -/
def decimalSub (s d : Byte) (f : Flags) : Byte × Flags :=
  let t : Int := (bcd d : Int) - bcd s - f.c.toNat
  let r := bcdEncode (t % 100).toNat
  (r, { f with z := f.z && r == 0, c := decide (t < 0) })

/-! ### Conditions (43_branch.md R291) -/

/-- `Cond(cc)` (R291). -/
def Flags.holds (f : Flags) : Cond → Bool
  | .bra => true
  | .brn => false
  | .bhi => !(f.c || f.z)
  | .bls => f.c || f.z
  | .bcc => !f.c
  | .bcs => f.c
  | .bne => !f.z
  | .beq => f.z
  | .bvc => !f.v
  | .bvs => f.v
  | .bpl => !f.n
  | .bmi => f.n
  | .bge => !(f.n ^^ f.v)
  | .blt => f.n ^^ f.v
  | .bgt => !(f.z || (f.n ^^ f.v))
  | .ble => f.z || (f.n ^^ f.v)

end Sys2Proof.Machine
end

