-- ==== Sys2Proof/Machine/Ops.lean ====
section
/-! DEFINITION. The shared operations: registers, the stack, control registers, taking an exception and returning from one
(spec/10_state.md, 20_memory.md R80 to R93, 44_system_control.md R330, R333, 60_exceptions.md R380 to R387). -/

namespace Sys2Proof.Machine

/-! ### General registers (10_state.md R20 to R23) -/

/-- `x[i]` of a register file. -/
def Regs.get (g : Regs) : Reg → Word
  | .r0 => g.r0
  | .r1 => g.r1
  | .r2 => g.r2
  | .r3 => g.r3
  | .r4 => g.r4
  | .r5 => g.r5
  | .r6 => g.r6
  | .r7 => g.r7

/-- `x[i] <- v` in a register file. -/
def Regs.set (g : Regs) (r : Reg) (v : Word) : Regs :=
  match r with
  | .r0 => { g with r0 := v }
  | .r1 => { g with r1 := v }
  | .r2 => { g with r2 := v }
  | .r3 => { g with r3 := v }
  | .r4 => { g with r4 := v }
  | .r5 => { g with r5 := v }
  | .r6 => { g with r6 := v }
  | .r7 => { g with r7 := v }

/-- `x[i]` (R20). -/
def State.reg (s : State) (r : Reg) : Word := s.regs.get r

/-- `x[i] <- v` (R20). -/
def State.setReg (s : State) (r : Reg) (v : Word) : State := { s with regs := s.regs.set r v }

/-- A register's word after a write of the operand size: a byte write keeps bits 15 to 8 (R23). -/
def mergeReg (sz : Size) (old : Word) (v : BitVec sz.bits) : Word :=
  match sz, v with
  | .byte, v => hiByte old ++ v
  | .word, v => v

/-- A register read at the operand size: bits 7 to 0 of it for a byte (R23). -/
def State.readReg (s : State) (sz : Size) (r : Reg) : BitVec sz.bits := (s.reg r).setWidth sz.bits

/-- A register written at the operand size (R23). -/
def State.writeReg (s : State) (sz : Size) (r : Reg) (v : BitVec sz.bits) : State := s.setReg r (mergeReg sz (s.reg r) v)

/-- The register after Rn, the lower half of a pair (R22). -/
def nextReg : Reg → Reg
  | .r0 => .r1
  | .r1 => .r2
  | .r2 => .r3
  | .r3 => .r4
  | .r4 => .r5
  | .r5 => .r6
  | .r6 => .r7
  | .r7 => .r0

/-- An odd register number, which names no pair (R22). -/
def isOddReg : Reg → Bool
  | .r1 | .r3 | .r5 | .r7 => true
  | .r0 | .r2 | .r4 | .r6 => false

/-- `PageOf(r)` (20_memory.md R72): DP, EP or TP. -/
def State.pageOf (s : State) : Reg → Byte
  | .r0 | .r1 | .r2 | .r3 => s.dp
  | .r4 | .r5 => s.ep
  | .r6 | .r7 => s.tp

/-! ### The stack (20_memory.md R80, R93) -/

/-- The physical address of the top of the stack: R7 in page TP (10_state.md R44). -/
def State.stackTop (s : State) : Addr := s.phys s.tp (s.reg .r7)

/-- `push16(v)` (R93). -/
def State.push16 (s : State) (v : Word) : State :=
  let t := s.setReg .r7 (s.reg .r7 - 2)
  t.writeWord t.stackTop v

/-- `pop16()` (R93). -/
def State.pop16 (s : State) : Word × State :=
  let p := s.readWord s.stackTop
  (p.1, p.2.setReg .r7 (p.2.reg .r7 + 2))

/-- A byte pushed as the lower half of a word whose upper half is free (R89, D15): CP, at a page call or an exception. -/
def State.pushByte (s : State) (v : Byte) : State := s.drawByte.2.push16 (s.drawByte.1 ++ v)

/-- CP popped: the lower eight bits of a word (43_branch.md R301). -/
def State.popCp (s : State) : State :=
  let p := s.pop16
  { p.2 with cp := loByte p.1 }

/-- PC popped (43_branch.md R298). -/
def State.popPc (s : State) : State :=
  let p := s.pop16
  { p.2 with pc := p.1 }

/-! ### Control registers (44_system_control.md R330) -/

/-- `ReadCR` (R330); an eight-bit register in the lower half. -/
def State.readCr (s : State) : ControlReg → Word
  | .sr => s.sr
  | .ccr => (loByte s.sr).setWidth 16
  | .br => s.br.setWidth 16
  | .ep => s.ep.setWidth 16
  | .dp => s.dp.setWidth 16
  | .tp => s.tp.setWidth 16

/-- `WriteCR` (R330). -/
def State.writeCr (s : State) (cr : ControlReg) (v : Word) : State :=
  match cr with
  | .sr => s.setSr v
  | .ccr => s.setCcr (loByte v)
  | .br => { s with br := loByte v }
  | .ep => { s with ep := loByte v }
  | .dp => { s with dp := loByte v }
  | .tp => { s with tp := loByte v }

/-- The registers that are not SR or CCR: a logic operation on them sets N, Z and V (R338). -/
def isPageOrBase : ControlReg → Bool
  | .sr | .ccr => false
  | .br | .ep | .dp | .tp => true

/-! ### Exceptions (60_exceptions.md) -/

/-- The exceptions other than reset (R370). -/
inductive Exception where
  | addressError
  | trace
  | nmi
  | interrupt (q : Request)
  | invalidInstruction
  | zeroDivide
  | trapVS
  | trapA (v : BitVec 4)
  deriving DecidableEq, Repr

/-- The index k of the exception's vector (R385, Table 3-2). -/
def Exception.vector : Exception → Nat
  | .invalidInstruction => 2
  | .zeroDivide => 3
  | .trapVS => 4
  | .addressError => 8
  | .trace => 9
  | .nmi => 11
  | .trapA v => 16 + v.toNat
  | .interrupt q => 32 + q.vec.val

/-- The interrupt mask level on entry, where the exception changes it (R382, 10_state.md R32). -/
def Exception.newMask : Exception → Option (BitVec 3)
  | .nmi => some 7
  | .interrupt q => some q.level
  | .addressError | .trace | .invalidInstruction | .zeroDivide | .trapVS | .trapA _ => none

/-- `VectorAddress` (R385): 2k in minimum mode, 4k in maximum mode, in page 0. -/
def State.vectorAddress (s : State) (k : Nat) : Addr :=
  match s.mode with
  | .minimum => BitVec.ofNat 24 (2 * k)
  | .maximum => BitVec.ofNat 24 (4 * k)

/-- PC, and in maximum mode CP, from the vector table (R380, R386; log entry 31). -/
def State.loadVector (s : State) (k : Nat) : State :=
  match s.mode with
  | .minimum => { s with pc := s.wordAt (s.vectorAddress k) }
  | .maximum =>
    { s with cp := loByte (s.wordAt (s.vectorAddress k)), pc := s.wordAt (s.vectorAddress k + 2) }

/-- In maximum mode CP is pushed, in minimum mode it is not (R380). -/
def State.pushCpInMaximum (s : State) : State :=
  match s.mode with
  | .minimum => s
  | .maximum => s.pushByte s.cp

/-- The three pushes of an exception: PC, CP in maximum mode, SR (R380, R383). -/
def State.pushFrame (s : State) (stackedPc : Word) : State :=
  let t := (s.push16 stackedPc).pushCpInMaximum
  t.push16 t.sr

/-- The mask raised where the exception raises it (R382). -/
def State.raiseMask (s : State) : Option (BitVec 3) → State
  | none => s
  | some l => s.setMask l

/-- `Sequence(E)` with the PC it stacks (R380): taking an exception. An odd R7 stops the machine (R384). -/
def State.takeException (s : State) (e : Exception) (stackedPc : Word) : Outcome :=
  if odd (s.reg .r7) then .fault .stackErrorInSequence
  else .next { (((s.pushFrame stackedPc).clearT.raiseMask e.newMask).loadVector e.vector) with cpuState := .executing }

/-- CP popped in maximum mode (44_system_control.md R333). -/
def State.popCpInMaximum (s : State) : State :=
  match s.mode with
  | .minimum => s
  | .maximum => s.popCp

/-- SR popped, its reserved bits discarded (44_system_control.md R333, 10_state.md R30). -/
def State.popSr (s : State) : State :=
  let p := s.pop16
  p.2.setSr p.1

/-- Returning from an exception (44_system_control.md R333). -/
def State.returnFromException (s : State) : State := { s.popSr.popCpInMaximum.popPc with defer := true }

/-- The PC that the invalid instruction exception stacks (60_exceptions.md R381, D9): the address of the first byte of
the code, or the PC when the decoder found it undefined. -/
def State.invalidPc (s : State) (detection : Word) : Word :=
  if Config.invalidStacksDetectionPc then detection else s.insAddr

/-- The invalid instruction exception (R391). -/
def State.takeInvalid (s : State) (detection : Word) : Outcome :=
  s.takeException .invalidInstruction (s.invalidPc detection)

/-- The PC that zero divide stacks (R381, D10). -/
def State.zeroDividePc (s : State) : Word := if Config.zeroDivideStacksOwnAddress then s.insAddr else s.pc

end Sys2Proof.Machine
end

