-- ==== Sys2Proof/Machine/Operands.lean ====
section
/-! DEFINITION. Operands: effective addresses, locations, and the shapes of instruction that read and write them
(spec/20_memory.md R82 to R94). -/

namespace Sys2Proof.Machine

/-- A resolved operand (R93): a register, a memory address with the width of the bus access, or a value. -/
inductive Loc where
  | reg (r : Reg)
  | mem (a : Addr) (acc : Size)
  | imm (v : Word)
  deriving DecidableEq, Repr

/-- `acc(r, sz)` (R88): `@-R7` and `@R7+` access words. -/
def accessSize (r : Reg) (sz : Size) : Size :=
  match r with
  | .r7 => .word
  | .r0 | .r1 | .r2 | .r3 | .r4 | .r5 | .r6 => sz

/-- `step(r, sz)` (R88). -/
def stepSize (r : Reg) (sz : Size) : Word :=
  match accessSize r sz with
  | .byte => 1
  | .word => 2

/-- An eight-bit displacement, sign-extended (R85, R92). -/
def signExtend8 (d : Byte) : Word := d.signExtend 16

/-- The state after the pre-decrement of `@-Rn`, if the EA is one (R86). -/
def State.preDecrement (s : State) (sz : Size) : Ea → State
  | .preDec r => s.setReg r (s.reg r - stepSize r sz)
  | .reg _ | .ind _ | .disp8 _ _ | .disp16 _ _ | .postInc _ | .abs8 _ | .abs16 _ | .imm8 _ | .imm16 _ => s

/-- The location of an EA in the state after its pre-decrement (R83 to R91, R93). -/
def State.locate (s : State) (sz : Size) : Ea → Loc
  | .reg r => .reg r
  | .ind r => .mem (s.phys (s.pageOf r) (s.reg r)) sz
  | .disp8 r d => .mem (s.phys (s.pageOf r) (s.reg r + signExtend8 d)) sz
  | .disp16 r d => .mem (s.phys (s.pageOf r) (s.reg r + d)) sz
  | .preDec r => .mem (s.phys (s.pageOf r) (s.reg r)) (accessSize r sz)
  | .postInc r => .mem (s.phys (s.pageOf r) (s.reg r)) (accessSize r sz)
  | .abs8 a => .mem (s.phys 0 (s.br ++ a)) sz
  | .abs16 a => .mem (s.phys s.dp a) sz
  | .imm8 v => .imm (v.setWidth 16)
  | .imm16 v => .imm v

/-- `Resolve(EA, sz)` (R93): the location, and the state after the pre-decrement. -/
def State.resolve (s : State) (sz : Size) (ea : Ea) : Loc × State :=
  let t := s.preDecrement sz ea
  (t.locate sz ea, t)

/-- `ReadLoc` (R93): a byte operand of a word access is the lower half (R89). -/
def State.readLoc (s : State) (sz : Size) : Loc → BitVec sz.bits × State
  | .reg r => (s.readReg sz r, s)
  | .mem a .byte => ((s.readByte a).setWidth sz.bits, s)
  | .mem a .word => ((s.readWord a).1.setWidth sz.bits, (s.readWord a).2)
  | .imm v => (v.setWidth sz.bits, s)

/-- A word access of a store: of a byte operand the upper half is free (R89, D15). -/
def State.writeWide (s : State) (sz : Size) (a : Addr) (v : BitVec sz.bits) : State :=
  match sz, v with
  | .byte, v => s.drawByte.2.writeWord a (s.drawByte.1 ++ v)
  | .word, v => s.writeWord a v

/-- `WriteLoc` (R93). A destination is never a value (R91): no well-formed instruction writes one. -/
def State.writeLoc (s : State) (sz : Size) (loc : Loc) (v : BitVec sz.bits) : State :=
  match loc with
  | .reg r => s.writeReg sz r v
  | .mem a .byte => s.writeByte a (v.setWidth 8)
  | .mem a .word => s.writeWide sz a v
  | .imm _ => s

/-- `Finish()` (R93): the post-increment of `@Rn+`, if the EA is one (R87). -/
def State.finish (s : State) (sz : Size) : Ea → State
  | .postInc r => s.setReg r (s.reg r + stepSize r sz)
  | .reg _ | .ind _ | .disp8 _ _ | .disp16 _ _ | .preDec _ | .abs8 _ | .abs16 _ | .imm8 _ | .imm16 _ => s

/-- `ReadEA` (R93) without its Finish. -/
def State.readEa (s : State) (sz : Size) (ea : Ea) : BitVec sz.bits × State :=
  let p := s.resolve sz ea
  p.2.readLoc sz p.1

/-- `WriteEA` (R93) with the flags after it and its Finish: a pure store (D33). -/
def State.storeEa (s : State) (sz : Size) (ea : Ea) (v : BitVec sz.bits) (f : Flags) : State :=
  let p := s.resolve sz ea
  ((p.2.writeLoc sz p.1 v).setFlags f).finish sz ea

/-- `AddrEA` (R93) of `@Rn`, `@(d:8,Rn)` and `@(d:16,Rn)`: an offset, no access (43_branch.md R296). -/
def State.offset (s : State) (r : Reg) (d : Word) : Word := s.reg r + d

/-- The EA moves this register by itself: `@-Rn` or `@Rn+` (R94). -/
def movesReg : Ea → Reg → Bool
  | .preDec r, q => decide (r = q)
  | .postInc r, q => decide (r = q)
  | .reg _, _ | .ind _, _ | .disp8 _ _, _ | .disp16 _ _, _ | .abs8 _, _ | .abs16 _, _ | .imm8 _, _ | .imm16 _, _ => false

/-! ### Shapes of instruction -/

/-- `OP <EAs>,Rd` (41_arithmetic.md R200, 42_logic_shift_bit.md R250): the source is read, the register is read, both go
into the operation, the register and the flags are written. -/
def binaryToReg (sz : Size) (ea : Ea) (rd : Reg)
    (op : BitVec sz.bits → BitVec sz.bits → Flags → BitVec sz.bits × Flags) (s : State) : Outcome :=
  if movesReg ea rd then .refused .eaSideEffectOnOperandRegister
  else
    let p := s.readEa sz ea
    let q := op p.1 (p.2.readReg sz rd) p.2.flags
    .next (((p.2.writeReg sz rd q.1).setFlags q.2).finish sz ea)

/-- A compare with a register (R221): the result is discarded. -/
def compareReg (sz : Size) (ea : Ea) (rd : Reg)
    (op : BitVec sz.bits → BitVec sz.bits → Flags → BitVec sz.bits × Flags) (s : State) : Outcome :=
  if movesReg ea rd then .refused .eaSideEffectOnOperandRegister
  else
    let p := s.readEa sz ea
    .next ((p.2.setFlags (op p.1 (p.2.readReg sz rd) p.2.flags).2).finish sz ea)

/-- ADDS and SUBS (41_arithmetic.md R206): the source extended to a word, the whole register written, no flag. -/
def extendedToReg (sz : Size) (ea : Ea) (rd : Reg) (op : Word → Word → Word) (s : State) : Outcome :=
  if movesReg ea rd then .refused .eaSideEffectOnOperandRegister
  else
    let p := s.readEa sz ea
    .next ((p.2.setReg rd (op (p.2.reg rd) (p.1.signExtend 16))).finish sz ea)

/-- A read-modify-write of one operand (20_memory.md R93, 42_logic_shift_bit.md R260). -/
def modifyEa (sz : Size) (ea : Ea) (op : BitVec sz.bits → Flags → BitVec sz.bits × Flags) (s : State) : State :=
  let l := s.resolve sz ea
  let p := l.2.readLoc sz l.1
  let q := op p.1 p.2.flags
  ((p.2.writeLoc sz l.1 q.1).setFlags q.2).finish sz ea

/-- An operand read for its flags only (41_arithmetic.md R222, R227, 42_logic_shift_bit.md R274). -/
def testEa (sz : Size) (ea : Ea) (op : BitVec sz.bits → Flags → Flags) (s : State) : State :=
  let p := s.readEa sz ea
  (p.2.setFlags (op p.1 p.2.flags)).finish sz ea

/-- The bit number of a register, which may lie beyond a byte operand (42_logic_shift_bit.md R270). -/
def State.bitNumber (s : State) (rs : Reg) : Nat := ((s.reg rs).extractLsb' 0 4).toNat

/-- The guard of the bit instructions (R270, D24). -/
def withBit (sz : Size) (i : Nat) (t : State) : Outcome :=
  if sz.bits ≤ i then .refused .bitNumberExceedsOperandSize else .next t

/-- The guards of the bit instructions with the bit number in a register (R94, R270). -/
def withRegBit (sz : Size) (rs : Reg) (ea : Ea) (i : Nat) (t : State) : Outcome :=
  if movesReg ea rs then .refused .eaSideEffectOnOperandRegister else withBit sz i t

/-- `RelTarget` (43_branch.md R290), with PC already past the instruction. -/
def State.branch (s : State) (d : Word) : State := { s with pc := s.pc + d }

/-- A value moved into a register, with the flags of MOV (40_data_transfer.md R170). -/
def State.moveToReg (s : State) (sz : Size) (rd : Reg) (v : BitVec sz.bits) : State :=
  (s.writeReg sz rd v).setFlags (movFlags v s.flags)

end Sys2Proof.Machine
end

