-- ==== Sys2Proof/Machine/Arithmetic.lean ====
section
/-! DEFINITION. The arithmetic instructions (spec/41_arithmetic.md). -/

namespace Sys2Proof.Machine

/-! ### Addition, subtraction, comparison -/

/-- `ADD:G <EAs>,Rd` (R201). -/
def execAddG (sz : Size) (ea : Ea) (rd : Reg) (s : State) : Outcome := binaryToReg sz ea rd aluAdd s

/-- `ADD:Q #1,<EAd>` (R202). -/
def execAddQ1 (sz : Size) (ea : Ea) (s : State) : Outcome := .next (modifyEa sz ea (quick 1) s)

/-- `ADD:Q #2,<EAd>` (R202). -/
def execAddQ2 (sz : Size) (ea : Ea) (s : State) : Outcome := .next (modifyEa sz ea (quick 2) s)

/-- `ADD:Q #-1,<EAd>` (R202). -/
def execAddQm1 (sz : Size) (ea : Ea) (s : State) : Outcome := .next (modifyEa sz ea (quick (-1)) s)

/-- `ADD:Q #-2,<EAd>` (R202). -/
def execAddQm2 (sz : Size) (ea : Ea) (s : State) : Outcome := .next (modifyEa sz ea (quick (-2)) s)

/-- `SUB <EAs>,Rd` (R203). -/
def execSub (sz : Size) (ea : Ea) (rd : Reg) (s : State) : Outcome := binaryToReg sz ea rd aluSub s

/-- `ADDX <EAs>,Rd` (R204). -/
def execAddx (sz : Size) (ea : Ea) (rd : Reg) (s : State) : Outcome := binaryToReg sz ea rd aluAddx s

/-- `SUBX <EAs>,Rd` (R205). -/
def execSubx (sz : Size) (ea : Ea) (rd : Reg) (s : State) : Outcome := binaryToReg sz ea rd aluSubx s

/-- `ADDS <EAs>,Rd` (R206, R207). -/
def execAdds (sz : Size) (ea : Ea) (rd : Reg) (s : State) : Outcome := extendedToReg sz ea rd (fun d e => d + e) s

/-- `SUBS <EAs>,Rd` (R206, R208). -/
def execSubs (sz : Size) (ea : Ea) (rd : Reg) (s : State) : Outcome := extendedToReg sz ea rd (fun d e => d - e) s

/-- `CMP:G <EAs>,Rd` (R221). -/
def execCmpG (sz : Size) (ea : Ea) (rd : Reg) (s : State) : Outcome := compareReg sz ea rd aluSub s

/-- `CMP:G.B #xx:8,<EAd>` (R222). -/
def execCmpGImm8 (ea : Ea) (imm : Byte) (s : State) : Outcome :=
  .next (testEa .byte ea (fun d f => (aluSub imm d f).2) s)

/-- `CMP:G.W #xx:16,<EAd>` (R222). -/
def execCmpGImm16 (ea : Ea) (imm : Word) (s : State) : Outcome :=
  .next (testEa .word ea (fun d f => (aluSub imm d f).2) s)

/-- `CMP:E #xx:8,Rd` (R223). -/
def execCmpE (imm : Byte) (rd : Reg) (s : State) : Outcome :=
  .next (s.setFlags (aluSub imm (s.readReg .byte rd) s.flags).2)

/-- `CMP:I #xx:16,Rd` (R224). -/
def execCmpI (imm : Word) (rd : Reg) (s : State) : Outcome :=
  .next (s.setFlags (aluSub imm (s.readReg .word rd) s.flags).2)

/-! ### Decimal arithmetic -/

/-- `DADD Rs,Rd` (R210). -/
def execDadd (rs rd : Reg) (s : State) : Outcome :=
  let x := s.readReg .byte rs
  let d := s.readReg .byte rd
  if bcdValid x && bcdValid d then
    .next ((s.writeReg .byte rd (decimalAdd x d s.flags).1).setFlags (decimalAdd x d s.flags).2)
  else .refused .invalidBcdDigit

/-- `DSUB Rs,Rd` (R211). -/
def execDsub (rs rd : Reg) (s : State) : Outcome :=
  let x := s.readReg .byte rs
  let d := s.readReg .byte rd
  if bcdValid x && bcdValid d then
    .next ((s.writeReg .byte rd (decimalSub x d s.flags).1).setFlags (decimalSub x d s.flags).2)
  else .refused .invalidBcdDigit

/-! ### Multiplication and division -/

/-- The 32-bit pair Rd, Rd+1 written (R212, 10_state.md R22). -/
def State.setPair (s : State) (rd : Reg) (hi lo : Word) : State := (s.setReg rd hi).setReg (nextReg rd) lo

/-- The byte form of MULXU (R214): the low byte of Rd by the source, the whole of Rd written. -/
def mulxuByte (ea : Ea) (rd : Reg) (s : State) : Outcome :=
  if movesReg ea rd then .refused .eaSideEffectOnOperandRegister
  else
    let q := s.readEa .byte ea
    let p : Word := (q.2.readReg .byte rd).setWidth 16 * q.1.setWidth 16
    .next (((q.2.setReg rd p).setFlags (testFlags p)).finish .byte ea)

/-- The word form of MULXU (R214): Rd by the source, the pair written. -/
def mulxuWord (ea : Ea) (rd : Reg) (s : State) : Outcome :=
  if isOddReg rd then .refused .oddRegisterPair
  else if movesReg ea rd || movesReg ea (nextReg rd) then .refused .eaSideEffectOnOperandRegister
  else
    let q := s.readEa .word ea
    let p : BitVec 32 := (q.2.reg rd).setWidth 32 * q.1.setWidth 32
    .next (((q.2.setPair rd (p.extractLsb' 16 16) (p.extractLsb' 0 16)).setFlags (testFlags p)).finish .word ea)

/-- `MULXU <EAs>,Rd` (R214). -/
def execMulxu (sz : Size) (ea : Ea) (rd : Reg) (s : State) : Outcome :=
  match sz with
  | .byte => mulxuByte ea rd s
  | .word => mulxuWord ea rd s

/-- What a division answers (R215): it has no quotient, the quotient is too long, or a quotient and a remainder. -/
inductive Quotient (w : Nat) where
  | byZero
  | overflow
  | ok (q r : BitVec w)
  deriving DecidableEq, Repr

/-- `n div d` and `n mod d` at the operand size (R215). -/
def divide (w n d : Nat) : Quotient w :=
  if d = 0 then .byZero
  else if 2 ^ w ≤ n / d then .overflow
  else .ok (BitVec.ofNat w (n / d)) (BitVec.ofNat w (n % d))

/-- The flags after a division by zero (R215). -/
def zeroDivideFlags : Flags := { n := false, z := true, v := false, c := false }

/-- The flags after a division whose quotient is too long (R215). -/
def divideOverflowFlags : Flags := { n := false, z := false, v := true, c := false }

/-- The end of DIVXU (R215): by zero the exception is taken after the post-increment, Rd unwritten (D32); on overflow V
is set and Rd unwritten; else quotient and remainder are written. -/
def finishDivide (sz : Size) (ea : Ea) (q : Quotient w) (write : BitVec w → BitVec w → State → State) (s : State) :
    Outcome :=
  match q with
  | .byZero =>
    let t := (s.setFlags zeroDivideFlags).finish sz ea
    t.takeException .zeroDivide t.zeroDividePc
  | .overflow => .next ((s.setFlags divideOverflowFlags).finish sz ea)
  | .ok q r => .next (((write q r s).setFlags (testFlags q)).finish sz ea)

/-- The byte form of DIVXU (R215): Rd by the source; the remainder into its upper byte, the quotient into its lower. -/
def divxuByte (ea : Ea) (rd : Reg) (s : State) : Outcome :=
  if movesReg ea rd then .refused .eaSideEffectOnOperandRegister
  else
    let p := s.readEa .byte ea
    finishDivide .byte ea (divide 8 (p.2.reg rd).toNat p.1.toNat) (fun q r t => t.setReg rd (r ++ q)) p.2

/-- The word form of DIVXU (R215): the pair by the source; the remainder into Rd, the quotient into Rd+1. -/
def divxuWord (ea : Ea) (rd : Reg) (s : State) : Outcome :=
  if isOddReg rd then .refused .oddRegisterPair
  else if movesReg ea rd || movesReg ea (nextReg rd) then .refused .eaSideEffectOnOperandRegister
  else
    let p := s.readEa .word ea
    finishDivide .word ea (divide 16 ((p.2.reg rd).toNat * 65536 + (p.2.reg (nextReg rd)).toNat) p.1.toNat)
      (fun q r t => t.setPair rd r q) p.2

/-- `DIVXU <EAs>,Rd` (R215). -/
def execDivxu (sz : Size) (ea : Ea) (rd : Reg) (s : State) : Outcome :=
  match sz with
  | .byte => divxuByte ea rd s
  | .word => divxuWord ea rd s

/-! ### Extension, test, negation, clearing -/

/-- `EXTS Rd` (R225). -/
def execExts (rd : Reg) (s : State) : Outcome :=
  let r := signExtend8 (loByte (s.reg rd))
  .next ((s.setReg rd r).setFlags (testFlags r))

/-- `EXTU Rd` (R226): N is always cleared. -/
def execExtu (rd : Reg) (s : State) : Outcome :=
  let r : Word := (loByte (s.reg rd)).setWidth 16
  .next ((s.setReg rd r).setFlags { n := false, z := r == 0, v := false, c := false })

/-- `TST <EAd>` (R227). -/
def execTst (sz : Size) (ea : Ea) (s : State) : Outcome := .next (testEa sz ea (fun d _ => testFlags d) s)

/-- `NEG <EAd>` (R228). -/
def execNeg (sz : Size) (ea : Ea) (s : State) : Outcome := .next (modifyEa sz ea aluNeg s)

/-- `CLR <EAd>` (R229). -/
def execClr (sz : Size) (ea : Ea) (s : State) : Outcome := .next (s.storeEa sz ea 0 clearFlags)

/-- `TAS <EAd>` (R231). -/
def execTas (ea : Ea) (s : State) : Outcome := .next (modifyEa .byte ea aluTas s)

end Sys2Proof.Machine
end

