-- ==== Sys2Proof/Machine/Branch.lean ====
section
/-! DEFINITION. The branch instructions (spec/43_branch.md). PC is already past the instruction (10_state.md R26). -/

namespace Sys2Proof.Machine

/-! ### PC-relative branches -/

/-- `Bcc d:8` (R292). -/
def execBcc8 (cc : Cond) (d : Byte) (s : State) : Outcome :=
  .next (if s.flags.holds cc then s.branch (signExtend8 d) else s)

/-- `Bcc d:16` (R292). -/
def execBcc16 (cc : Cond) (d : Word) (s : State) : Outcome :=
  .next (if s.flags.holds cc then s.branch d else s)

/-- `BSR d:8` (R293). -/
def execBsr8 (d : Byte) (s : State) : Outcome := .next ((s.push16 s.pc).branch (signExtend8 d))

/-- `BSR d:16` (R293). -/
def execBsr16 (d : Word) (s : State) : Outcome := .next ((s.push16 s.pc).branch d)

/-- The counting half of SCB (R294): the counter falls by one, and the branch is taken unless it became -1. -/
def State.countAndBranch (s : State) (r : Reg) (d : Byte) : State :=
  let t := s.setReg r (s.reg r - 1)
  if t.reg r = 0xFFFF then t else t.branch (signExtend8 d)

/-- `SCB/F Rn,disp` (R294). -/
def execScbF (r : Reg) (d : Byte) (s : State) : Outcome := .next (s.countAndBranch r d)

/-- `SCB/NE Rn,disp` (R294): left when Z is 0. -/
def execScbNE (r : Reg) (d : Byte) (s : State) : Outcome := .next (if s.flags.z then s.countAndBranch r d else s)

/-- `SCB/EQ Rn,disp` (R294): left when Z is 1. -/
def execScbEQ (r : Reg) (d : Byte) (s : State) : Outcome := .next (if s.flags.z then s else s.countAndBranch r d)

/-! ### Jumps and calls within the page -/

/-- A jump (R296). -/
def State.jump (s : State) (target : Word) : State := { s with pc := target }

/-- A call (R297): the target is known before the push. -/
def State.call (s : State) (target : Word) : State := (s.push16 s.pc).jump target

/-- `JMP @aa:16` (R296). -/
def execJmpAbs (a : Word) (s : State) : Outcome := .next (s.jump a)

/-- `JMP @Rn` (R296). -/
def execJmpInd (r : Reg) (s : State) : Outcome := .next (s.jump (s.reg r))

/-- `JMP @(d:8,Rn)` (R296). -/
def execJmpDisp8 (r : Reg) (d : Byte) (s : State) : Outcome := .next (s.jump (s.offset r (signExtend8 d)))

/-- `JMP @(d:16,Rn)` (R296). -/
def execJmpDisp16 (r : Reg) (d : Word) (s : State) : Outcome := .next (s.jump (s.offset r d))

/-- `JSR @aa:16` (R297). -/
def execJsrAbs (a : Word) (s : State) : Outcome := .next (s.call a)

/-- `JSR @Rn` (R297). -/
def execJsrInd (r : Reg) (s : State) : Outcome := .next (s.call (s.reg r))

/-- `JSR @(d:8,Rn)` (R297). -/
def execJsrDisp8 (r : Reg) (d : Byte) (s : State) : Outcome := .next (s.call (s.offset r (signExtend8 d)))

/-- `JSR @(d:16,Rn)` (R297). -/
def execJsrDisp16 (r : Reg) (d : Word) (s : State) : Outcome := .next (s.call (s.offset r d))

/-- R7 moved by an immediate (R299). -/
def State.adjustSp (s : State) (d : Word) : State := s.setReg .r7 (s.reg .r7 + d)

/-- `RTS` (R298). -/
def execRts (s : State) : Outcome := .next s.popPc

/-- `RTD #xx:8` (R299). -/
def execRtd8 (d : Byte) (s : State) : Outcome := .next (s.popPc.adjustSp (signExtend8 d))

/-- `RTD #xx:16` (R299). -/
def execRtd16 (d : Word) (s : State) : Outcome := .next (s.popPc.adjustSp d)

/-! ### Page-crossing branches -/

/-- In minimum mode the code is invalid (R301, 30_encoding.md R144); the decoder finds it undefined at `detection`. -/
def inMaximum (detection : Word) (s : State) (t : Outcome) : Outcome :=
  match s.mode with
  | .minimum => s.takeInvalid detection
  | .maximum => t

/-- A page jump (R302). -/
def State.pageJump (s : State) (page : Byte) (target : Word) : State := { s with cp := page, pc := target }

/-- A page call (R303): PC is pushed first, then CP; the target is known before the pushes. -/
def State.pageCall (s : State) (page : Byte) (target : Word) : State :=
  let t := s.push16 s.pc
  (t.pushByte t.cp).pageJump page target

/-- A register pair as a target (R302, R303), refused for an odd register number. -/
def withPair (r : Reg) (t : Outcome) : Outcome := if isOddReg r then .refused .oddRegisterPair else t

/-- `PJMP @aa:24` (R302). -/
def execPjmpAbs (page : Byte) (a : Word) (s : State) : Outcome :=
  inMaximum (s.insAddr + 1) s (.next (s.pageJump page a))

/-- `PJMP @Rn` (R302). -/
def execPjmpReg (r : Reg) (s : State) : Outcome :=
  inMaximum (s.insAddr + 2) s (withPair r (.next (s.pageJump (loByte (s.reg r)) (s.reg (nextReg r)))))

/-- `PJSR @aa:24` (R303). -/
def execPjsrAbs (page : Byte) (a : Word) (s : State) : Outcome :=
  inMaximum (s.insAddr + 1) s (.next (s.pageCall page a))

/-- `PJSR @Rn` (R303). -/
def execPjsrReg (r : Reg) (s : State) : Outcome :=
  inMaximum (s.insAddr + 2) s (withPair r (.next (s.pageCall (loByte (s.reg r)) (s.reg (nextReg r)))))

/-- `PRTS` (R304). -/
def execPrts (s : State) : Outcome := inMaximum (s.insAddr + 2) s (.next s.popCp.popPc)

/-- `PRTD #xx:8` (R305). -/
def execPrtd8 (d : Byte) (s : State) : Outcome :=
  inMaximum (s.insAddr + 2) s (.next (s.popCp.popPc.adjustSp (signExtend8 d)))

/-- `PRTD #xx:16` (R305). -/
def execPrtd16 (d : Word) (s : State) : Outcome := inMaximum (s.insAddr + 2) s (.next (s.popCp.popPc.adjustSp d))

end Sys2Proof.Machine
end

