-- ==== Sys2Proof/Machine/DataTransfer.lean ====
section
/-! DEFINITION. The data transfer instructions (spec/40_data_transfer.md). -/

namespace Sys2Proof.Machine

/-- `MOV:G.B #xx:8,<EAd>` (R173). -/
def execMovGImm8 (ea : Ea) (imm : Byte) (s : State) : Outcome :=
  .next (s.storeEa .byte ea imm (movFlags imm s.flags))

/-- `MOV:G.W #xx:16,<EAd>` (R173). -/
def execMovGImm16 (ea : Ea) (imm : Word) (s : State) : Outcome :=
  .next (s.storeEa .word ea imm (movFlags imm s.flags))

/-- `MOV:G <EAs>,Rd` (R171). -/
def execMovGLoad (sz : Size) (ea : Ea) (rd : Reg) (s : State) : Outcome :=
  if movesReg ea rd then .refused .eaSideEffectOnOperandRegister
  else
    let p := s.readEa sz ea
    .next ((p.2.moveToReg sz rd p.1).finish sz ea)

/-- `MOV:G Rs,<EAd>` (R172). -/
def execMovGStore (sz : Size) (rs : Reg) (ea : Ea) (s : State) : Outcome :=
  if movesReg ea rs then .refused .eaSideEffectOnOperandRegister
  else .next (s.storeEa sz ea (s.readReg sz rs) (movFlags (s.readReg sz rs) s.flags))

/-- `MOV:E #xx:8,Rd` (R174). -/
def execMovE (imm : Byte) (rd : Reg) (s : State) : Outcome := .next (s.moveToReg .byte rd imm)

/-- `MOV:I #xx:16,Rd` (R175). -/
def execMovI (imm : Word) (rd : Reg) (s : State) : Outcome := .next (s.moveToReg .word rd imm)

/-- `MOV:L @aa:8,Rd` (R178). -/
def execMovL (sz : Size) (a : Byte) (rd : Reg) (s : State) : Outcome :=
  let p := s.readLoc sz (.mem (s.phys 0 (s.br ++ a)) sz)
  .next (p.2.moveToReg sz rd p.1)

/-- `MOV:S Rs,@aa:8` (R179). -/
def execMovS (sz : Size) (rs : Reg) (a : Byte) (s : State) : Outcome :=
  let t := s.writeLoc sz (.mem (s.phys 0 (s.br ++ a)) sz) (s.readReg sz rs)
  .next (t.setFlags (movFlags (s.readReg sz rs) s.flags))

/-- The address of `@(d:8,R6)` (R176): page TP. -/
def State.frameAddress (s : State) (d : Byte) : Addr := s.phys s.tp (s.reg .r6 + signExtend8 d)

/-- `MOV:F @(d:8,R6),Rd` (R176). -/
def execMovFLoad (sz : Size) (d : Byte) (rd : Reg) (s : State) : Outcome :=
  let p := s.readLoc sz (.mem (s.frameAddress d) sz)
  .next (p.2.moveToReg sz rd p.1)

/-- `MOV:F Rs,@(d:8,R6)` (R177). -/
def execMovFStore (sz : Size) (rs : Reg) (d : Byte) (s : State) : Outcome :=
  let t := s.writeLoc sz (.mem (s.frameAddress d) sz) (s.readReg sz rs)
  .next (t.setFlags (movFlags (s.readReg sz rs) s.flags))

/-- The registers of a register list in rising order (30_encoding.md R129): bit i names Ri. -/
def listedRegs (list : Byte) : List Reg :=
  [Reg.r0, .r1, .r2, .r3, .r4, .r5, .r6, .r7].filter fun r => list.getLsbD r.toBits.toNat

/-- One word of LDM (R180): R7's own word is read and not loaded. -/
def State.popTo (s : State) (r : Reg) : State :=
  let p := s.pop16
  match r with
  | .r7 => p.2
  | .r0 | .r1 | .r2 | .r3 | .r4 | .r5 | .r6 => p.2.setReg r p.1

/-- One word of STM (R181): R7 is stored as decremented. -/
def State.pushReg (s : State) (r : Reg) : State :=
  let t := s.setReg .r7 (s.reg .r7 - 2)
  t.writeWord t.stackTop (t.reg r)

/-- `LDM @SP+,<register list>` (R180): the lowest register first. -/
def execLdm (list : Byte) (s : State) : Outcome := .next ((listedRegs list).foldl State.popTo s)

/-- `STM <register list>,@-SP` (R181): the highest register first. -/
def execStm (list : Byte) (s : State) : Outcome := .next ((listedRegs list).reverse.foldl State.pushReg s)

/-- `XCH Rs,Rd` (R182). -/
def execXch (rs rd : Reg) (s : State) : Outcome := .next ((s.setReg rs (s.reg rd)).setReg rd (s.reg rs))

/-- The halves of a word exchanged (R183). -/
def swapBytes (v : Word) : Word := loByte v ++ hiByte v

/-- The flags of SWAP (R183): N and Z of the result at the open width `SWAP_NZ_WIDTH` (D14; log entry 11). -/
def swapFlags (r : Word) (f : Flags) : Flags :=
  if Config.swapFlagsFromByte then movFlags (loByte r) f else movFlags r f

/-- `SWAP Rd` (R183). -/
def execSwap (rd : Reg) (s : State) : Outcome :=
  .next ((s.setReg rd (swapBytes (s.reg rd))).setFlags (swapFlags (swapBytes (s.reg rd)) s.flags))

/-- The chip has an E clock (00_scope.md R10). -/
def hasEClock : Chip → Bool
  | .h8520 => false
  | .h8510 | .h8532 | .h8534 | .h8536 | .h8570 => true

/-- `MOVTPE Rs,<EAd>` (R190): a byte store that leaves the flags alone. -/
def execMovtpe (rs : Reg) (ea : Ea) (s : State) : Outcome :=
  if hasEClock s.chip then
    if movesReg ea rs then .refused .eaSideEffectOnOperandRegister
    else .next (s.storeEa .byte ea (s.readReg .byte rs) s.flags)
  else .refused .noEClock

/-- `MOVFPE <EAs>,Rd` (R191): a byte load that leaves the flags alone. -/
def execMovfpe (ea : Ea) (rd : Reg) (s : State) : Outcome :=
  if hasEClock s.chip then
    if movesReg ea rd then .refused .eaSideEffectOnOperandRegister
    else
      let p := s.readEa .byte ea
      .next ((p.2.writeReg .byte rd p.1).finish .byte ea)
  else .refused .noEClock

end Sys2Proof.Machine
end

