-- ==== Sys2Proof/Machine/Invalid.lean ====
section
/-! DEFINITION. The codes Table 2-10 lists as invalid: each takes the invalid instruction exception
(spec/30_encoding.md R140 to R143, 60_exceptions.md R391). PC is past the bytes that showed it (R381). -/

namespace Sys2Proof.Machine

/-- An undefined operation code after the EA field `Rn` (R141, R143). -/
def execEaRn (_ : Size) (_ : Reg) (_ : UndefOp) (s : State) : Outcome := s.takeInvalid s.pc

/-- An undefined operation code after the EA field `@-Rn`: Rn does not move (60_exceptions.md R374). -/
def execEaPreDec (_ : Size) (_ : Reg) (_ : UndefOp) (s : State) : Outcome := s.takeInvalid s.pc

/-- An undefined operation code after the EA field `@Rn+`: Rn does not move (60_exceptions.md R374). -/
def execEaPostInc (_ : Size) (_ : Reg) (_ : UndefOp) (s : State) : Outcome := s.takeInvalid s.pc

/-- An undefined operation code after the EA field `@Rn`. -/
def execEaInd (_ : Size) (_ : Reg) (_ : UndefOp) (s : State) : Outcome := s.takeInvalid s.pc

/-- An undefined operation code after the EA field `@(d:8,Rn)`. -/
def execEaDisp8 (_ : Size) (_ : Reg) (_ : Byte) (_ : UndefOp) (s : State) : Outcome := s.takeInvalid s.pc

/-- An undefined operation code after the EA field `@(d:16,Rn)`. -/
def execEaDisp16 (_ : Size) (_ : Reg) (_ : Word) (_ : UndefOp) (s : State) : Outcome := s.takeInvalid s.pc

/-- An undefined operation code after the EA field `@aa:8`. -/
def execEaAbs8 (_ : Size) (_ : Byte) (_ : UndefOp) (s : State) : Outcome := s.takeInvalid s.pc

/-- An undefined operation code after the EA field `@aa:16`. -/
def execEaAbs16 (_ : Size) (_ : Word) (_ : UndefOp) (s : State) : Outcome := s.takeInvalid s.pc

/-- An undefined operation code after the EA field `#xx:8`. -/
def execEaImm8 (_ : Byte) (_ : UndefOp) (s : State) : Outcome := s.takeInvalid s.pc

/-- An undefined operation code after the EA field `#xx:16`. -/
def execEaImm16 (_ : Word) (_ : UndefOp) (s : State) : Outcome := s.takeInvalid s.pc

/-- First byte H'0B (R141). -/
def execInvalid0B (s : State) : Outcome := s.takeInvalid s.pc

/-- First byte H'16 (R141). -/
def execInvalid16 (s : State) : Outcome := s.takeInvalid s.pc

/-- First byte H'1B (R141). -/
def execInvalid1B (s : State) : Outcome := s.takeInvalid s.pc

/-- An undefined second byte after H'01, H'06, H'07 or H'11 (R142). -/
def execInvalidSecond (_ : SecondGroup) (_ : Byte) (s : State) : Outcome := s.takeInvalid s.pc

end Sys2Proof.Machine
end

