-- ==== Sys2Proof/Machine/LogicShiftBit.lean ====
section
/-! DEFINITION. The logic, shift and bit-manipulation instructions (spec/42_logic_shift_bit.md). -/

namespace Sys2Proof.Machine

/-! ### Logic -/

/-- `AND <EAs>,Rd` (R251). -/
def execAndG (sz : Size) (ea : Ea) (rd : Reg) (s : State) : Outcome := binaryToReg sz ea rd aluAnd s

/-- `OR <EAs>,Rd` (R252). -/
def execOrG (sz : Size) (ea : Ea) (rd : Reg) (s : State) : Outcome := binaryToReg sz ea rd aluOr s

/-- `XOR <EAs>,Rd` (R253). -/
def execXorG (sz : Size) (ea : Ea) (rd : Reg) (s : State) : Outcome := binaryToReg sz ea rd aluXor s

/-- `NOT <EAd>` (R254). -/
def execNotG (sz : Size) (ea : Ea) (s : State) : Outcome := .next (modifyEa sz ea aluNot s)

/-! ### Shifts and rotates -/

/-- `SHAL <EAd>` (R261). -/
def execShal (sz : Size) (ea : Ea) (s : State) : Outcome := .next (modifyEa sz ea aluShal s)

/-- `SHAR <EAd>` (R262). -/
def execShar (sz : Size) (ea : Ea) (s : State) : Outcome := .next (modifyEa sz ea aluShar s)

/-- `SHLL <EAd>` (R263). -/
def execShll (sz : Size) (ea : Ea) (s : State) : Outcome := .next (modifyEa sz ea aluShll s)

/-- `SHLR <EAd>` (R264). -/
def execShlr (sz : Size) (ea : Ea) (s : State) : Outcome := .next (modifyEa sz ea aluShlr s)

/-- `ROTL <EAd>` (R265). -/
def execRotl (sz : Size) (ea : Ea) (s : State) : Outcome := .next (modifyEa sz ea aluRotl s)

/-- `ROTR <EAd>` (R266). -/
def execRotr (sz : Size) (ea : Ea) (s : State) : Outcome := .next (modifyEa sz ea aluRotr s)

/-- `ROTXL <EAd>` (R267). -/
def execRotxl (sz : Size) (ea : Ea) (s : State) : Outcome := .next (modifyEa sz ea aluRotxl s)

/-- `ROTXR <EAd>` (R268). -/
def execRotxr (sz : Size) (ea : Ea) (s : State) : Outcome := .next (modifyEa sz ea aluRotxr s)

/-! ### Bit manipulation -/

/-- `BSET Rs,<EAd>` (R271). -/
def execBsetR (sz : Size) (rs : Reg) (ea : Ea) (s : State) : Outcome :=
  withRegBit sz rs ea (s.bitNumber rs) (modifyEa sz ea (aluBset (s.bitNumber rs)) s)

/-- `BCLR Rs,<EAd>` (R272). -/
def execBclrR (sz : Size) (rs : Reg) (ea : Ea) (s : State) : Outcome :=
  withRegBit sz rs ea (s.bitNumber rs) (modifyEa sz ea (aluBclr (s.bitNumber rs)) s)

/-- `BNOT Rs,<EAd>` (R273). -/
def execBnotR (sz : Size) (rs : Reg) (ea : Ea) (s : State) : Outcome :=
  withRegBit sz rs ea (s.bitNumber rs) (modifyEa sz ea (aluBnot (s.bitNumber rs)) s)

/-- `BTST Rs,<EAd>` (R274). -/
def execBtstR (sz : Size) (rs : Reg) (ea : Ea) (s : State) : Outcome :=
  withRegBit sz rs ea (s.bitNumber rs) (testEa sz ea (fun d f => bitFlags d (s.bitNumber rs) f) s)

/-- `BSET #xx,<EAd>` (R271). -/
def execBsetI (sz : Size) (n : BitVec 4) (ea : Ea) (s : State) : Outcome :=
  withBit sz n.toNat (modifyEa sz ea (aluBset n.toNat) s)

/-- `BCLR #xx,<EAd>` (R272). -/
def execBclrI (sz : Size) (n : BitVec 4) (ea : Ea) (s : State) : Outcome :=
  withBit sz n.toNat (modifyEa sz ea (aluBclr n.toNat) s)

/-- `BNOT #xx,<EAd>` (R273). -/
def execBnotI (sz : Size) (n : BitVec 4) (ea : Ea) (s : State) : Outcome :=
  withBit sz n.toNat (modifyEa sz ea (aluBnot n.toNat) s)

/-- `BTST #xx,<EAd>` (R274). -/
def execBtstI (sz : Size) (n : BitVec 4) (ea : Ea) (s : State) : Outcome :=
  withBit sz n.toNat (testEa sz ea (fun d f => bitFlags d n.toNat f) s)

end Sys2Proof.Machine
end

