-- ==== Sys2Proof/Machine/SystemControl.lean ====
section
/-! DEFINITION. The system control instructions (spec/44_system_control.md). -/

namespace Sys2Proof.Machine

/-! ### Control registers -/

/-- Trace and interrupts are held off at the end of this instruction (10_state.md R50). -/
def State.deferred (s : State) : State := { s with defer := true }

/-- `LDC <EAs>,CR` (R336): the source is read with the registers as they were. -/
def execLdc (ea : Ea) (cr : ControlReg) (s : State) : Outcome :=
  let p := s.readEa cr.size ea
  .next ((p.2.writeCr cr (p.1.setWidth 16)).finish cr.size ea).deferred

/-- `STC CR,<EAd>` (R337). -/
def execStc (cr : ControlReg) (ea : Ea) (s : State) : Outcome :=
  .next (s.storeEa cr.size ea ((s.readCr cr).setWidth cr.size.bits) s.flags)

/-- The flags of a logic operation on a control register (R338): on SR and CCR they are the result's low bits, which the
write has put there; on the others N, Z, V are set from the eight-bit result. -/
def controlFlags (cr : ControlReg) (r : Word) (s : State) : State :=
  if isPageOrBase cr then s.setFlags (movFlags (loByte r) s.flags) else s

/-- ANDC, ORC and XORC (R338). -/
def State.controlLogic (s : State) (cr : ControlReg) (r : Word) : State := (controlFlags cr r (s.writeCr cr r)).deferred

/-- `ANDC #xx,CR` (R339). -/
def execAndc (imm : Word) (cr : ControlReg) (s : State) : Outcome := .next (s.controlLogic cr (s.readCr cr &&& imm))

/-- `ORC #xx,CR` (R340). -/
def execOrc (imm : Word) (cr : ControlReg) (s : State) : Outcome := .next (s.controlLogic cr (s.readCr cr ||| imm))

/-- `XORC #xx,CR` (R341). -/
def execXorc (imm : Word) (cr : ControlReg) (s : State) : Outcome := .next (s.controlLogic cr (s.readCr cr ^^^ imm))

/-! ### Traps, return, sleep -/

/-- `TRAPA #xx` (R331). -/
def execTrapa (v : BitVec 4) (s : State) : Outcome := s.takeException (.trapA v) s.pc

/-- `TRAP/VS` (R332). -/
def execTrapVS (s : State) : Outcome := if s.flags.v then s.takeException .trapVS s.pc else .next s

/-- `RTE` (R333). -/
def execRte (s : State) : Outcome := .next s.returnFromException

/-- `SLEEP` (R334). SSBY stays set through software standby (DESIGN CHOICE, log entry 29). -/
def execSleep (s : State) : Outcome :=
  .next { s with cpuState := if s.ssby then .softwareStandby else .sleep }

/-! ### NOP, LINK, UNLK -/

/-- `NOP` (R342): only PC moves, and it already has. -/
def execNop (s : State) : Outcome := .next s

/-- LINK (R343). -/
def State.link (s : State) (d : Word) : State :=
  let t := s.push16 (s.reg .r6)
  let u := t.setReg .r6 (t.reg .r7)
  u.setReg .r7 (u.reg .r7 + d)

/-- `LINK FP,#xx:8` (R343). -/
def execLink8 (d : Byte) (s : State) : Outcome := .next (s.link (signExtend8 d))

/-- `LINK FP,#xx:16` (R343). -/
def execLink16 (d : Word) (s : State) : Outcome := .next (s.link d)

/-- `UNLK FP` (R344). -/
def execUnlk (s : State) : Outcome :=
  let p := (s.setReg .r7 (s.reg .r6)).pop16
  .next (p.2.setReg .r6 p.1)

end Sys2Proof.Machine
end

