-- ==== Sys2Proof/Machine/Dispatch.lean ====
section
/-! DEFINITION. The meaning of every instruction: one arm for each constructor of Instr. -/

namespace Sys2Proof.Machine

/-- Execute (spec/60_exceptions.md R375), with PC already past the instruction. -/
def exec (i : Instr) (s : State) : Host.Outcome State Fault Refusal :=
  match i with
  | .eaRn sz r t => Sys2Proof.Machine.execEaRn sz r t s
  | .eaPreDec sz r t => Sys2Proof.Machine.execEaPreDec sz r t s
  | .eaPostInc sz r t => Sys2Proof.Machine.execEaPostInc sz r t s
  | .eaInd sz r t => Sys2Proof.Machine.execEaInd sz r t s
  | .eaDisp8 sz r d t => Sys2Proof.Machine.execEaDisp8 sz r d t s
  | .eaDisp16 sz r d t => Sys2Proof.Machine.execEaDisp16 sz r d t s
  | .eaAbs8 sz a t => Sys2Proof.Machine.execEaAbs8 sz a t s
  | .eaAbs16 sz a t => Sys2Proof.Machine.execEaAbs16 sz a t s
  | .eaImm8 v t => Sys2Proof.Machine.execEaImm8 v t s
  | .eaImm16 v t => Sys2Proof.Machine.execEaImm16 v t s
  | .cmpGImm8 ea imm => Sys2Proof.Machine.execCmpGImm8 ea imm s
  | .cmpGImm16 ea imm => Sys2Proof.Machine.execCmpGImm16 ea imm s
  | .movGImm8 ea imm => Sys2Proof.Machine.execMovGImm8 ea imm s
  | .movGImm16 ea imm => Sys2Proof.Machine.execMovGImm16 ea imm s
  | .addQ1 sz ea => Sys2Proof.Machine.execAddQ1 sz ea s
  | .addQ2 sz ea => Sys2Proof.Machine.execAddQ2 sz ea s
  | .addQm1 sz ea => Sys2Proof.Machine.execAddQm1 sz ea s
  | .addQm2 sz ea => Sys2Proof.Machine.execAddQm2 sz ea s
  | .swap rd => Sys2Proof.Machine.execSwap rd s
  | .exts rd => Sys2Proof.Machine.execExts rd s
  | .extu rd => Sys2Proof.Machine.execExtu rd s
  | .clr sz ea => Sys2Proof.Machine.execClr sz ea s
  | .neg sz ea => Sys2Proof.Machine.execNeg sz ea s
  | .notG sz ea => Sys2Proof.Machine.execNotG sz ea s
  | .tst sz ea => Sys2Proof.Machine.execTst sz ea s
  | .tas ea => Sys2Proof.Machine.execTas ea s
  | .shal sz ea => Sys2Proof.Machine.execShal sz ea s
  | .shar sz ea => Sys2Proof.Machine.execShar sz ea s
  | .shll sz ea => Sys2Proof.Machine.execShll sz ea s
  | .shlr sz ea => Sys2Proof.Machine.execShlr sz ea s
  | .rotl sz ea => Sys2Proof.Machine.execRotl sz ea s
  | .rotr sz ea => Sys2Proof.Machine.execRotr sz ea s
  | .rotxl sz ea => Sys2Proof.Machine.execRotxl sz ea s
  | .rotxr sz ea => Sys2Proof.Machine.execRotxr sz ea s
  | .addG sz ea rd => Sys2Proof.Machine.execAddG sz ea rd s
  | .adds sz ea rd => Sys2Proof.Machine.execAdds sz ea rd s
  | .sub sz ea rd => Sys2Proof.Machine.execSub sz ea rd s
  | .subs sz ea rd => Sys2Proof.Machine.execSubs sz ea rd s
  | .orG sz ea rd => Sys2Proof.Machine.execOrG sz ea rd s
  | .bsetR sz rs ea => Sys2Proof.Machine.execBsetR sz rs ea s
  | .orc imm cr => Sys2Proof.Machine.execOrc imm cr s
  | .andG sz ea rd => Sys2Proof.Machine.execAndG sz ea rd s
  | .bclrR sz rs ea => Sys2Proof.Machine.execBclrR sz rs ea s
  | .andc imm cr => Sys2Proof.Machine.execAndc imm cr s
  | .xorG sz ea rd => Sys2Proof.Machine.execXorG sz ea rd s
  | .bnotR sz rs ea => Sys2Proof.Machine.execBnotR sz rs ea s
  | .xorc imm cr => Sys2Proof.Machine.execXorc imm cr s
  | .cmpG sz ea rd => Sys2Proof.Machine.execCmpG sz ea rd s
  | .btstR sz rs ea => Sys2Proof.Machine.execBtstR sz rs ea s
  | .movGLoad sz ea rd => Sys2Proof.Machine.execMovGLoad sz ea rd s
  | .ldc ea cr => Sys2Proof.Machine.execLdc ea cr s
  | .xch rs rd => Sys2Proof.Machine.execXch rs rd s
  | .movGStore sz rs ea => Sys2Proof.Machine.execMovGStore sz rs ea s
  | .stc cr ea => Sys2Proof.Machine.execStc cr ea s
  | .addx sz ea rd => Sys2Proof.Machine.execAddx sz ea rd s
  | .mulxu sz ea rd => Sys2Proof.Machine.execMulxu sz ea rd s
  | .subx sz ea rd => Sys2Proof.Machine.execSubx sz ea rd s
  | .divxu sz ea rd => Sys2Proof.Machine.execDivxu sz ea rd s
  | .bsetI sz n ea => Sys2Proof.Machine.execBsetI sz n ea s
  | .bclrI sz n ea => Sys2Proof.Machine.execBclrI sz n ea s
  | .bnotI sz n ea => Sys2Proof.Machine.execBnotI sz n ea s
  | .btstI sz n ea => Sys2Proof.Machine.execBtstI sz n ea s
  | .movfpe ea rd => Sys2Proof.Machine.execMovfpe ea rd s
  | .movtpe rs ea => Sys2Proof.Machine.execMovtpe rs ea s
  | .dadd rs rd => Sys2Proof.Machine.execDadd rs rd s
  | .dsub rs rd => Sys2Proof.Machine.execDsub rs rd s
  | .nop => Sys2Proof.Machine.execNop s
  | .scbF r d => Sys2Proof.Machine.execScbF r d s
  | .scbNE r d => Sys2Proof.Machine.execScbNE r d s
  | .scbEQ r d => Sys2Proof.Machine.execScbEQ r d s
  | .ldm list => Sys2Proof.Machine.execLdm list s
  | .stm list => Sys2Proof.Machine.execStm list s
  | .pjsrAbs page a => Sys2Proof.Machine.execPjsrAbs page a s
  | .pjmpAbs page a => Sys2Proof.Machine.execPjmpAbs page a s
  | .trapa v => Sys2Proof.Machine.execTrapa v s
  | .trapVS => Sys2Proof.Machine.execTrapVS s
  | .rte => Sys2Proof.Machine.execRte s
  | .bsr8 d => Sys2Proof.Machine.execBsr8 d s
  | .bsr16 d => Sys2Proof.Machine.execBsr16 d s
  | .unlk => Sys2Proof.Machine.execUnlk s
  | .jmpAbs a => Sys2Proof.Machine.execJmpAbs a s
  | .jsrAbs a => Sys2Proof.Machine.execJsrAbs a s
  | .rtd8 imm => Sys2Proof.Machine.execRtd8 imm s
  | .rtd16 imm => Sys2Proof.Machine.execRtd16 imm s
  | .link8 imm => Sys2Proof.Machine.execLink8 imm s
  | .link16 imm => Sys2Proof.Machine.execLink16 imm s
  | .rts => Sys2Proof.Machine.execRts s
  | .sleep => Sys2Proof.Machine.execSleep s
  | .prtd8 imm => Sys2Proof.Machine.execPrtd8 imm s
  | .prtd16 imm => Sys2Proof.Machine.execPrtd16 imm s
  | .prts => Sys2Proof.Machine.execPrts s
  | .pjmpReg r => Sys2Proof.Machine.execPjmpReg r s
  | .pjsrReg r => Sys2Proof.Machine.execPjsrReg r s
  | .jmpInd r => Sys2Proof.Machine.execJmpInd r s
  | .jsrInd r => Sys2Proof.Machine.execJsrInd r s
  | .jmpDisp8 r d => Sys2Proof.Machine.execJmpDisp8 r d s
  | .jsrDisp8 r d => Sys2Proof.Machine.execJsrDisp8 r d s
  | .jmpDisp16 r d => Sys2Proof.Machine.execJmpDisp16 r d s
  | .jsrDisp16 r d => Sys2Proof.Machine.execJsrDisp16 r d s
  | .bcc8 cc d => Sys2Proof.Machine.execBcc8 cc d s
  | .bcc16 cc d => Sys2Proof.Machine.execBcc16 cc d s
  | .cmpE imm rd => Sys2Proof.Machine.execCmpE imm rd s
  | .cmpI imm rd => Sys2Proof.Machine.execCmpI imm rd s
  | .movE imm rd => Sys2Proof.Machine.execMovE imm rd s
  | .movI imm rd => Sys2Proof.Machine.execMovI imm rd s
  | .movL sz a rd => Sys2Proof.Machine.execMovL sz a rd s
  | .movS sz rs a => Sys2Proof.Machine.execMovS sz rs a s
  | .movFLoad sz d rd => Sys2Proof.Machine.execMovFLoad sz d rd s
  | .movFStore sz rs d => Sys2Proof.Machine.execMovFStore sz rs d s
  | .invalid0B => Sys2Proof.Machine.execInvalid0B s
  | .invalid16 => Sys2Proof.Machine.execInvalid16 s
  | .invalid1B => Sys2Proof.Machine.execInvalid1B s
  | .invalidSecond g b2 => Sys2Proof.Machine.execInvalidSecond g b2 s

end Sys2Proof.Machine
end

