-- ==== Sys2Proof/Machine/Cycle.lean ====
section
/-! DEFINITION. One step of the CPU: fetch, the end-of-instruction check, interrupts, and the CPU operating states
(spec/60_exceptions.md R375, R376, R392, R400 to R407). -/

namespace Sys2Proof.Machine

/-! ### Fetch (20_memory.md R81) -/

/-- Where a byte of the program lies: an offset in page CP (20_memory.md R72). -/
def State.codeAddress (s : State) (off : Word) : Addr := s.phys s.cp off

/-- The six bytes from an offset on, as many as the longest instruction has (R81; 30_encoding.md R120). -/
def State.codeBytes (s : State) (off : Word) : List Byte :=
  [s.readByte (s.codeAddress off), s.readByte (s.codeAddress (off + 1)), s.readByte (s.codeAddress (off + 2)),
   s.readByte (s.codeAddress (off + 3)), s.readByte (s.codeAddress (off + 4)), s.readByte (s.codeAddress (off + 5))]

/-- What is decoded at an offset. -/
def State.decodeAt (s : State) (off : Word) : Decoded := decode (s.codeBytes off)

/-- Bytes placed in the program from an offset on. -/
def State.placeCode (s : State) (off : Word) : List Byte → State
  | [] => s
  | b :: bs => { s with mem := s.mem.writeAt (s.codeAddress off).toNat b }.placeCode (off + 1) bs

/-- The start of an instruction (R375): the flags of the last one are dropped, its address is kept, and PC moves past
it (10_state.md R26). -/
def State.begin (s : State) (len : Nat) : State :=
  { s with defer := false, aerr := false, stores := [], insAddr := s.pc, pc := s.pc + BitVec.ofNat 16 len }

/-- The addresses of `n` bytes of the program from an offset on. -/
def State.codeAddresses (s : State) (off : Word) : Nat → List Addr
  | 0 => []
  | n + 1 => s.codeAddress off :: s.codeAddresses (off + 1) n

/-- The bytes of the instruction that follows sequentially (20_memory.md R104), by what memory holds at the start. A
page-crossing code that is invalid in minimum mode counts with the length it has in maximum mode, which the spec leaves
open (DESIGN CHOICE, log entry 7). -/
def State.nextInstruction (s : State) (len : Nat) : List Addr :=
  let off := s.pc + BitVec.ofNat 16 len
  s.codeAddresses off (s.decodeAt off).len

/-- A store of the instruction went into the bytes of the next sequential one (20_memory.md R104). A misaligned store
notes none (R79; DESIGN CHOICE, log entry 7). -/
def State.storedIntoNext (s : State) (len : Nat) (t : State) : Bool :=
  (s.nextInstruction len).any fun a => t.stores.contains a

/-! ### Interrupts (R392) -/

/-- What follows an outcome that is a next state. -/
def andThen (o : Outcome) (k : State → Outcome) : Outcome :=
  match o with
  | .next s => k s
  | .fault f => .fault f
  | .refused r => .refused r

/-- Of two requests the one of the higher level, the first of equals (R371; log entry 17). -/
def higher (best : Option Request) (q : Request) : Option Request :=
  match best with
  | none => some q
  | some b => if b.level.toNat < q.level.toNat then some q else some b

/-- A request above the mask (R392). -/
def State.acceptable (s : State) (q : Request) : Bool := decide (s.intMask.toNat < q.level.toNat)

/-- The request the platform presents: of the acceptable ones the highest (R392). -/
def State.presented (s : State) : Option Request := (s.pending.filter s.acceptable).foldl higher none

/-- The loop of InterruptCheck (R392): NMI first, then the presented request; an accepted request is withdrawn. No request
arrives between two sequences of one check: the environment acts between steps (both DESIGN CHOICE, log entry 17). The
first argument bounds the rounds. -/
def serveInterrupts : Nat → State → Outcome
  | 0, s => .next s
  | n + 1, s =>
    if s.nmiRequest then
      andThen ({ s with nmiRequest := false }.takeException .nmi s.pc) (serveInterrupts n)
    else
      match s.presented with
      | none => .next s
      | some q =>
        andThen ({ s with pending := s.pending.erase q }.takeException (.interrupt q) s.pc) (serveInterrupts n)

/-- InterruptCheck (R392): every round but the last withdraws a request, so this bound is never met. -/
def State.interruptCheck (s : State) : Outcome := serveInterrupts (s.pending.length + 2) s

/-! ### The end of an instruction (R376) -/

/-- The address error exception, if one was detected (R376, R388). -/
def State.checkAddressError (s : State) : Outcome :=
  if s.aerr then
    { s with aerr := false }.takeException .addressError (Config.addressErrorStackedPc s.insAddr s.pc)
  else .next s

/-- The trace exception, if it was requested (R376, R390). -/
def State.checkTrace (s : State) (t : Bool) : Outcome := if t then s.takeException .trace s.pc else .next s

/-- The interrupts, where they are sampled (R376). -/
def State.checkInterrupts (s : State) (sampled : Bool) : Outcome := if sampled then s.interruptCheck else .next s

/-- The stores of an instruction are forgotten at its end. -/
def State.settle (s : State) : State := { s with stores := [] }

/-- EndOfInstruction (R376): address error, trace, interrupts, in this order; trace is sampled first. -/
def State.endOfInstruction (s : State) : Outcome :=
  let t := s.flagT && !s.defer
  andThen s.checkAddressError fun s1 =>
    andThen (s1.checkTrace t) fun s2 =>
      andThen (s2.checkInterrupts (s.aerr || t || !s.defer)) fun s3 => .next s3.settle

/-- An instruction is executed and its end checked (R375); a store into the next instruction is refused
(20_memory.md R104). A misaligned store is never refused here: its address error is taken (60_exceptions.md R388). -/
def State.runInstruction (s : State) (i : Instr) (len : Nat) : Outcome :=
  andThen (exec i (s.begin len)) fun t =>
    if s.storedIntoNext len t then .refused .storeIntoNextInstruction else t.endOfInstruction

/-- Fetch, decode and run (R375). -/
def State.executeStep (s : State) : Outcome :=
  match s.decodeAt s.pc with
  | .instr i len => s.runInstruction i len
  | .rejected e _ => .refused (.undefinedEncoding e)

/-! ### The CPU operating states (R400 to R407) -/

/-- The chip has a BREQ pin (00_scope.md R10). -/
def hasBreq : Chip → Bool
  | .h8520 => false
  | .h8510 | .h8532 | .h8534 | .h8536 | .h8570 => true

/-- NMI wakes the chip from software standby (00_scope.md R10, R404). -/
def nmiWakes : Chip → Bool
  | .h8570 => false
  | .h8510 | .h8520 | .h8532 | .h8534 | .h8536 => true

/-- The registers as a reset leaves them before the vector is loaded (70_reset_and_hazards.md R420; log entry 32). -/
def State.clearForReset (s : State) : State :=
  { s with
    regs := Regs.zero, sr := 0x0700, cp := 0, dp := 0, ep := 0, tp := 0, br := 0
    mode := s.modePins, cpuState := .executing
    ssby := false, defer := false, aerr := false, nmiRequest := false, insAddr := 0, stores := [] }

/-- ResetExit (R400): the mode is latched, the registers are initialised, CP and PC come from the reset vector (R386). -/
def State.resetExit (s : State) : State := s.clearForReset.loadVector 0

/-- The pins that act in every state (R407): RES Low gives the reset state, STBY Low hardware standby (log entry 33). -/
def State.underPins (s : State) (t : Outcome) : Outcome :=
  if s.resLow then .next { s with cpuState := .reset }
  else if s.stbyLow then .next { s with cpuState := .hardwareStandby }
  else t

/-- A step in the program execution state (R375, R401): BREQ releases the bus between instructions (R406, log 21). -/
def State.stepExecuting (s : State) : Outcome :=
  s.underPins (if s.breqLow && hasBreq s.chip then .next { s with cpuState := .busReleased } else s.executeStep)

/-- A step in the reset state (R400). -/
def State.stepReset (s : State) : Outcome := s.underPins (.next s.resetExit)

/-- A step in the bus-released state (R406). -/
def State.stepBusReleased (s : State) : Outcome :=
  s.underPins (.next (if s.breqLow then s else { s with cpuState := .executing }))

/-- What wakes the CPU from sleep: NMI or a request above the mask (R403). -/
def State.wakes (s : State) : Bool := s.nmiRequest || s.presented.isSome

/-- StepSleep (R403). -/
def State.stepSleep (s : State) : Outcome :=
  s.underPins
    (if s.wakes then andThen { s with cpuState := .executing }.interruptCheck fun t => .next t.settle else .next s)

/-- StepSoftwareStandby (R404). SSBY stays as it is when the mode is left by NMI, though the supporting modules are reset
(R424; DESIGN CHOICE, log entry 29). -/
def State.stepSoftwareStandby (s : State) : Outcome :=
  s.underPins
    (if s.nmiRequest && nmiWakes s.chip then
      andThen ({ s with cpuState := .executing, nmiRequest := false }.takeException .nmi s.pc) fun t =>
        andThen t.interruptCheck fun u => .next u.settle
    else .next s)

/-- A step in hardware standby (R405): STBY High with RES Low leads to the reset state. -/
def State.stepHardwareStandby (s : State) : Outcome :=
  if !s.stbyLow && s.resLow then .next { s with cpuState := .reset } else .next s

/-- A step in the exception-handling state, which a step never leaves the machine in (R402; log entry 39). -/
def State.stepExceptionHandling (s : State) : Outcome := s.underPins (.next { s with cpuState := .executing })

/-- One step of the machine in whatever state it is. -/
def State.cycle (s : State) : Outcome :=
  match s.cpuState with
  | .executing => s.stepExecuting
  | .reset => s.stepReset
  | .exceptionHandling => s.stepExceptionHandling
  | .busReleased => s.stepBusReleased
  | .sleep => s.stepSleep
  | .softwareStandby => s.stepSoftwareStandby
  | .hardwareStandby => s.stepHardwareStandby

/-! ### What the environment does between steps (00_scope.md R19) -/

/-- The NMI pin requests (R392). In the reset state no interrupt is taken notice of (R400). -/
def State.raiseNmi (s : State) : State := { s with nmiRequest := true }

/-- The platform's controller presents a maskable request (R392). -/
def State.raiseInterrupt (s : State) (q : Request) : State := { s with pending := s.pending ++ [q] }

/-- The level of RES (R400). -/
def State.setRes (s : State) (low : Bool) : State := { s with resLow := low }

/-- The level of STBY (R405). -/
def State.setStby (s : State) (low : Bool) : State := { s with stbyLow := low }

/-- The level of BREQ (R406). -/
def State.setBreq (s : State) (low : Bool) : State := { s with breqLow := low }

/-- The mode pins (70_reset_and_hazards.md R421). -/
def State.setModePins (s : State) (m : Mode) : State := { s with modePins := m }

/-- SSBY as the platform's SBYCR is written (70_reset_and_hazards.md R420). -/
def State.setSsby (s : State) (b : Bool) : State := { s with ssby := b }

end Sys2Proof.Machine
end

