-- ==== Sys2Proof/Machine/Step.lean ====
section
/-! DEFINITION. The step of the machine, and the placing of an instruction where the next step fetches it. -/

namespace Sys2Proof.Machine

/-- One step (spec/60_exceptions.md R375, R400 to R407). -/
def step (s : State) : Host.Outcome State Fault Refusal := s.cycle

/-- The state with the instruction of a table word stored where the next step fetches, in page CP at PC, with zeros after
it; nothing else changes (log entries 34 and 35). -/
def State.withFetchWord (s : State) (nbits w : Nat) : State := s.placeCode s.pc (tableBytes nbits w)

end Sys2Proof.Machine
end

