-- ==== Sys2Proof/Safety.lean ====
section
/-! DEFINITION. The terms in which statements about the machine are made: what an operand is and where it lies, what an
instruction leaves as it was, and the invariant of every step. -/

namespace Sys2Proof

/-! ### Kinds of instruction -/

/-- The page-crossing branches (20_memory.md R73), invalid in minimum mode. -/
def Instr.crossesPages : Instr → Bool
  | .pjmpAbs _ _ | .pjmpReg _ | .pjsrAbs _ _ | .pjsrReg _ | .prts | .prtd8 _ | .prtd16 _ => true
  | _ => false

/-- The instructions that can take an exception of their own in either mode (60_exceptions.md R370): the traps, DIVXU and
the invalid codes. -/
def Instr.raises : Instr → Bool
  | .trapa _ | .trapVS | .divxu _ _ _ => true
  | .eaRn _ _ _ | .eaPreDec _ _ _ | .eaPostInc _ _ _ | .eaInd _ _ _ | .eaDisp8 _ _ _ _ | .eaDisp16 _ _ _ _ => true
  | .eaAbs8 _ _ _ | .eaAbs16 _ _ _ | .eaImm8 _ _ | .eaImm16 _ _ => true
  | .invalid0B | .invalid16 | .invalid1B | .invalidSecond _ _ => true
  | _ => false

/-- The control register that LDC, ANDC, ORC and XORC write (44_system_control.md R330). -/
def Instr.writesControl : Instr → Option ControlReg
  | .ldc _ cr | .andc _ cr | .orc _ cr | .xorc _ cr => some cr
  | _ => none

end Sys2Proof

namespace Sys2Proof.Machine

/-! ### Operands -/

/-- The location asks for no word access at an odd address (spec/20_memory.md R79). -/
def Loc.aligned : Loc → Bool
  | .mem a .word => !odd a
  | .mem _ .byte | .reg _ | .imm _ => true

/-- The bytes of memory a store to the location writes: the width of the access, from its address on (20_memory.md R78). -/
def Loc.bytes : Loc → List Addr
  | .mem a .byte => [a]
  | .mem a .word => [a, a + 1]
  | .reg _ | .imm _ => []

/-- The location of an EA (20_memory.md R93), by the function the meanings use. -/
def State.place (s : State) (sz : Size) (ea : Ea) : Loc := (s.resolve sz ea).1

/-- What lies at a location whose access is aligned: a byte operand of a word access is its lower half (R89). -/
def State.peek (s : State) (sz : Size) : Loc → BitVec sz.bits
  | .reg r => s.readReg sz r
  | .mem a .byte => (s.readByte a).setWidth sz.bits
  | .mem a .word => (s.wordAt a).setWidth sz.bits
  | .imm v => v.setWidth sz.bits

/-- A register after the pre-decrement or post-increment of an EA (R86, R87), and as it was under every other EA. -/
def State.afterEa (s : State) (sz : Size) (ea : Ea) (r : Reg) : Word :=
  match ea with
  | .preDec q => if q = r then s.reg r - stepSize r sz else s.reg r
  | .postInc q => if q = r then s.reg r + stepSize r sz else s.reg r
  | .reg _ | .ind _ | .disp8 _ _ | .disp16 _ _ | .abs8 _ | .abs16 _ | .imm8 _ | .imm16 _ => s.reg r

/-! ### What stays -/

/-- The control registers and the CPU's other state are as before: all of State but the general registers, SR, PC,
memory, and the model's own draws and stores. -/
structure SameControl (s t : State) : Prop where
  cp : t.cp = s.cp
  dp : t.dp = s.dp
  ep : t.ep = s.ep
  tp : t.tp = s.tp
  br : t.br = s.br
  mode : t.mode = s.mode
  cpuState : t.cpuState = s.cpuState
  ssby : t.ssby = s.ssby
  defer : t.defer = s.defer
  aerr : t.aerr = s.aerr
  nmiRequest : t.nmiRequest = s.nmiRequest
  pending : t.pending = s.pending
  resLow : t.resLow = s.resLow
  stbyLow : t.stbyLow = s.stbyLow
  breqLow : t.breqLow = s.breqLow
  modePins : t.modePins = s.modePins
  chip : t.chip = s.chip
  insAddr : t.insAddr = s.insAddr

/-- Memory reads as before at every address but these. -/
def SameMemoryBut (s t : State) (bytes : List Addr) : Prop := ∀ a, a ∉ bytes → t.readByte a = s.readByte a

/-- Every register but these reads as before. -/
def SameRegsBut (s t : State) (rs : List Reg) : Prop := ∀ r, r ∉ rs → t.reg r = s.reg r

/-- SR holds these condition codes, and its other bits are as before. -/
def FlagsBecome (s t : State) (f : Flags) : Prop :=
  t.flags = f ∧ ∀ i, 4 ≤ i → t.sr.getLsbD i = s.sr.getLsbD i

/-- The whole effect of an instruction that leaves PC at the next one: every register's value, the condition codes, and
the only bytes of memory that may have changed. All else stays. -/
structure Effect (s t : State) (regs : Reg → Word) (f : Flags) (bytes : List Addr) : Prop where
  regs : ∀ r, t.reg r = regs r
  flags : FlagsBecome s t f
  pc : t.pc = s.pc
  memory : SameMemoryBut s t bytes
  control : SameControl s t

/-- The registers after an instruction that writes one of them: `rd` has a value, and the EA moves its own register. -/
def State.afterWrite (s : State) (sz : Size) (ea : Ea) (rd : Reg) (w : Word) (r : Reg) : Word :=
  if r = rd then w else s.afterEa sz ea r

/-- The registers after an instruction that writes a register pair. -/
def State.afterPair (s : State) (sz : Size) (ea : Ea) (rd : Reg) (hi lo : Word) (r : Reg) : Word :=
  if r = rd then hi else if r = nextReg rd then lo else s.afterEa sz ea r

/-- The registers after a store to an EA: a register destination takes the value at the operand size. -/
def State.afterStore (s : State) (sz : Size) (ea : Ea) (v : BitVec sz.bits) (r : Reg) : Word :=
  match ea with
  | .reg q => if r = q then mergeReg sz (s.reg q) v else s.reg r
  | .ind _ | .disp8 _ _ | .disp16 _ _ | .preDec _ | .postInc _ | .abs8 _ | .abs16 _ | .imm8 _ | .imm16 _ =>
    s.afterEa sz ea r

/-- The effect of an instruction that puts a value into the operand an EA names: a register, or the bytes at the address
that `State.place` computes. -/
structure Stored (s t : State) (sz : Size) (ea : Ea) (v : BitVec sz.bits) (f : Flags) : Prop where
  value : t.peek sz (s.place sz ea) = v
  effect : Effect s t (s.afterStore sz ea v) f (s.place sz ea).bytes

/-! ### Shapes of instruction -/

/-- Every instruction of the form `OP <EAs>,Rd` completes (20_memory.md R93, 41_arithmetic.md R200): Rd takes the result of
the operation on the source, its own value and the condition codes, at the operand size, and the condition codes are the
operation's. -/
def Combines (i : Size → Ea → Reg → Instr)
    (op : (sz : Size) → BitVec sz.bits → BitVec sz.bits → Flags → BitVec sz.bits × Flags) : Prop :=
  ∀ (sz : Size) (ea : Ea) (rd : Reg) (s : State), movesReg ea rd = false → (s.place sz ea).aligned = true →
    ∃ t, exec (i sz ea rd) s = .next t ∧
      let r := op sz (s.peek sz (s.place sz ea)) (s.readReg sz rd) s.flags
      Effect s t (s.afterWrite sz ea rd (mergeReg sz (s.reg rd) r.1)) r.2 []

/-- Every instruction that reads one operand, changes it and writes it back completes (20_memory.md R93): the operand takes
the result of the operation on its value and the condition codes, and the condition codes are the operation's. -/
def Modifies (i : Size → Ea → Instr) (op : (sz : Size) → BitVec sz.bits → Flags → BitVec sz.bits × Flags) : Prop :=
  ∀ (sz : Size) (ea : Ea) (s : State), ea.isPlace = true → s.mem.wf = true → (s.place sz ea).aligned = true →
    ∃ t, exec (i sz ea) s = .next t ∧
      let r := op sz (s.peek sz (s.place sz ea)) s.flags
      Stored s t sz ea r.1 r.2

/-- The state after an instruction that moved a value into a register (40_data_transfer.md R170). -/
def MovesIn (i : Instr) (s : State) (sz : Size) (ea : Ea) (rd : Reg) : Prop :=
  ∃ t, exec i s = .next t ∧
    let v := s.peek sz (s.place sz ea)
    Effect s t (s.afterWrite sz ea rd (mergeReg sz (s.reg rd) v)) (movFlags v s.flags) []

/-- The state after an instruction that stored a value (40_data_transfer.md R170). -/
def StoresValue (i : Instr) (s : State) (sz : Size) (ea : Ea) (v : BitVec sz.bits) (f : Flags) : Prop :=
  ∃ t, exec i s = .next t ∧ Stored s t sz ea v f

/-- The instruction completes and only sets the condition codes; the EA's own register moves. -/
def Tests (i : Instr) (s : State) (sz : Size) (ea : Ea) (f : Flags) : Prop :=
  ∃ t, exec i s = .next t ∧ Effect s t (s.afterEa sz ea) f []

/-! ### The stack -/

/-- The address of the k-th word pushed from here on (20_memory.md R93): the first lies 2 below R7, in page TP. -/
def State.pushSlot (s : State) (k : Nat) : Addr := s.phys s.tp (s.reg .r7 - BitVec.ofNat 16 (2 * k))

/-- The bytes of the first n words pushed from here on. -/
def State.pushBytes (s : State) (n : Nat) : List Addr :=
  (List.range n).flatMap fun k => [s.pushSlot (k + 1), s.pushSlot (k + 1) + 1]

/-- The k-th word on the stack, from 0 at the top (20_memory.md R93). -/
def State.stackWord (s : State) (k : Nat) : Word := s.wordAt (s.phys s.tp (s.reg .r7 + BitVec.ofNat 16 (2 * k)))

/-- The registers with R7 at a value. -/
def State.withSp (s : State) (w : Word) (r : Reg) : Word := if r = .r7 then w else s.reg r

/-- The effect of an instruction that works on the stack and goes to an address: the registers, PC, CP and the bytes
stored to; no condition code changes. -/
structure Transferred (s t : State) (regs : Reg → Word) (cp : Byte) (pc : Word) (bytes : List Addr) : Prop where
  regs : ∀ r, t.reg r = regs r
  pc : t.pc = pc
  sr : t.sr = s.sr
  memory : SameMemoryBut s t bytes
  control : SameControl { s with cp := cp } t

/-- A call (43_branch.md R293, R297): PC, past the instruction, is pushed and the target becomes PC. -/
structure Called (s t : State) (target : Word) : Prop where
  transferred : Transferred s t (s.withSp (s.reg .r7 - 2)) s.cp target (s.pushBytes 1)
  saved : t.wordAt (s.pushSlot 1) = s.pc

/-- A page call (43_branch.md R303): PC is pushed, then CP as the low byte of a word. -/
structure PageCalled (s t : State) (page : Byte) (target : Word) : Prop where
  transferred : Transferred s t (s.withSp (s.reg .r7 - 4)) page target (s.pushBytes 2)
  pcSaved : t.wordAt (s.pushSlot 1) = s.pc
  cpSaved : loByte (t.wordAt (s.pushSlot 2)) = s.cp

/-- The registers a register list names (30_encoding.md R129): Ri where bit i of the byte is 1, in rising order. -/
structure RegisterList (list : Byte) (rs : List Reg) : Prop where
  rising : rs.Sublist [.r0, .r1, .r2, .r3, .r4, .r5, .r6, .r7]
  bits : ∀ (i : Nat) (r : Reg), [Reg.r0, .r1, .r2, .r3, .r4, .r5, .r6, .r7][i]? = some r → (r ∈ rs ↔ list.getLsbD i = true)

/-! ### Control registers -/

/-- What a read of each control register gives (44_system_control.md R330): CCR is the low byte of SR. -/
structure ReadsControl (s : State) : Prop where
  sr : s.readCr .sr = s.sr
  ccr : s.readCr .ccr = (loByte s.sr).setWidth 16
  br : s.readCr .br = s.br.setWidth 16
  ep : s.readCr .ep = s.ep.setWidth 16
  dp : s.readCr .dp = s.dp.setWidth 16
  tp : s.readCr .tp = s.tp.setWidth 16

/-- SR after a write to a control register (44_system_control.md R330): the writable bits only. -/
def State.srAfter (s : State) (cr : ControlReg) (v : Word) : Word :=
  match cr with
  | .sr => v &&& 0x870F
  | .ccr => (s.sr &&& 0xFF00) ||| (v &&& 0x000F)
  | .br | .ep | .dp | .tp => s.sr

/-- The state in which a control register other than SR and CCR holds a byte and trace and interrupts are held off. -/
def State.withControl (s : State) (cr : ControlReg) (v : Byte) : State :=
  { s with
    br := if cr = .br then v else s.br
    ep := if cr = .ep then v else s.ep
    dp := if cr = .dp then v else s.dp
    tp := if cr = .tp then v else s.tp
    defer := true }

/-- The effect of an instruction that writes a control register (44_system_control.md R336, R338). -/
structure ControlWritten (s t : State) (cr : ControlReg) (v : Word) (sr : Word) (regs : Reg → Word) : Prop where
  sr : t.sr = sr
  regs : ∀ r, t.reg r = regs r
  pc : t.pc = s.pc
  memory : SameMemoryBut s t []
  control : SameControl (s.withControl cr (loByte v)) t

/-! ### Exceptions -/

/-- How many words an exception pushes (60_exceptions.md R380). -/
def frameWords : Mode → Nat
  | .minimum => 2
  | .maximum => 3

/-- The state after the exception-handling sequence (60_exceptions.md R380 to R383, R385). The vector is what memory holds
after the pushes. -/
structure Entered (s t : State) (e : Exception) (stackedPc : Word) : Prop where
  regs : ∀ r, t.reg r = s.withSp (s.reg .r7 - BitVec.ofNat 16 (2 * frameWords s.mode)) r
  pcSaved : t.wordAt (s.pushSlot 1) = stackedPc
  cpSaved : s.mode = .maximum → loByte (t.wordAt (s.pushSlot 2)) = s.cp
  srSaved : t.wordAt (s.pushSlot (frameWords s.mode)) = s.sr
  flagT : t.flagT = false
  mask : t.intMask = e.newMask.getD s.intMask
  flags : t.flags = s.flags
  reserved : t.sr &&& ~~~srMask = s.sr &&& ~~~srMask
  vectorMinimum : s.mode = .minimum → t.pc = t.wordAt (BitVec.ofNat 24 (2 * e.vector)) ∧ t.cp = s.cp
  vectorMaximum : s.mode = .maximum →
    t.pc = t.wordAt (BitVec.ofNat 24 (4 * e.vector) + 2) ∧ t.cp = loByte (t.wordAt (BitVec.ofNat 24 (4 * e.vector)))
  memory : SameMemoryBut s t (s.pushBytes (frameWords s.mode))
  control : SameControl { s with cp := t.cp, cpuState := .executing } t

/-- The interrupts are looked at in `u` at the end of an instruction that ends in `s` (60_exceptions.md R376): in `s` itself
where nothing else is pending and they are not held off; else after the sequence of the address error, after that of the
trace, or after both, the trace stacking what the address error left. -/
inductive Sampled (s : State) : State → Prop where
  | plain (h : s.aerr = false ∧ s.flagT = false ∧ s.defer = false) : Sampled s s
  | addressError (h : s.aerr = true ∧ (s.flagT = false ∨ s.defer = true)) (u : State)
      (e : Entered { s with aerr := false } u .addressError (Config.addressErrorStackedPc s.insAddr s.pc)) : Sampled s u
  | trace (h : s.aerr = false ∧ s.flagT = true ∧ s.defer = false) (u : State) (e : Entered s u .trace s.pc) : Sampled s u
  | both (h : s.aerr = true ∧ s.flagT = true ∧ s.defer = false) (v u : State)
      (e : Entered { s with aerr := false } v .addressError (Config.addressErrorStackedPc s.insAddr s.pc))
      (f : Entered v u .trace v.pc) : Sampled s u

/-! ### The invariant -/

/-- What holds of the machine between steps: memory has its canonical form (20_memory.md R76), the reserved bits of SR
read as 0 (10_state.md R30), no address error is left over (R51), no store is still noted, and the machine is not inside
an exception-handling sequence (60_exceptions.md R402). -/
structure Inv (s : State) : Prop where
  memory : s.mem.wf = true
  reserved : s.sr &&& ~~~srMask = 0
  noError : s.aerr = false
  noStores : s.stores = []
  settled : s.cpuState ≠ .exceptionHandling

/-- The pins ask for nothing: a step only runs the program (60_exceptions.md R401). The H8/520 has no BREQ pin (R406). -/
structure Quiet (s : State) : Prop where
  executing : s.cpuState = .executing
  resHigh : s.resLow = false
  stbyHigh : s.stbyLow = false
  busKept : s.breqLow = false ∨ s.chip = .h8520

end Sys2Proof.Machine
end

