-- ==== Sys2Proof/Certificates/Slice0/Obligations.lean ====
section
/-! DEFINITION. The statements for the provers. Each docstring names the rules of spec/ it formalises. The statements about
an instruction are about `exec`, which runs with PC already past the instruction (spec/10_state.md R26). -/

section

open Sys2Proof Sys2Proof.Machine

/-! ### Encoding -/

/-- Decoding what the encoder writes gives the instruction back, whatever bytes follow, with every operand at every value
the encoding admits (spec/30_encoding.md R125 to R138). -/
def Obligations.DecodeOfEncode : Prop :=
  ∀ (i : Instr) (rest : List Byte), i.wf = true → decode (encode i ++ rest) = .instr i (encode i).length

/-- What decodes is well-formed, and the encoder writes back the bytes it was decoded from: no two codes share a meaning,
and no bit of a code is dropped (R125 to R138, R145). -/
def Obligations.EncodeOfDecode : Prop :=
  ∀ (bs : List Byte) (i : Instr) (n : Nat), decode bs = .instr i n →
    i.wf = true ∧ n ≤ bs.length ∧ encode i = bs.take n

/-- Words the spec prints decode to the instructions it prints them for (the examples of R171, R173, R174, R201, R215,
R296, R303, R339, R444). -/
def Obligations.PrintedWords : Prop :=
  decode [0xD9, 0x80] = .instr (.movGLoad .word (.ind .r1) .r0) 2 ∧
  decode [0xD2, 0x06, 0x55] = .instr (.movGImm8 (.ind .r2) 0x55) 3 ∧
  decode [0x50, 0x55] = .instr (.movE 0x55 .r0) 2 ∧
  decode [0x0D, 0x11, 0x21] = .instr (.addG .word (.abs8 0x11) .r1) 3 ∧
  decode [0xDB, 0xB8] = .instr (.divxu .word (.ind .r3) .r0) 2 ∧
  decode [0x11, 0xE4, 0x10] = .instr (.jmpDisp8 .r4 0x10) 3 ∧
  decode [0x03, 0x01, 0x00, 0x00] = .instr (.pjsrAbs 0x01 0x0000) 4 ∧
  decode [0x04, 0xFE, 0x59] = .instr (.andc 0x00FE .ccr) 3 ∧
  decode [0x11, 0xD8] = .instr (.jsrInd .r0) 2

/-- The second byte of TRAPA: H'10 to H'1F carries the vector number, any other is refused (R137). -/
def Obligations.TrapaSecondByte : Prop :=
  ∀ (b2 : Byte) (rest : List Byte),
    (b2.toNat / 16 = 1 → decode (0x08 :: b2 :: rest) = .instr (.trapa (low4 b2)) 2) ∧
    (b2.toNat / 16 ≠ 1 → decode (0x08 :: b2 :: rest) = .rejected (.undefinedTrapa b2) 2)

/-- After H'01, H'06, H'07 and H'11 the second bytes H'00 to H'13, H'15 to H'18, H'1A, H'1B, H'1D to H'7F, H'88 to H'8F,
H'98 to H'9F and H'A8 to H'AF are invalid codes (R142), and no other second byte is. -/
def Obligations.InvalidSecondBytes : Prop :=
  ∀ (g : SecondGroup) (b2 : Byte) (rest : List Byte),
    let n := b2.toNat
    (decode (g.firstByte :: b2 :: rest) = .instr (.invalidSecond g b2) 2 ↔
      n ≤ 0x13 ∨ (0x15 ≤ n ∧ n ≤ 0x18) ∨ n = 0x1A ∨ n = 0x1B ∨ (0x1D ≤ n ∧ n ≤ 0x7F) ∨ (0x88 ≤ n ∧ n ≤ 0x8F) ∨
        (0x98 ≤ n ∧ n ≤ 0x9F) ∨ (0xA8 ≤ n ∧ n ≤ 0xAF))

/-! ### The step -/

/-- When the bytes at PC decode to an instruction and no pin asks for anything, the step is exec of that instruction, with
PC past its bytes, its address kept and the flags of the last one dropped, followed by the end-of-instruction check
(60_exceptions.md R375, 10_state.md R26). A store into the bytes of the next sequential instruction, as long as the decoder
has it, is refused first (20_memory.md R104; what counts as such a store is log entry 7, the model's choice). Bytes that are
no instruction and no listed invalid code end the run under the decoder's own name for them (30_encoding.md R146). -/
def Obligations.StepRunsDecoded : Prop :=
  ∀ s : State, Quiet s →
    (∀ (i : Instr) (n : Nat), s.decodeAt s.pc = .instr i n →
      let next : Word := s.pc + BitVec.ofNat 16 n
      s.begin n = { s with defer := false, aerr := false, stores := [], insAddr := s.pc, pc := next } ∧
      step s = andThen (exec i (s.begin n)) (fun t =>
        if s.storedIntoNext n t then .refused .storeIntoNextInstruction else t.endOfInstruction) ∧
      ∀ (m : Nat), ((∃ j, s.decodeAt next = .instr j m) ∨ ∃ e, s.decodeAt next = .rejected e m) →
        ∀ t : State, s.storedIntoNext n t = true ↔ ∃ k, k < m ∧ s.codeAddress (next + BitVec.ofNat 16 k) ∈ t.stores) ∧
    (∀ (e : DecodeError) (n : Nat), s.decodeAt s.pc = .rejected e n → step s = .refused (.undefinedEncoding e))

/-- Where nothing is pending at its end, the step answers the instruction's own next state (R375, R376). -/
def Obligations.StepAnswersTheInstruction : Prop :=
  ∀ (s t : State) (i : Instr) (n : Nat), Quiet s → s.decodeAt s.pc = .instr i n → exec i (s.begin n) = .next t →
    s.storedIntoNext n t = false → t.aerr = false → (t.flagT = false ∨ t.defer = true) → t.nmiRequest = false →
    t.presented = none → step s = .next t.settle

/-- Every step keeps the invariant: memory in canonical form, the reserved bits of SR at 0, no address error left over, no
step that stops inside an exception-handling sequence (20_memory.md R76, 10_state.md R30, R51, 60_exceptions.md R402). -/
def Obligations.StepKeepsInv : Prop :=
  ∀ s t : State, Inv s → step s = .next t → Inv t

/-- The invariant holds right after reset, and so does what the spec fixes of that state (70_reset_and_hazards.md R420,
10_state.md R37): the trace bit is 0, the mask is 7, trace and interrupts are not held off, no NMI is requested, and the CPU
executes. That SSBY is 0, so that SLEEP enters sleep mode (D36, log entry 29), and that no maskable request is pending
(log entry 17) are the model's choices. -/
def Obligations.ResetInv : Prop :=
  Inv State.reset ∧ State.reset.flagT = false ∧ State.reset.intMask = 7 ∧ State.reset.cpuState = .executing ∧
  State.reset.defer = false ∧ State.reset.nmiRequest = false ∧ State.reset.ssby = false ∧ State.reset.pending = []

/-- Leaving the reset state (60_exceptions.md R400, R386; 70_reset_and_hazards.md R421, R422): with RES and STBY High a step
latches the mode, sets SR to H'070x, loads PC, and in maximum mode CP, from the reset vector, and drops a pending NMI. That
CP is the lower byte of the first word of a maximum mode vector and PC its second word is general knowledge (G17, log entry
31). The other registers and the condition codes after it are the model's choice (log entries 4 and 32) and are not stated. -/
def Obligations.ResetExit : Prop :=
  ∀ s : State, s.cpuState = .reset → s.resLow = false → s.stbyLow = false →
    ∃ t, step s = .next t ∧ t.mode = s.modePins ∧ t.cpuState = .executing ∧ t.flagT = false ∧ t.intMask = 7 ∧
      t.sr &&& ~~~srMask = 0 ∧ t.aerr = false ∧ t.defer = false ∧ t.nmiRequest = false ∧ t.mem = s.mem ∧
      (s.modePins = .minimum → t.pc = s.wordAt 0) ∧
      (s.modePins = .maximum → t.cp = loByte (s.wordAt 0) ∧ t.pc = s.wordAt 2)

/-- The pins. RES Low leads to the reset state from every state but hardware standby, and STBY Low, with RES High, to
hardware standby (60_exceptions.md R400, R405, R407); hardware standby is left only by STBY High with RES Low, into the
reset state (R405). The bus is released where BREQ is Low on a chip that has the pin, and taken back when it is High; the
H8/520, which has none, goes on with the program whatever BREQ is (R406). That RES comes first, and that the bus is
released between instructions only, are the model's choices (log entries 33 and 21). -/
def Obligations.Pins : Prop :=
  ∀ s : State,
    (s.cpuState ≠ .hardwareStandby →
      (s.resLow = true → step s = .next { s with cpuState := .reset }) ∧
      (s.resLow = false → s.stbyLow = true → step s = .next { s with cpuState := .hardwareStandby })) ∧
    (s.cpuState = .hardwareStandby →
      (s.stbyLow = false ∧ s.resLow = true → step s = .next { s with cpuState := .reset }) ∧
      (¬(s.stbyLow = false ∧ s.resLow = true) → step s = .next s)) ∧
    (s.resLow = false → s.stbyLow = false →
      (s.cpuState = .executing → s.breqLow = true → s.chip ≠ .h8520 →
        step s = .next { s with cpuState := .busReleased }) ∧
      (s.cpuState = .executing → s.chip = .h8520 → step s = s.executeStep) ∧
      (s.cpuState = .busReleased → s.breqLow = true → step s = .next s) ∧
      (s.cpuState = .busReleased → s.breqLow = false → step s = .next { s with cpuState := .executing }))

/-! ### Exceptions -/

/-- Taking an exception (60_exceptions.md R380, R382, R383, R385): the pushes and what each holds, T cleared, the mask raised
to 7 by NMI and to its level by an interrupt, PC and in maximum mode CP from the vector that Table 3-2 gives the exception,
and nothing else changed. That every other exception leaves the mask (D19, log entry 16), and that CP is the lower byte of
the first word of a maximum mode vector (G17, log entry 31), are the model's choices. -/
def Obligations.TakeException : Prop :=
  (∀ (s : State) (e : Exception) (stackedPc : Word), s.mem.wf = true → odd (s.reg .r7) = false →
    ∃ t, s.takeException e stackedPc = .next t ∧ Entered s t e stackedPc) ∧
  Exception.invalidInstruction.vector = 2 ∧ Exception.zeroDivide.vector = 3 ∧ Exception.trapVS.vector = 4 ∧
  Exception.addressError.vector = 8 ∧ Exception.trace.vector = 9 ∧ Exception.nmi.vector = 11 ∧
  (∀ v : BitVec 4, (Exception.trapA v).vector = 16 + v.toNat ∧ (Exception.trapA v).newMask = none) ∧
  (∀ q : Request, 32 ≤ (Exception.interrupt q).vector ∧ (Exception.interrupt q).vector ≤ 79 ∧
    (Exception.interrupt q).newMask = some q.level) ∧
  Exception.nmi.newMask = some 7 ∧
  ∀ e ∈ [Exception.addressError, .trace, .invalidInstruction, .zeroDivide, .trapVS], e.newMask = none

/-- An exception-handling sequence whose pushes meet an odd R7 is the fault StackErrorInSequence; reset pushes nothing
(R384; D23, log entry 18: the spec's choice, which the model follows). -/
def Obligations.OddStackInSequence : Prop :=
  (∀ (s : State) (e : Exception) (stackedPc : Word), odd (s.reg .r7) = true →
    s.takeException e stackedPc = .fault .stackErrorInSequence) ∧
  ∀ s : State, s.cpuState = .reset → s.resLow = false → s.stbyLow = false →
    ∃ t, step s = .next t ∧ SameMemoryBut s t []

/-- The end of an instruction takes the address error exception where one was detected, the trace exception where T is set
and not held off, which stacks the PC of the next instruction, and both, the address error first, where both are pending; T
is looked at before the sequence of the address error clears it (R376, R388, R390, R381). What the address error stacks is
open (D11), and that the trace follows and stacks what the address error left is the model's choice (D18, log entry 15). -/
def Obligations.AddressErrorAndTraceTaken : Prop :=
  ∀ s : State, s.mem.wf = true → odd (s.reg .r7) = false → s.nmiRequest = false → s.presented = none →
    (s.aerr = true → (s.flagT = false ∨ s.defer = true) →
      ∃ t, s.endOfInstruction = .next t ∧
        Entered { s with aerr := false } t .addressError (Config.addressErrorStackedPc s.insAddr s.pc)) ∧
    (s.aerr = false → s.flagT = true → s.defer = false →
      ∃ t, s.endOfInstruction = .next t ∧ Entered s t .trace s.pc) ∧
    (s.aerr = true → s.flagT = true → s.defer = false →
      ∃ u t, Entered { s with aerr := false } u .addressError (Config.addressErrorStackedPc s.insAddr s.pc) ∧
        s.endOfInstruction = .next t ∧ Entered u t .trace u.pc)

/-- After an instruction that holds them off, and detected no address error, no trace exception, no interrupt and no NMI is
taken (70_reset_and_hazards.md
R431, 60_exceptions.md R393). -/
def Obligations.DeferHoldsOff : Prop :=
  ∀ s : State, s.defer = true → s.aerr = false → s.endOfInstruction = .next s.settle

/-- An NMI request is accepted at every mask level, sets the mask to 7 and is consumed, and no maskable request follows it at
once. The end of an instruction looks for it, where interrupts are not held off, and after the sequence of an address error
or a trace also where they are. A maskable request at or below the mask is not accepted (R376, R392, R393, 10_state.md R31,
R32). What an address error or a trace before it leaves is that of log entry 15. -/
def Obligations.NmiAcceptedMaskedRequestsWait : Prop :=
  ∀ s : State,
    (s.mem.wf = true → odd (s.reg .r7) = false → s.nmiRequest = true →
      (∃ t, s.interruptCheck = .next t ∧ Entered { s with nmiRequest := false } t .nmi s.pc ∧ t.intMask = 7) ∧
      (s.aerr = true ∨ s.defer = false →
        ∃ u t, Sampled s u ∧ s.endOfInstruction = .next t ∧ Entered { u with nmiRequest := false } t .nmi u.pc ∧
          t.intMask = 7)) ∧
    (s.nmiRequest = false → (∀ q ∈ s.pending, q.level.toNat ≤ s.intMask.toNat) →
      s.interruptCheck = .next s ∧ (s.aerr = false → s.flagT = false → s.endOfInstruction = .next s.settle))

/-- The request the check presents lies above the mask and no acceptable one is higher; it is accepted, the mask rises to
its level, and no other follows it at once. The end of an instruction looks for it, where interrupts are not held off, and
after the sequence of an address error or a trace also where they are (R376, R392, R371, 10_state.md R31, R32). That the step
itself withdraws the accepted request, which R392 lets the environment do, is the model's choice (log entry 17). -/
def Obligations.InterruptAccepted : Prop :=
  ∀ (s : State) (q : Request), s.mem.wf = true → odd (s.reg .r7) = false → s.nmiRequest = false →
    s.presented = some q →
    q ∈ s.pending ∧ s.intMask.toNat < q.level.toNat ∧
    (∀ p ∈ s.pending, s.intMask.toNat < p.level.toNat → p.level.toNat ≤ q.level.toNat) ∧
    (∃ t, s.interruptCheck = .next t ∧ Entered { s with pending := s.pending.erase q } t (.interrupt q) s.pc ∧
      t.intMask = q.level) ∧
    (s.aerr = true ∨ s.defer = false →
      ∃ u t, Sampled s u ∧ s.endOfInstruction = .next t ∧
        Entered { u with pending := u.pending.erase q } t (.interrupt q) u.pc ∧ t.intMask = q.level)

/-- Sleep mode (R403): without an acceptable request the machine stays as it is; NMI, or a request above the mask, wakes it
and is taken with the PC that SLEEP left. Software standby (R404): NMI wakes the machine except on the H8/570, and maskable
requests are ignored. That waking withdraws the request (log entry 17), and the PC it stacks (D28, log entry 22), are the
model's choices. -/
def Obligations.SleepAndSoftwareStandby : Prop :=
  ∀ s : State, s.resLow = false → s.stbyLow = false →
    (s.cpuState = .sleep →
      (s.nmiRequest = false → (∀ q ∈ s.pending, q.level.toNat ≤ s.intMask.toNat) → step s = .next s) ∧
      (s.nmiRequest = true → s.mem.wf = true → odd (s.reg .r7) = false →
        ∃ t, step s = .next t ∧ Entered { s with nmiRequest := false } t .nmi s.pc) ∧
      (∀ q, s.nmiRequest = false → s.presented = some q → s.mem.wf = true → odd (s.reg .r7) = false →
        ∃ t, step s = .next t ∧ Entered { s with pending := s.pending.erase q } t (.interrupt q) s.pc)) ∧
    (s.cpuState = .softwareStandby →
      (s.nmiRequest = false ∨ s.chip = .h8570 → step s = .next s) ∧
      (s.nmiRequest = true → s.chip ≠ .h8570 → s.mem.wf = true → odd (s.reg .r7) = false →
        ∃ t, step s = .next t ∧ Entered { s with nmiRequest := false } t .nmi s.pc))

/-! ### Data transfer -/

/-- MOV into a register, in every format, copies the value, sets N and Z from it, clears V and keeps C; a byte move keeps
the upper byte of Rd (40_data_transfer.md R170, R171, R174 to R176, R178, 10_state.md R23). -/
def Obligations.MovToRegister : Prop :=
  (∀ sz ea rd s, movesReg ea rd = false → (s.place sz ea).aligned = true → MovesIn (.movGLoad sz ea rd) s sz ea rd) ∧
  (∀ imm rd s, MovesIn (.movE imm rd) s .byte (.imm8 imm) rd) ∧
  (∀ imm rd s, MovesIn (.movI imm rd) s .word (.imm16 imm) rd) ∧
  (∀ sz a rd s, (s.place sz (.abs8 a)).aligned = true → MovesIn (.movL sz a rd) s sz (.abs8 a) rd) ∧
  (∀ sz d rd s, (s.place sz (.disp8 .r6 d)).aligned = true → MovesIn (.movFLoad sz d rd) s sz (.disp8 .r6 d) rd)

/-- MOV to memory, in every format, stores the value, sets N and Z from it, clears V and keeps C
(40_data_transfer.md R170, R172, R173, R177, R179). -/
def Obligations.MovToMemory : Prop :=
  (∀ sz rs ea s, ea.isMemory = true → s.mem.wf = true → movesReg ea rs = false → (s.place sz ea).aligned = true →
    StoresValue (.movGStore sz rs ea) s sz ea (s.readReg sz rs) (movFlags (s.readReg sz rs) s.flags)) ∧
  (∀ ea imm s, ea.isMemory = true → s.mem.wf = true → (s.place .byte ea).aligned = true →
    StoresValue (.movGImm8 ea imm) s .byte ea imm (movFlags imm s.flags)) ∧
  (∀ ea imm s, ea.isMemory = true → s.mem.wf = true → (s.place .word ea).aligned = true →
    StoresValue (.movGImm16 ea imm) s .word ea imm (movFlags imm s.flags)) ∧
  (∀ sz rs a s, s.mem.wf = true → (s.place sz (.abs8 a)).aligned = true →
    StoresValue (.movS sz rs a) s sz (.abs8 a) (s.readReg sz rs) (movFlags (s.readReg sz rs) s.flags)) ∧
  (∀ sz rs d s, s.mem.wf = true → (s.place sz (.disp8 .r6 d)).aligned = true →
    StoresValue (.movFStore sz rs d) s sz (.disp8 .r6 d) (s.readReg sz rs) (movFlags (s.readReg sz rs) s.flags))

/-- All encodings of one move, compare or quick addition give the same result (R192, 30_encoding.md R153 (b)). -/
def Obligations.ShortFormats : Prop :=
  (∀ imm rd s, exec (.movE imm rd) s = exec (.movGLoad .byte (.imm8 imm) rd) s) ∧
  (∀ imm rd s, exec (.movI imm rd) s = exec (.movGLoad .word (.imm16 imm) rd) s) ∧
  (∀ sz a rd s, exec (.movL sz a rd) s = exec (.movGLoad sz (.abs8 a) rd) s) ∧
  (∀ sz rs a s, exec (.movS sz rs a) s = exec (.movGStore sz rs (.abs8 a)) s) ∧
  (∀ sz d rd s, exec (.movFLoad sz d rd) s = exec (.movGLoad sz (.disp8 .r6 d) rd) s) ∧
  (∀ sz rs d s, exec (.movFStore sz rs d) s = exec (.movGStore sz rs (.disp8 .r6 d)) s) ∧
  (∀ imm rd s, exec (.cmpE imm rd) s = exec (.cmpG .byte (.imm8 imm) rd) s) ∧
  (∀ imm rd s, exec (.cmpI imm rd) s = exec (.cmpG .word (.imm16 imm) rd) s) ∧
  (∀ rd s, exec (.addQ1 .byte (.reg rd)) s = exec (.addG .byte (.imm8 0x01) rd) s) ∧
  (∀ rd s, exec (.addQ2 .byte (.reg rd)) s = exec (.addG .byte (.imm8 0x02) rd) s) ∧
  (∀ rd s, exec (.addQm1 .byte (.reg rd)) s = exec (.addG .byte (.imm8 0xFF) rd) s) ∧
  (∀ rd s, exec (.addQm2 .byte (.reg rd)) s = exec (.addG .byte (.imm8 0xFE) rd) s)

/-- STM (R181): the registers of the list, Ri for bit i (30_encoding.md R129), the highest first, go to the words below R7;
R7 falls by twice their number, and where R7 is listed the word stored for it is its old value less 2. No flag changes. That
an empty list does nothing is the model's choice (D31, log entry 25). -/
def Obligations.StmStores : Prop :=
  ∀ (list : Byte) (s : State), s.mem.wf = true → odd (s.reg .r7) = false →
    RegisterList list (listedRegs list) ∧
    let rs := (listedRegs list).reverse
    ∃ t, exec (.stm list) s = .next t ∧
      Effect s t (s.withSp (s.reg .r7 - BitVec.ofNat 16 (2 * rs.length))) s.flags (s.pushBytes rs.length) ∧
      ∀ (k : Nat) (r : Reg), rs[k]? = some r →
        t.wordAt (s.pushSlot (k + 1)) = if r = .r7 then s.reg .r7 - 2 else s.reg r

/-- LDM (R180): the words from R7 on go to the registers of the list, Ri for bit i (30_encoding.md R129), the lowest first;
R7 rises by twice their number, its own word being read and not loaded. No flag and no memory changes. That an empty list
does nothing is the model's choice (D31, log entry 25). -/
def Obligations.LdmLoads : Prop :=
  ∀ (list : Byte) (s : State), odd (s.reg .r7) = false →
    RegisterList list (listedRegs list) ∧
    let rs := listedRegs list
    ∃ t, exec (.ldm list) s = .next t ∧
      t.reg .r7 = s.reg .r7 + BitVec.ofNat 16 (2 * rs.length) ∧
      (∀ (k : Nat) (r : Reg), rs[k]? = some r → r ≠ .r7 → t.reg r = s.stackWord k) ∧
      (∀ r, r ∉ rs → r ≠ .r7 → t.reg r = s.reg r) ∧
      t.sr = s.sr ∧ t.pc = s.pc ∧ SameMemoryBut s t [] ∧ SameControl s t

/-- LDM with the list of an STM gives every register back as it was before the STM (R180, R181), whichever registers the
list names (30_encoding.md R129). -/
def Obligations.LdmRestoresStm : Prop :=
  ∀ (list : Byte) (s : State), s.mem.wf = true → odd (s.reg .r7) = false →
    RegisterList list (listedRegs list) ∧
    ∃ t u, exec (.stm list) s = .next t ∧ exec (.ldm list) t = .next u ∧ ∀ r, u.reg r = s.reg r

/-- XCH exchanges two registers and changes no flag (R182); SWAP exchanges the halves of one, clears V and keeps C (R183;
N and Z at the open width D14). EXTS and EXTU (41_arithmetic.md R225, R226) make the low byte of Rd, as a signed or an
unsigned number, the whole word; V and C are cleared, and EXTU always clears N. -/
def Obligations.RegisterOnly : Prop :=
  (∀ rs rd s, ∃ t, exec (.xch rs rd) s = .next t ∧
    Effect s t (fun r => if r = rd then s.reg rs else if r = rs then s.reg rd else s.reg r) s.flags []) ∧
  (∀ rd s, ∃ t f, exec (.swap rd) s = .next t ∧
    Effect s t (fun r => if r = rd then loByte (s.reg rd) ++ hiByte (s.reg rd) else s.reg r) f [] ∧
    f.v = false ∧ f.c = s.flags.c ∧
    (f = movFlags (hiByte (s.reg rd)) s.flags ∨ f = movFlags (loByte (s.reg rd) ++ hiByte (s.reg rd)) s.flags)) ∧
  (∀ rd s, ∃ (t : State) (w : Word), exec (.exts rd) s = .next t ∧ w.toInt = (loByte (s.reg rd)).toInt ∧
    Effect s t (fun r => if r = rd then w else s.reg r) { n := w.msb, z := w == 0, v := false, c := false } []) ∧
  (∀ rd s, ∃ (t : State) (w : Word), exec (.extu rd) s = .next t ∧ w.toNat = (loByte (s.reg rd)).toNat ∧
    Effect s t (fun r => if r = rd then w else s.reg r) { n := false, z := w == 0, v := false, c := false } [])

/-- MOVFPE and MOVTPE, on a chip with an E clock, move a byte and change no flag (R190, R191; that they act as plain byte
moves is D34, log entry 28, the model's choice). -/
def Obligations.PeripheralMoves : Prop :=
  ∀ (ea : Ea) (r : Reg) (s : State), s.chip ≠ .h8520 → movesReg ea r = false → (s.place .byte ea).aligned = true →
    (∃ t, exec (.movfpe ea r) s = .next t ∧
      Effect s t (s.afterWrite .byte ea r (hiByte (s.reg r) ++ s.peek .byte (s.place .byte ea))) s.flags []) ∧
    (ea.isMemory = true → s.mem.wf = true → StoresValue (.movtpe r ea) s .byte ea (loByte (s.reg r)) s.flags)

/-! ### Arithmetic -/

/-- ADD:G, SUB, ADDX and SUBX (41_arithmetic.md R200, R201, R203 to R205): the sum or difference with the carry where the
form takes it, at the operand size; Z of the extended forms is only ever cleared. -/
def Obligations.AddAndSubtract : Prop :=
  Combines .addG (fun _ x d _ => (d + x, (addFlags x d false).2)) ∧
  Combines .sub (fun _ x d _ => (d - x, (subFlags x d false).2)) ∧
  Combines .addx (fun _ x d f =>
    (d + x + (if f.c then 1 else 0), { (addFlags x d f.c).2 with z := f.z && (addFlags x d f.c).2.z })) ∧
  Combines .subx (fun _ x d f =>
    (d - x - (if f.c then 1 else 0), { (subFlags x d f.c).2 with z := f.z && (subFlags x d f.c).2.z }))

/-- Where T, the mask and the condition codes stand in SR (10_state.md R28): T is bit 15, I2 to I0 are bits 10 to 8, N, Z, V
and C are bits 3 to 0. What `AddFlags` and `SubFlags` say (10_state.md R40): C is the carry out or the borrow, V says that
the exact signed result does not fit, N and Z describe the result. What MOV and the logic instructions set
(40_data_transfer.md R170): N is the sign of the value, Z says that it is zero, V is cleared, C stays. -/
def Obligations.FlagMeanings : Prop :=
  (∀ s : State,
    s.flagT = s.sr.getLsbD 15 ∧
    s.intMask.getLsbD 2 = s.sr.getLsbD 10 ∧ s.intMask.getLsbD 1 = s.sr.getLsbD 9 ∧ s.intMask.getLsbD 0 = s.sr.getLsbD 8 ∧
    s.flags.n = s.sr.getLsbD 3 ∧ s.flags.z = s.sr.getLsbD 2 ∧ s.flags.v = s.sr.getLsbD 1 ∧ s.flags.c = s.sr.getLsbD 0) ∧
  (∀ (sz : Size) (x d : BitVec sz.bits) (b : Bool),
    (((addFlags x d b).2.c = true ↔ 2 ^ sz.bits ≤ x.toNat + d.toNat + b.toNat) ∧
      ((addFlags x d b).2.v = true ↔
        ¬(-2 ^ (sz.bits - 1) ≤ x.toInt + d.toInt + b.toNat ∧ x.toInt + d.toInt + b.toNat < 2 ^ (sz.bits - 1))) ∧
      ((addFlags x d b).2.n = true ↔ (addFlags x d b).1.toInt < 0) ∧
      ((addFlags x d b).2.z = true ↔ (addFlags x d b).1 = 0)) ∧
    (((subFlags x d b).2.c = true ↔ d.toNat < x.toNat + b.toNat) ∧
      ((subFlags x d b).2.v = true ↔
        ¬(-2 ^ (sz.bits - 1) ≤ d.toInt - x.toInt - b.toNat ∧ d.toInt - x.toInt - b.toNat < 2 ^ (sz.bits - 1))) ∧
      ((subFlags x d b).2.n = true ↔ (subFlags x d b).1.toInt < 0) ∧
      ((subFlags x d b).2.z = true ↔ (subFlags x d b).1 = 0))) ∧
  ∀ (sz : Size) (v : BitVec sz.bits) (f : Flags),
    ((movFlags v f).n = true ↔ v.toInt < 0) ∧ ((movFlags v f).z = true ↔ v.toNat = 0) ∧
    (movFlags v f).v = false ∧ (movFlags v f).c = f.c

/-- ADD:Q adds 1, 2, -1 or -2 to a register or memory operand, and the immediate enters the flags as a number of the operand
size (R202; this is the model's choice where the immediate is negative: D12, log entry 9). -/
def Obligations.AddQuick : Prop :=
  Modifies .addQ1 (fun _ d _ => (d + 1, (addFlags 1 d false).2)) ∧
  Modifies .addQ2 (fun _ d _ => (d + 2, (addFlags 2 d false).2)) ∧
  Modifies .addQm1 (fun _ d _ => (d - 1, (addFlags (-1) d false).2)) ∧
  Modifies .addQm2 (fun _ d _ => (d - 2, (addFlags (-2) d false).2))

/-- ADDS and SUBS (R206 to R208): the source is added or subtracted and no flag changes. That a byte source is sign-extended
and the whole of Rd written is general knowledge (G11, log entry 31). -/
def Obligations.AddsAndSubs : Prop :=
  ∀ (sz : Size) (ea : Ea) (rd : Reg) (s : State), movesReg ea rd = false → (s.place sz ea).aligned = true →
    let x : Word := (s.peek sz (s.place sz ea)).signExtend 16
    (∃ t, exec (.adds sz ea rd) s = .next t ∧ Effect s t (s.afterWrite sz ea rd (s.reg rd + x)) s.flags []) ∧
    (∃ t, exec (.subs sz ea rd) s = .next t ∧ Effect s t (s.afterWrite sz ea rd (s.reg rd - x)) s.flags [])

/-- CMP in every format and TST set the condition codes and change no operand (R220 to R224, R227). -/
def Obligations.CompareAndTest : Prop :=
  (∀ sz ea rd s, movesReg ea rd = false → (s.place sz ea).aligned = true →
    Tests (.cmpG sz ea rd) s sz ea (subFlags (s.peek sz (s.place sz ea)) (s.readReg sz rd) false).2) ∧
  (∀ ea imm s, (s.place .byte ea).aligned = true →
    Tests (.cmpGImm8 ea imm) s .byte ea (subFlags imm (s.peek .byte (s.place .byte ea)) false).2) ∧
  (∀ ea imm s, (s.place .word ea).aligned = true →
    Tests (.cmpGImm16 ea imm) s .word ea (subFlags imm (s.peek .word (s.place .word ea)) false).2) ∧
  (∀ imm rd s, Tests (.cmpE imm rd) s .byte (.reg rd) (subFlags imm (loByte (s.reg rd)) false).2) ∧
  (∀ imm rd s, Tests (.cmpI imm rd) s .word (.reg rd) (subFlags imm (s.reg rd) false).2) ∧
  (∀ sz ea s, (s.place sz ea).aligned = true →
    Tests (.tst sz ea) s sz ea
      { n := (s.peek sz (s.place sz ea)).msb, z := s.peek sz (s.place sz ea) == 0, v := false, c := false })

/-- The sixteen conditions of Bcc by their codes, and what they say after a compare of Rd with a source: BHI, BLS, BCC and
BCS order them as unsigned numbers, BGE, BLT, BGT and BLE as signed ones (43_branch.md R291). That the first byte of Bcc d:16
is H'30 to H'3F is general knowledge (R292, C3, G3, log entry 30). -/
def Obligations.BccConditions : Prop :=
  (∀ (cc : BitVec 4) (d : Byte) (rest : List Byte),
    decode (opNibble 0x2 cc :: d :: rest) = .instr (.bcc8 (Cond.ofBits cc) d) 2) ∧
  (∀ (cc : BitVec 4) (hi lo : Byte) (rest : List Byte),
    decode (opNibble 0x3 cc :: hi :: lo :: rest) = .instr (.bcc16 (Cond.ofBits cc) (hi ++ lo)) 3) ∧
  (∀ f : Flags,
    f.holds (Cond.ofBits 0x0) = true ∧ f.holds (Cond.ofBits 0x1) = false ∧
    f.holds (Cond.ofBits 0x2) = !(f.c || f.z) ∧ f.holds (Cond.ofBits 0x3) = (f.c || f.z) ∧
    f.holds (Cond.ofBits 0x4) = !f.c ∧ f.holds (Cond.ofBits 0x5) = f.c ∧
    f.holds (Cond.ofBits 0x6) = !f.z ∧ f.holds (Cond.ofBits 0x7) = f.z ∧
    f.holds (Cond.ofBits 0x8) = !f.v ∧ f.holds (Cond.ofBits 0x9) = f.v ∧
    f.holds (Cond.ofBits 0xA) = !f.n ∧ f.holds (Cond.ofBits 0xB) = f.n ∧
    f.holds (Cond.ofBits 0xC) = !(f.n ^^ f.v) ∧ f.holds (Cond.ofBits 0xD) = (f.n ^^ f.v) ∧
    f.holds (Cond.ofBits 0xE) = !(f.z || (f.n ^^ f.v)) ∧ f.holds (Cond.ofBits 0xF) = (f.z || (f.n ^^ f.v))) ∧
  ∀ (sz : Size) (x d : BitVec sz.bits),
    let f := (subFlags x d false).2
    (f.holds .bhi = true ↔ x.toNat < d.toNat) ∧ (f.holds .bls = true ↔ d.toNat ≤ x.toNat) ∧
    (f.holds .bcc = true ↔ x.toNat ≤ d.toNat) ∧ (f.holds .bcs = true ↔ d.toNat < x.toNat) ∧
    (f.holds .bge = true ↔ x.toInt ≤ d.toInt) ∧ (f.holds .blt = true ↔ d.toInt < x.toInt) ∧
    (f.holds .bgt = true ↔ x.toInt < d.toInt) ∧ (f.holds .ble = true ↔ d.toInt ≤ x.toInt)

/-- DADD and DSUB (R209 to R211): on valid digits the new digit pair and the decimal carry or borrow make the exact sum or
difference, Z is only ever cleared, N and V stay, and the upper byte of Rd stays. The decimal arithmetic is general knowledge
(G12, log entry 31). -/
def Obligations.DecimalArithmetic : Prop :=
  ∀ (rs rd : Reg) (s : State), bcdValid (loByte (s.reg rs)) = true → bcdValid (loByte (s.reg rd)) = true →
    (∃ (t : State) (r : Byte) (f : Flags), exec (.dadd rs rd) s = .next t ∧
      Effect s t (fun q => if q = rd then hiByte (s.reg rd) ++ r else s.reg q) f [] ∧ bcdValid r = true ∧
      bcd r + 100 * f.c.toNat = bcd (loByte (s.reg rd)) + bcd (loByte (s.reg rs)) + s.flags.c.toNat ∧
      f.n = s.flags.n ∧ f.v = s.flags.v ∧ f.z = (s.flags.z && r == 0)) ∧
    (∃ (t : State) (r : Byte) (f : Flags), exec (.dsub rs rd) s = .next t ∧
      Effect s t (fun q => if q = rd then hiByte (s.reg rd) ++ r else s.reg q) f [] ∧ bcdValid r = true ∧
      bcd r + bcd (loByte (s.reg rs)) + s.flags.c.toNat = bcd (loByte (s.reg rd)) + 100 * f.c.toNat ∧
      f.n = s.flags.n ∧ f.v = s.flags.v ∧ f.z = (s.flags.z && r == 0))

/-- MULXU (R214): the whole product, in Rd for the byte form and in the pair for the word form; V and C are cleared.
That N and Z describe the whole product is the model's choice (D13, log entry 10). -/
def Obligations.Multiply : Prop :=
  (∀ ea rd s, movesReg ea rd = false → (s.place .byte ea).aligned = true →
    ∃ (t : State) (p : Word), exec (.mulxu .byte ea rd) s = .next t ∧
      p.toNat = (loByte (s.reg rd)).toNat * (s.peek .byte (s.place .byte ea)).toNat ∧
      Effect s t (s.afterWrite .byte ea rd p) { n := p.msb, z := p == 0, v := false, c := false } []) ∧
  (∀ ea rd s, isOddReg rd = false → movesReg ea rd = false → movesReg ea (nextReg rd) = false →
    (s.place .word ea).aligned = true →
    ∃ (t : State) (hi lo : Word), exec (.mulxu .word ea rd) s = .next t ∧
      hi.toNat * 65536 + lo.toNat = (s.reg rd).toNat * (s.peek .word (s.place .word ea)).toNat ∧
      Effect s t (s.afterPair .word ea rd hi lo)
        { n := hi.msb, z := hi == 0 && lo == 0, v := false, c := false } [])

/-- DIVXU with a quotient that fits (R215): quotient and remainder in the halves of Rd, or in the pair; V and C
are cleared. That N and Z describe the quotient is the model's choice (D13, log entry 10). -/
def Obligations.DivideFits : Prop :=
  (∀ (ea : Ea) (rd : Reg) (s : State), movesReg ea rd = false → (s.place .byte ea).aligned = true →
    let n := (s.reg rd).toNat
    let x := (s.peek .byte (s.place .byte ea)).toNat
    x ≠ 0 → n / x < 256 →
    ∃ (t : State) (q r : Byte), exec (.divxu .byte ea rd) s = .next t ∧ n = q.toNat * x + r.toNat ∧ r.toNat < x ∧
      Effect s t (s.afterWrite .byte ea rd (r ++ q)) { n := q.msb, z := q == 0, v := false, c := false } []) ∧
  (∀ (ea : Ea) (rd : Reg) (s : State), isOddReg rd = false → movesReg ea rd = false → movesReg ea (nextReg rd) = false →
    (s.place .word ea).aligned = true →
    let n := (s.reg rd).toNat * 65536 + (s.reg (nextReg rd)).toNat
    let x := (s.peek .word (s.place .word ea)).toNat
    x ≠ 0 → n / x < 65536 →
    ∃ (t : State) (q r : Word), exec (.divxu .word ea rd) s = .next t ∧ n = q.toNat * x + r.toNat ∧ r.toNat < x ∧
      Effect s t (s.afterPair .word ea rd r q) { n := q.msb, z := q == 0, v := false, c := false } [])

/-- DIVXU whose quotient does not fit sets V, clears N, Z and C, and writes no data register. DIVXU by zero sets Z, clears N,
V and C, moves the EA's own register, and takes the zero-divide exception (R215), which stacks a PC that is open (D10).
That a division by zero leaves the data registers unwritten and completes the EA is the model's choice (D32, log entry 26). -/
def Obligations.DivideOverflowAndByZero : Prop :=
  ∀ (sz : Size) (ea : Ea) (rd : Reg) (s : State), (sz = .word → isOddReg rd = false ∧ movesReg ea (nextReg rd) = false) →
    movesReg ea rd = false → (s.place sz ea).aligned = true →
    let n := match sz with
      | .byte => (s.reg rd).toNat
      | .word => (s.reg rd).toNat * 65536 + (s.reg (nextReg rd)).toNat
    let x := (s.peek sz (s.place sz ea)).toNat
    (x ≠ 0 → 2 ^ sz.bits ≤ n / x →
      Tests (.divxu sz ea rd) s sz ea { n := false, z := false, v := true, c := false }) ∧
    (x = 0 → s.mem.wf = true → odd (s.afterEa sz ea .r7) = false →
      ∃ u t, Effect s u (s.afterEa sz ea) { n := false, z := true, v := false, c := false } [] ∧
        exec (.divxu sz ea rd) s = .next t ∧ Entered u t .zeroDivide u.zeroDividePc)

/-- NEG, CLR and TAS (R228, R229, R231): the operand's negative with the flags of 0 less the operand, zero, and the operand
with bit 7 set. That TAS takes its flags from the value before bit 7 is set is general knowledge (G15, log entry 31). -/
def Obligations.NegateClearTestAndSet : Prop :=
  Modifies .neg (fun _ d _ =>
    (-d, { n := (-d).msb, z := d == 0, v := d.msb && (-d).msb, c := d != 0 })) ∧
  (∀ sz ea s, ea.isPlace = true → s.mem.wf = true → (s.place sz ea).aligned = true →
    StoresValue (.clr sz ea) s sz ea 0 { n := false, z := true, v := false, c := false }) ∧
  (∀ ea s, ea.isPlace = true → s.mem.wf = true → (s.place .byte ea).aligned = true →
    let d : Byte := s.peek .byte (s.place .byte ea)
    StoresValue (.tas ea) s .byte ea (d ||| 0x80#8) { n := d.msb, z := d == 0, v := false, c := false })

/-! ### Logic, shifts and bits -/

/-- AND, OR, XOR into a register and NOT in place (42_logic_shift_bit.md R250 to R254): N and Z from the result, V cleared,
C kept. -/
def Obligations.Logic : Prop :=
  Combines .andG (fun _ x d f => (d &&& x, movFlags (d &&& x) f)) ∧
  Combines .orG (fun _ x d f => (d ||| x, movFlags (d ||| x) f)) ∧
  Combines .xorG (fun _ x d f => (d ^^^ x, movFlags (d ^^^ x) f)) ∧
  Modifies .notG (fun _ d f => (~~~d, movFlags (~~~d) f))

/-- The eight shifts and rotates (R260 to R268) put the shifted operand back and set N and Z from it, C to the bit moved
out, and V to 0, but for SHAL, where V says that the sign changed. That they move by one bit, what they move in, and the sign
fill of SHAR are general knowledge (G13, log entry 31). -/
def Obligations.ShiftAndRotate : Prop :=
  let flags {w : Nat} (r : BitVec w) (v c : Bool) : Flags := { n := r.msb, z := r == 0, v := v, c := c }
  Modifies .shal (fun _ d _ => (d <<< 1, flags (d <<< 1) (d.msb ^^ (d <<< 1).msb) d.msb)) ∧
  Modifies .shar (fun _ d _ => (d.sshiftRight 1, flags (d.sshiftRight 1) false (d.getLsbD 0))) ∧
  Modifies .shll (fun _ d _ => (d <<< 1, flags (d <<< 1) false d.msb)) ∧
  Modifies .shlr (fun _ d _ => (d >>> 1, flags (d >>> 1) false (d.getLsbD 0))) ∧
  Modifies .rotl (fun _ d _ => (d.rotateLeft 1, flags (d.rotateLeft 1) false d.msb)) ∧
  Modifies .rotr (fun _ d _ => (d.rotateRight 1, flags (d.rotateRight 1) false (d.getLsbD 0))) ∧
  Modifies .rotxl (fun sz d f =>
    let r := BitVec.ofNat sz.bits (2 * d.toNat + f.c.toNat)
    (r, flags r false d.msb)) ∧
  Modifies .rotxr (fun sz d f =>
    let r := BitVec.ofNat sz.bits ((d.toNat + 2 ^ sz.bits * f.c.toNat) / 2)
    (r, flags r false (d.getLsbD 0)))

/-- BSET, BCLR, BNOT and BTST with an immediate bit number, or with one in the low four bits of a register (R270 to R274): Z
is the complement of the bit before; the bit is set, cleared or inverted, or for BTST left; every other bit and flag
stays. That the register form takes the low four bits of Rs, and that bit 0 is the lowest, is general knowledge and the
model's choice (G14, D24, log entries 19 and 31). -/
def Obligations.Bits : Prop :=
  ∀ (sz : Size) (ea : Ea) (s : State), (s.place sz ea).aligned = true →
    let d := s.peek sz (s.place sz ea)
    let test (i : Instr) (n : Nat) : Prop := Tests i s sz ea { s.flags with z := !d.getLsbD n }
    let after (i : Instr) (n : Nat) (new : Bool) : Prop :=
      ∃ v, StoresValue i s sz ea v { s.flags with z := !d.getLsbD n } ∧
        ∀ k, k < sz.bits → v.getLsbD k = if k = n then new else d.getLsbD k
    (∀ n : BitVec 4, n.toNat < sz.bits →
      test (.btstI sz n ea) n.toNat ∧
      (ea.isPlace = true → s.mem.wf = true →
        after (.bsetI sz n ea) n.toNat true ∧ after (.bclrI sz n ea) n.toNat false ∧
        after (.bnotI sz n ea) n.toNat (!d.getLsbD n.toNat))) ∧
    (∀ rs : Reg, movesReg ea rs = false → (s.reg rs).toNat % 16 < sz.bits →
      let n := (s.reg rs).toNat % 16
      test (.btstR sz rs ea) n ∧
      (ea.isPlace = true → s.mem.wf = true →
        after (.bsetR sz rs ea) n true ∧ after (.bclrR sz rs ea) n false ∧
        after (.bnotR sz rs ea) n (!d.getLsbD n)))

/-! ### Branches -/

/-- Bcc, SCB and JMP (43_branch.md R290 to R292, R294, R296): only PC changes, and for SCB the counter, which is left alone
when its condition ends the loop. NOP changes nothing, and SLEEP only the CPU's operating state, to the mode SSBY selects
(44_system_control.md R342, R334). -/
def Obligations.BranchJumpSleep : Prop :=
  (∀ cc d s, exec (.bcc8 cc d) s = .next { s with pc := if s.flags.holds cc then s.pc + d.signExtend 16 else s.pc }) ∧
  (∀ cc d s, exec (.bcc16 cc d) s = .next { s with pc := if s.flags.holds cc then s.pc + d else s.pc }) ∧
  (∀ r d s,
    let counted : State := { s.setReg r (s.reg r - 1) with pc := if s.reg r = 0 then s.pc else s.pc + d.signExtend 16 }
    exec (.scbF r d) s = .next counted ∧
    exec (.scbNE r d) s = .next (if s.flags.z = false then s else counted) ∧
    exec (.scbEQ r d) s = .next (if s.flags.z = true then s else counted)) ∧
  (∀ a s, exec (.jmpAbs a) s = .next { s with pc := a }) ∧
  (∀ r s, exec (.jmpInd r) s = .next { s with pc := s.reg r }) ∧
  (∀ r d s, exec (.jmpDisp8 r d) s = .next { s with pc := s.reg r + d.signExtend 16 }) ∧
  (∀ r d s, exec (.jmpDisp16 r d) s = .next { s with pc := s.reg r + d }) ∧
  (∀ s, exec .nop s = .next s) ∧
  (∀ s, s.ssby = false → exec .sleep s = .next { s with cpuState := .sleep }) ∧
  (∀ s, s.ssby = true → exec .sleep s = .next { s with cpuState := .softwareStandby })

/-- BSR and JSR (R293, R297): PC is pushed, R7 falls by 2, and the target becomes PC. RTS and RTD (R298, R299): the word at
the top of the stack becomes PC, R7 rises by 2 and RTD adds its immediate. That JSR computes its target before the push is
general knowledge (G16, log entry 31). -/
def Obligations.CallsAndReturns : Prop :=
  ∀ s : State, odd (s.reg .r7) = false →
    (s.mem.wf = true →
      (∀ d, ∃ t, exec (.bsr8 d) s = .next t ∧ Called s t (s.pc + d.signExtend 16)) ∧
      (∀ d, ∃ t, exec (.bsr16 d) s = .next t ∧ Called s t (s.pc + d)) ∧
      (∀ a, ∃ t, exec (.jsrAbs a) s = .next t ∧ Called s t a) ∧
      (∀ r, ∃ t, exec (.jsrInd r) s = .next t ∧ Called s t (s.reg r)) ∧
      (∀ r d, ∃ t, exec (.jsrDisp8 r d) s = .next t ∧ Called s t (s.reg r + d.signExtend 16)) ∧
      (∀ r d, ∃ t, exec (.jsrDisp16 r d) s = .next t ∧ Called s t (s.reg r + d))) ∧
    (∃ t, exec .rts s = .next t ∧ Transferred s t (s.withSp (s.reg .r7 + 2)) s.cp (s.stackWord 0) []) ∧
    (∀ d, ∃ t, exec (.rtd8 d) s = .next t ∧
      Transferred s t (s.withSp (s.reg .r7 + 2 + d.signExtend 16)) s.cp (s.stackWord 0) []) ∧
    (∀ d, ∃ t, exec (.rtd16 d) s = .next t ∧
      Transferred s t (s.withSp (s.reg .r7 + 2 + d)) s.cp (s.stackWord 0) [])

/-- PJMP, PJSR, PRTS and PRTD in maximum mode (R302 to R305): the page goes to CP and the offset to PC; the calls push PC and
then CP, the returns pop CP and then PC. That PJSR takes its target before the pushes, so that `PJSR @R6` goes to the R7 from
before them, is general knowledge (G16, log entry 31). -/
def Obligations.PageBranches : Prop :=
  ∀ s : State, s.mode = .maximum →
    (∀ p a, exec (.pjmpAbs p a) s = .next { s with cp := p, pc := a }) ∧
    (∀ r, isOddReg r = false →
      exec (.pjmpReg r) s = .next { s with cp := loByte (s.reg r), pc := s.reg (nextReg r) }) ∧
    (odd (s.reg .r7) = false →
      (s.mem.wf = true → ∀ p a, ∃ t, exec (.pjsrAbs p a) s = .next t ∧ PageCalled s t p a) ∧
      (s.mem.wf = true → ∀ r, isOddReg r = false →
        ∃ t, exec (.pjsrReg r) s = .next t ∧ PageCalled s t (loByte (s.reg r)) (s.reg (nextReg r))) ∧
      (∃ t, exec .prts s = .next t ∧
        Transferred s t (s.withSp (s.reg .r7 + 4)) (loByte (s.stackWord 0)) (s.stackWord 1) []) ∧
      (∀ d, ∃ t, exec (.prtd8 d) s = .next t ∧
        Transferred s t (s.withSp (s.reg .r7 + 4 + d.signExtend 16)) (loByte (s.stackWord 0)) (s.stackWord 1) []) ∧
      (∀ d, ∃ t, exec (.prtd16 d) s = .next t ∧
        Transferred s t (s.withSp (s.reg .r7 + 4 + d)) (loByte (s.stackWord 0)) (s.stackWord 1) []))

/-- A return undoes its call: RTS after every form of BSR and JSR, PRTS after every form of PJSR (R293, R297, R298, R303,
R304, R310): execution goes on after the call with the registers, SR and CP as they were. -/
def Obligations.ReturnUndoesCall : Prop :=
  ∀ s : State, s.mem.wf = true → odd (s.reg .r7) = false →
    let undone (call ret : Instr) : Prop :=
      ∃ t u, exec call s = .next t ∧ exec ret t = .next u ∧
        u.pc = s.pc ∧ u.cp = s.cp ∧ u.sr = s.sr ∧ ∀ r, u.reg r = s.reg r
    (∀ d, undone (.bsr8 d) .rts) ∧ (∀ d, undone (.bsr16 d) .rts) ∧ (∀ a, undone (.jsrAbs a) .rts) ∧
    (∀ r, undone (.jsrInd r) .rts) ∧ (∀ r d, undone (.jsrDisp8 r d) .rts) ∧ (∀ r d, undone (.jsrDisp16 r d) .rts) ∧
    (s.mode = .maximum →
      (∀ p a, undone (.pjsrAbs p a) .prts) ∧ ∀ r, isOddReg r = false → undone (.pjsrReg r) .prts)

/-! ### System control -/

/-- LDC (44_system_control.md R336, R330): the control register takes the source, SR and CCR in their writable bits only,
and trace and interrupts are held off once. STC (R337) stores the control register, CCR being the low byte of SR, at its own
size and changes no flag. That LDC holds trace and interrupts off is the model's choice (D25, log entry 20). -/
def Obligations.LoadAndStoreControl : Prop :=
  (∀ s : State, ReadsControl s) ∧
  ∀ (ea : Ea) (cr : ControlReg) (s : State), (s.place cr.size ea).aligned = true →
    (let v : Word := (s.peek cr.size (s.place cr.size ea)).setWidth 16
     ∃ t, exec (.ldc ea cr) s = .next t ∧ ControlWritten s t cr v (s.srAfter cr v) (s.afterEa cr.size ea)) ∧
    (ea.isPlace = true → s.mem.wf = true →
      StoresValue (.stc cr ea) s cr.size ea ((s.readCr cr).setWidth cr.size.bits) s.flags)

/-- ANDC, ORC and XORC (R338 to R341): the control register takes the result on what it held; on SR and CCR
that is also the flags, on the others N and Z come from the result, V is cleared and C stays; trace and interrupts are held
off once. -/
def Obligations.ControlLogic : Prop :=
  (∀ s : State, ReadsControl s) ∧
  ∀ (cr : ControlReg) (imm : Word) (s : State),
    let done (i : Instr) (v : Word) : Prop :=
      ∃ t, exec i s = .next t ∧
        ControlWritten s t cr v
          (if cr = .sr ∨ cr = .ccr then s.srAfter cr v else srWithFlags s.sr (movFlags (loByte v) s.flags)) s.reg
    done (.andc imm cr) (s.readCr cr &&& imm) ∧ done (.orc imm cr) (s.readCr cr ||| imm) ∧
    done (.xorc imm cr) (s.readCr cr ^^^ imm)

/-- TRAPA takes its exception and stacks the PC of the next instruction; TRAP/VS does so when V is set and changes nothing
otherwise (R331, R332). -/
def Obligations.Traps : Prop :=
  ∀ s : State, s.mem.wf = true → odd (s.reg .r7) = false →
    (∀ v, ∃ t, exec (.trapa v) s = .next t ∧ Entered s t (.trapA v) s.pc) ∧
    (s.flags.v = true → ∃ t, exec .trapVS s = .next t ∧ Entered s t .trapVS s.pc) ∧
    (s.flags.v = false → exec .trapVS s = .next s)

/-- The codes Table 2-10 lists as invalid, and in minimum mode the page-crossing branches, take the invalid instruction
exception, with no other effect (60_exceptions.md R391, 30_encoding.md R141 to R144, 20_memory.md R73). It stacks either the
address of the code or the PC at detection, which is open (R381, D9; where detection lies is log entry 37). -/
def Obligations.InvalidCodes : Prop :=
  ∀ s : State, s.mem.wf = true → odd (s.reg .r7) = false →
    let taken (i : Instr) (detection : Word) : Prop := ∃ t, exec i s = .next t ∧
      Entered s t .invalidInstruction (if Config.invalidStacksDetectionPc then detection else s.insAddr)
    (∀ sz r u, taken (.eaRn sz r u) s.pc ∧ taken (.eaPreDec sz r u) s.pc ∧ taken (.eaPostInc sz r u) s.pc ∧
      taken (.eaInd sz r u) s.pc) ∧
    (∀ sz r d u, taken (.eaDisp8 sz r d u) s.pc) ∧ (∀ sz r d u, taken (.eaDisp16 sz r d u) s.pc) ∧
    (∀ sz a u, taken (.eaAbs8 sz a u) s.pc) ∧ (∀ sz a u, taken (.eaAbs16 sz a u) s.pc) ∧
    (∀ v u, taken (.eaImm8 v u) s.pc) ∧ (∀ v u, taken (.eaImm16 v u) s.pc) ∧
    taken .invalid0B s.pc ∧ taken .invalid16 s.pc ∧ taken .invalid1B s.pc ∧
    (∀ g b, taken (.invalidSecond g b) s.pc) ∧
    (s.mode = .minimum →
      (∀ p a, taken (.pjsrAbs p a) (s.insAddr + 1) ∧ taken (.pjmpAbs p a) (s.insAddr + 1)) ∧
      (∀ r, taken (.pjsrReg r) (s.insAddr + 2) ∧ taken (.pjmpReg r) (s.insAddr + 2)) ∧
      taken .prts (s.insAddr + 2) ∧ (∀ d, taken (.prtd8 d) (s.insAddr + 2)) ∧
      (∀ d, taken (.prtd16 d) (s.insAddr + 2)))

/-- RTE (44_system_control.md R333): SR, in its writable bits, then CP in maximum mode, then PC come from the stack, R7 rises
by 4 or 6, and trace and interrupts are held off once. -/
def Obligations.ReturnFromException : Prop :=
  ∀ s : State, odd (s.reg .r7) = false →
    ∃ t, exec .rte s = .next t ∧ t.sr = s.stackWord 0 &&& 0x870F ∧ SameMemoryBut s t [] ∧
      (∀ r, t.reg r = s.withSp (s.reg .r7 + BitVec.ofNat 16 (2 * frameWords s.mode)) r) ∧
      (s.mode = .minimum → t.pc = s.stackWord 1 ∧ SameControl { s with defer := true } t) ∧
      (s.mode = .maximum → t.pc = s.stackWord 2 ∧
        SameControl { s with cp := loByte (s.stackWord 1), defer := true } t)

/-- RTE undoes what taking an exception did (60_exceptions.md R383): the registers, SR, CP and the stacked PC are back. -/
def Obligations.RteUndoesException : Prop :=
  ∀ (s : State) (e : Exception) (p : Word), s.mem.wf = true → odd (s.reg .r7) = false → s.sr &&& ~~~srMask = 0 →
    ∃ t u, s.takeException e p = .next t ∧ exec .rte t = .next u ∧
      u.pc = p ∧ u.cp = s.cp ∧ u.sr = s.sr ∧ u.mode = s.mode ∧ ∀ r, u.reg r = s.reg r

/-- LINK and UNLK (R343, R344): LINK pushes R6, puts the stack pointer into R6 and adds its immediate to R7; UNLK goes back
to R6 and pops it; no flag changes. UNLK after either form of LINK gives both registers back. -/
def Obligations.LinkAndUnlink : Prop :=
  ∀ s : State,
    let linked (i : Instr) (d : Word) : Prop := ∃ t, exec i s = .next t ∧
      Effect s t (fun r => if r = .r7 then s.reg .r7 - 2 + d else if r = .r6 then s.reg .r7 - 2 else s.reg r) s.flags
        (s.pushBytes 1) ∧
      t.wordAt (s.pushSlot 1) = s.reg .r6
    (s.mem.wf = true → odd (s.reg .r7) = false →
      (∀ d : Byte, linked (.link8 d) (d.signExtend 16)) ∧ (∀ d : Word, linked (.link16 d) d) ∧
      (∀ d, ∃ t u, exec (.link8 d) s = .next t ∧ exec .unlk t = .next u ∧ ∀ r, u.reg r = s.reg r) ∧
      ∀ d, ∃ t u, exec (.link16 d) s = .next t ∧ exec .unlk t = .next u ∧ ∀ r, u.reg r = s.reg r) ∧
    (odd (s.reg .r6) = false → ∃ t, exec .unlk s = .next t ∧
      Effect s t (fun r => if r = .r7 then s.reg .r6 + 2
        else if r = .r6 then s.wordAt (s.phys s.tp (s.reg .r6)) else s.reg r) s.flags [])

/-! ### Where an instruction stops, and where it notes an error -/

/-- An EA of `@-Rn` or `@Rn+` with the register operand the same Rn is refused, in every instruction that has both
(20_memory.md R94; D16, log entry 13, the spec's choice). -/
def Obligations.OverlapRefused : Prop :=
  ∀ (sz : Size) (ea : Ea) (r : Reg) (s : State), movesReg ea r = true →
    (∀ i ∈ [Instr.addG sz ea r, .adds sz ea r, .sub sz ea r, .subs sz ea r, .orG sz ea r, .andG sz ea r, .xorG sz ea r,
        .cmpG sz ea r, .movGLoad sz ea r, .movGStore sz r ea, .addx sz ea r, .subx sz ea r, .bsetR sz r ea,
        .bclrR sz r ea, .bnotR sz r ea, .btstR sz r ea, .mulxu .byte ea r, .divxu .byte ea r],
      exec i s = .refused .eaSideEffectOnOperandRegister) ∧
    (isOddReg r = false →
      exec (.mulxu .word ea r) s = .refused .eaSideEffectOnOperandRegister ∧
      exec (.divxu .word ea r) s = .refused .eaSideEffectOnOperandRegister) ∧
    (∀ q, isOddReg q = false → r = nextReg q →
      exec (.mulxu .word ea q) s = .refused .eaSideEffectOnOperandRegister ∧
      exec (.divxu .word ea q) s = .refused .eaSideEffectOnOperandRegister) ∧
    (s.chip ≠ .h8520 →
      exec (.movfpe ea r) s = .refused .eaSideEffectOnOperandRegister ∧
      exec (.movtpe r ea) s = .refused .eaSideEffectOnOperandRegister)

/-- The other operands the spec refuses: an odd register where a pair is meant (41_arithmetic.md R212, 43_branch.md R302,
R303), a decimal digit above 9 (R209), a bit number of 8 or more with a byte operand (42_logic_shift_bit.md R270), and the
E clock instructions on the H8/520 (40_data_transfer.md R190, R191). The refusals are the spec's choices (D17, D24, D34; log
entries 14, 19, 28). -/
def Obligations.OperandsRefused : Prop :=
  (∀ ea r s, isOddReg r = true →
    exec (.mulxu .word ea r) s = .refused .oddRegisterPair ∧ exec (.divxu .word ea r) s = .refused .oddRegisterPair ∧
    (s.mode = .maximum → exec (.pjmpReg r) s = .refused .oddRegisterPair ∧
      exec (.pjsrReg r) s = .refused .oddRegisterPair)) ∧
  (∀ rs rd s,
    (9 < (s.reg rs).toNat % 256 / 16 ∨ 9 < (s.reg rs).toNat % 16 ∨
      9 < (s.reg rd).toNat % 256 / 16 ∨ 9 < (s.reg rd).toNat % 16) →
    exec (.dadd rs rd) s = .refused .invalidBcdDigit ∧ exec (.dsub rs rd) s = .refused .invalidBcdDigit) ∧
  (∀ ea (n : BitVec 4) s, 8 ≤ n.toNat →
    ∀ i ∈ [Instr.bsetI .byte n ea, .bclrI .byte n ea, .bnotI .byte n ea, .btstI .byte n ea],
      exec i s = .refused .bitNumberExceedsOperandSize) ∧
  (∀ ea r s, movesReg ea r = false → 8 ≤ (s.reg r).toNat % 16 →
    ∀ i ∈ [Instr.bsetR .byte r ea, .bclrR .byte r ea, .bnotR .byte r ea, .btstR .byte r ea],
      exec i s = .refused .bitNumberExceedsOperandSize) ∧
  (∀ ea r s, s.chip = .h8520 → exec (.movfpe ea r) s = .refused .noEClock ∧ exec (.movtpe r ea) s = .refused .noEClock)

/-- A word access at an odd address, or a stack access with an odd R7, notes an address error, and the instruction still
runs to its end (20_memory.md R79, R80, 60_exceptions.md R388). A DIVXU whose divisor is read so may find zero and then takes
the zero-divide exception, which an odd R7 stops (R384). What else such an instruction writes is open (D5), and is not
stated; that it runs to its end is the model's choice (log entry 6). -/
def Obligations.MisalignedAccessNoted : Prop :=
  (∀ (sz : Size) (ea : Ea) (r : Reg) (s : State), movesReg ea r = false → (s.place sz ea).aligned = false →
    ∀ i ∈ [Instr.movGLoad sz ea r, .addG sz ea r, .sub sz ea r, .addx sz ea r, .subx sz ea r, .andG sz ea r,
        .orG sz ea r, .xorG sz ea r, .cmpG sz ea r, .adds sz ea r, .subs sz ea r, .movGStore sz r ea, .addQ1 sz ea,
        .addQ2 sz ea, .addQm1 sz ea, .addQm2 sz ea, .clr sz ea, .neg sz ea, .notG sz ea, .tst sz ea, .shal sz ea,
        .shar sz ea, .shll sz ea, .shlr sz ea, .rotl sz ea, .rotr sz ea, .rotxl sz ea, .rotxr sz ea],
      ∃ t, exec i s = .next t ∧ t.aerr = true) ∧
  (∀ (sz : Size) (ea : Ea) (s : State), (s.place sz ea).aligned = false →
    (∀ n : BitVec 4, n.toNat < sz.bits → ∀ i ∈ [Instr.bsetI sz n ea, .bclrI sz n ea, .bnotI sz n ea, .btstI sz n ea],
      ∃ t, exec i s = .next t ∧ t.aerr = true) ∧
    (∀ r : Reg, movesReg ea r = false → (s.reg r).toNat % 16 < sz.bits →
      ∀ i ∈ [Instr.bsetR sz r ea, .bclrR sz r ea, .bnotR sz r ea, .btstR sz r ea],
        ∃ t, exec i s = .next t ∧ t.aerr = true)) ∧
  (∀ (ea : Ea) (s : State), (s.place .byte ea).aligned = false →
    (∀ v : Byte, ∀ i ∈ [Instr.cmpGImm8 ea v, .movGImm8 ea v, .tas ea], ∃ t, exec i s = .next t ∧ t.aerr = true) ∧
    (∀ r : Reg, movesReg ea r = false → s.chip ≠ .h8520 →
      ∀ i ∈ [Instr.movfpe ea r, .movtpe r ea], ∃ t, exec i s = .next t ∧ t.aerr = true)) ∧
  (∀ (ea : Ea) (v : Word) (s : State), (s.place .word ea).aligned = false →
    ∀ i ∈ [Instr.cmpGImm16 ea v, .movGImm16 ea v], ∃ t, exec i s = .next t ∧ t.aerr = true) ∧
  (∀ (sz : Size) (ea : Ea) (r : Reg) (s : State), (sz = .word → isOddReg r = false ∧ movesReg ea (nextReg r) = false) →
    movesReg ea r = false → (s.place sz ea).aligned = false →
    (∃ t, exec (.mulxu sz ea r) s = .next t ∧ t.aerr = true) ∧
    ((∃ t, exec (.divxu sz ea r) s = .next t ∧ t.aerr = true) ∨
      odd (s.afterEa sz ea .r7) = true ∧ exec (.divxu sz ea r) s = .fault .stackErrorInSequence)) ∧
  (∀ (cr : ControlReg) (ea : Ea) (s : State), (s.place cr.size ea).aligned = false →
    ∀ i ∈ [Instr.ldc ea cr, .stc cr ea], ∃ t, exec i s = .next t ∧ t.aerr = true) ∧
  (∀ s : State, odd (s.reg .r7) = true →
    (∀ d a r, ∀ i ∈ [Instr.bsr8 d, .bsr16 a, .jsrAbs a, .jsrInd r, .jsrDisp8 r d, .jsrDisp16 r a, .rts, .rtd8 d,
        .rtd16 a, .rte, .link8 d, .link16 a],
      ∃ t, exec i s = .next t ∧ t.aerr = true) ∧
    (∀ list : Byte, list ≠ 0 → ∀ i ∈ [Instr.ldm list, .stm list], ∃ t, exec i s = .next t ∧ t.aerr = true) ∧
    (s.mode = .maximum →
      (∀ p d a, ∀ i ∈ [Instr.pjsrAbs p a, .prts, .prtd8 d, .prtd16 a], ∃ t, exec i s = .next t ∧ t.aerr = true) ∧
      ∀ r, isOddReg r = false → ∃ t, exec (.pjsrReg r) s = .next t ∧ t.aerr = true)) ∧
  (∀ s : State, odd (s.reg .r6) = true → ∃ t, exec .unlk s = .next t ∧ t.aerr = true)

/-! ### Over all instructions -/

/-- No instruction changes the mode, the pins, the chip or the requests (00_scope.md R9, 10_state.md R49, R52). That none
changes SSBY is the model's choice: the register it is a bit of has no address in the spec (D36, N20, log entry 29). -/
def Obligations.ModeNeverChanges : Prop :=
  ∀ (i : Instr) (s t : State), exec i s = .next t →
    t.mode = s.mode ∧ t.ssby = s.ssby ∧ t.chip = s.chip ∧ t.modePins = s.modePins ∧ t.resLow = s.resLow ∧
    t.stbyLow = s.stbyLow ∧ t.breqLow = s.breqLow ∧ t.nmiRequest = s.nmiRequest ∧ t.pending = s.pending ∧
    t.insAddr = s.insAddr

/-- CP is written by PJMP, PJSR, PRTS, PRTD, RTE in maximum mode and by taking an exception in maximum mode, and by nothing
else (10_state.md R41). -/
def Obligations.CodePageWriters : Prop :=
  ∀ (i : Instr) (s t : State), exec i s = .next t →
    (i.crossesPages = true ∨ i = .rte ∨ i.raises = true ∨ t.cp = s.cp) ∧
    (s.mode = .minimum → t.cp = s.cp)

/-- T and the mask are written by LDC, ANDC, ORC and XORC on SR and by RTE; taking an exception of an instruction writes T
alone; the hold on trace and interrupts is set by LDC, ANDC, ORC, XORC and RTE (10_state.md R29, R32, R50,
60_exceptions.md R382, 44_system_control.md R350). That LDC sets the hold (D25, log entry 20), and that an exception of an
instruction leaves the mask (D19, log entry 16), are the model's choices. -/
def Obligations.SystemBitWriters : Prop :=
  ∀ (i : Instr) (s t : State), exec i s = .next t →
    (i.writesControl = some .sr ∨ i = .rte ∨
      (t.intMask = s.intMask ∧ (i.raises = true ∨ i.crossesPages = true ∨ t.flagT = s.flagT))) ∧
    t.defer = (s.defer || i.writesControl.isSome || decide (i = .rte))

/-- The reserved bits of SR stay 0 through every instruction, LDC, RTE and the logic operations on SR among them, and are 0
where SR is read and where an exception pushes it (10_state.md R30). -/
def Obligations.ReservedBitsStayZero : Prop :=
  (∀ (i : Instr) (s t : State), s.sr &&& ~~~srMask = 0 → exec i s = .next t → t.sr &&& ~~~srMask = 0) ∧
  ∀ s : State, s.sr &&& ~~~srMask = 0 →
    s.readCr .sr &&& 0x78F0 = 0 ∧ s.readCr .ccr &&& 0xFFF0 = 0 ∧
    (s.mem.wf = true → odd (s.reg .r7) = false → ∀ (e : Exception) (p : Word),
      ∃ t, s.takeException e p = .next t ∧ t.stackWord 0 &&& 0x78F0 = 0)

/-! ### Memory and addresses -/

/-- The physical address (20_memory.md R72): page times 65536 plus offset in maximum mode, the offset alone in minimum mode;
the page is CP for a fetch, DP, EP or TP by the register, TP for the stack, DP for `@aa:16`, and 0 for `@aa:8` and the
vector table. The step of `@-Rn` and `@Rn+` (R88) is 1 for a byte and 2 for a word, and for R7 always 2, with a word moved on
the bus. The address of each EA (R84 to R87, R90) wraps in its page, which is the model's choice (D4, log entry 5). -/
def Obligations.PhysicalAddress : Prop :=
  ∀ s : State,
    (∀ p off, s.mode = .maximum → (s.phys p off).toNat = p.toNat * 65536 + off.toNat) ∧
    (∀ p off, s.mode = .minimum → (s.phys p off).toNat = off.toNat) ∧
    (∀ off, s.codeAddress off = s.phys s.cp off) ∧
    (∀ r ∈ [Reg.r0, .r1, .r2, .r3], s.pageOf r = s.dp) ∧ (∀ r ∈ [Reg.r4, .r5], s.pageOf r = s.ep) ∧
    (∀ r ∈ [Reg.r6, .r7], s.pageOf r = s.tp) ∧ s.stackTop = s.phys s.tp (s.reg .r7) ∧
    (∀ sz r, s.place sz (.ind r) = .mem (s.phys (s.pageOf r) (s.reg r)) sz) ∧
    (∀ sz r d, s.place sz (.disp8 r d) = .mem (s.phys (s.pageOf r) (s.reg r + d.signExtend 16)) sz) ∧
    (∀ sz r d, s.place sz (.disp16 r d) = .mem (s.phys (s.pageOf r) (s.reg r + d)) sz) ∧
    (∀ sz r, s.place sz (.preDec r) = .mem (s.phys (s.pageOf r) (s.reg r - stepSize r sz)) (accessSize r sz)) ∧
    (∀ sz r, s.place sz (.postInc r) = .mem (s.phys (s.pageOf r) (s.reg r)) (accessSize r sz)) ∧
    (∀ sz a, s.place sz (.abs8 a) = .mem (s.phys 0 (s.br ++ a)) sz) ∧
    (∀ sz a, s.place sz (.abs16 a) = .mem (s.phys s.dp a) sz) ∧
    (∀ k, k < 80 → (s.vectorAddress k).toNat < 65536) ∧
    (∀ (r : Reg) (sz : Size),
      (r ≠ .r7 → stepSize r sz = BitVec.ofNat 16 (sz.bits / 8) ∧ accessSize r sz = sz) ∧
      stepSize .r7 sz = 2 ∧ accessSize .r7 sz = .word)

/-- Memory (20_memory.md R76 to R78): a word written at an even address is read back, with every other byte as before; a word
access at an odd address notes an address error; every write keeps the canonical form; and where no address error was
detected, a byte that an instruction changes is noted among its stores, which R104 is about. That a misaligned store notes
none is the model's choice (log entry 7). That the upper byte lies at the even address is general knowledge (D1, G1,
log entry 1). -/
def Obligations.WordAccess : Prop :=
  (∀ (i : Instr) (s t : State), exec i s = .next t → t.aerr = false → ∀ a, a ∉ t.stores → t.readByte a = s.readByte a) ∧
  ∀ (s : State) (a : Addr) (v : Word), s.mem.wf = true →
    (s.writeWord a v).mem.wf = true ∧
    (odd a = false →
      (s.writeWord a v).readWord a = (v, s.writeWord a v) ∧
      (s.writeWord a v).readByte a = hiByte v ∧ (s.writeWord a v).readByte (a + 1) = loByte v ∧
      SameMemoryBut s (s.writeWord a v) [a, a + 1] ∧ (s.writeWord a v).aerr = s.aerr ∧
      (s.writeWord a v).stores = (a + 1) :: a :: s.stores) ∧
    (odd a = true → (s.writeWord a v).aerr = true ∧ (s.writeWord a v).stores = s.stores ∧ (s.readWord a).2.aerr = true)

end
end

