-- ==== Sys2Proof/Laws/State.lean ====
section
/-! SUPPORT. One lemma for each field of State and each update, so that no proof unfolds a record update. -/

namespace Sys2Proof.Machine

variable (s : State)

/-! ### setReg -/
@[simp] theorem setReg_regs (r : Reg) (v : Word) : (s.setReg r v).regs = s.regs.set r v := rfl
@[simp] theorem setReg_pc (r : Reg) (v : Word) : (s.setReg r v).pc = s.pc := rfl
@[simp] theorem setReg_sr (r : Reg) (v : Word) : (s.setReg r v).sr = s.sr := rfl
@[simp] theorem setReg_cp (r : Reg) (v : Word) : (s.setReg r v).cp = s.cp := rfl
@[simp] theorem setReg_dp (r : Reg) (v : Word) : (s.setReg r v).dp = s.dp := rfl
@[simp] theorem setReg_ep (r : Reg) (v : Word) : (s.setReg r v).ep = s.ep := rfl
@[simp] theorem setReg_tp (r : Reg) (v : Word) : (s.setReg r v).tp = s.tp := rfl
@[simp] theorem setReg_br (r : Reg) (v : Word) : (s.setReg r v).br = s.br := rfl
@[simp] theorem setReg_mode (r : Reg) (v : Word) : (s.setReg r v).mode = s.mode := rfl
@[simp] theorem setReg_cpuState (r : Reg) (v : Word) : (s.setReg r v).cpuState = s.cpuState := rfl
@[simp] theorem setReg_ssby (r : Reg) (v : Word) : (s.setReg r v).ssby = s.ssby := rfl
@[simp] theorem setReg_defer (r : Reg) (v : Word) : (s.setReg r v).defer = s.defer := rfl
@[simp] theorem setReg_aerr (r : Reg) (v : Word) : (s.setReg r v).aerr = s.aerr := rfl
@[simp] theorem setReg_nmiRequest (r : Reg) (v : Word) : (s.setReg r v).nmiRequest = s.nmiRequest := rfl
@[simp] theorem setReg_pending (r : Reg) (v : Word) : (s.setReg r v).pending = s.pending := rfl
@[simp] theorem setReg_resLow (r : Reg) (v : Word) : (s.setReg r v).resLow = s.resLow := rfl
@[simp] theorem setReg_stbyLow (r : Reg) (v : Word) : (s.setReg r v).stbyLow = s.stbyLow := rfl
@[simp] theorem setReg_breqLow (r : Reg) (v : Word) : (s.setReg r v).breqLow = s.breqLow := rfl
@[simp] theorem setReg_modePins (r : Reg) (v : Word) : (s.setReg r v).modePins = s.modePins := rfl
@[simp] theorem setReg_chip (r : Reg) (v : Word) : (s.setReg r v).chip = s.chip := rfl
@[simp] theorem setReg_mem (r : Reg) (v : Word) : (s.setReg r v).mem = s.mem := rfl
@[simp] theorem setReg_insAddr (r : Reg) (v : Word) : (s.setReg r v).insAddr = s.insAddr := rfl
@[simp] theorem setReg_draws (r : Reg) (v : Word) : (s.setReg r v).draws = s.draws := rfl
@[simp] theorem setReg_stores (r : Reg) (v : Word) : (s.setReg r v).stores = s.stores := rfl

/-! ### setFlags -/
@[simp] theorem setFlags_regs (f : Flags) : (s.setFlags f).regs = s.regs := rfl
@[simp] theorem setFlags_pc (f : Flags) : (s.setFlags f).pc = s.pc := rfl
@[simp] theorem setFlags_sr (f : Flags) : (s.setFlags f).sr = srWithFlags s.sr f := rfl
@[simp] theorem setFlags_cp (f : Flags) : (s.setFlags f).cp = s.cp := rfl
@[simp] theorem setFlags_dp (f : Flags) : (s.setFlags f).dp = s.dp := rfl
@[simp] theorem setFlags_ep (f : Flags) : (s.setFlags f).ep = s.ep := rfl
@[simp] theorem setFlags_tp (f : Flags) : (s.setFlags f).tp = s.tp := rfl
@[simp] theorem setFlags_br (f : Flags) : (s.setFlags f).br = s.br := rfl
@[simp] theorem setFlags_mode (f : Flags) : (s.setFlags f).mode = s.mode := rfl
@[simp] theorem setFlags_cpuState (f : Flags) : (s.setFlags f).cpuState = s.cpuState := rfl
@[simp] theorem setFlags_ssby (f : Flags) : (s.setFlags f).ssby = s.ssby := rfl
@[simp] theorem setFlags_defer (f : Flags) : (s.setFlags f).defer = s.defer := rfl
@[simp] theorem setFlags_aerr (f : Flags) : (s.setFlags f).aerr = s.aerr := rfl
@[simp] theorem setFlags_nmiRequest (f : Flags) : (s.setFlags f).nmiRequest = s.nmiRequest := rfl
@[simp] theorem setFlags_pending (f : Flags) : (s.setFlags f).pending = s.pending := rfl
@[simp] theorem setFlags_resLow (f : Flags) : (s.setFlags f).resLow = s.resLow := rfl
@[simp] theorem setFlags_stbyLow (f : Flags) : (s.setFlags f).stbyLow = s.stbyLow := rfl
@[simp] theorem setFlags_breqLow (f : Flags) : (s.setFlags f).breqLow = s.breqLow := rfl
@[simp] theorem setFlags_modePins (f : Flags) : (s.setFlags f).modePins = s.modePins := rfl
@[simp] theorem setFlags_chip (f : Flags) : (s.setFlags f).chip = s.chip := rfl
@[simp] theorem setFlags_mem (f : Flags) : (s.setFlags f).mem = s.mem := rfl
@[simp] theorem setFlags_insAddr (f : Flags) : (s.setFlags f).insAddr = s.insAddr := rfl
@[simp] theorem setFlags_draws (f : Flags) : (s.setFlags f).draws = s.draws := rfl
@[simp] theorem setFlags_stores (f : Flags) : (s.setFlags f).stores = s.stores := rfl

/-! ### setSr -/
@[simp] theorem setSr_regs (v : Word) : (s.setSr v).regs = s.regs := rfl
@[simp] theorem setSr_pc (v : Word) : (s.setSr v).pc = s.pc := rfl
@[simp] theorem setSr_sr (v : Word) : (s.setSr v).sr = v &&& srMask := rfl
@[simp] theorem setSr_cp (v : Word) : (s.setSr v).cp = s.cp := rfl
@[simp] theorem setSr_dp (v : Word) : (s.setSr v).dp = s.dp := rfl
@[simp] theorem setSr_ep (v : Word) : (s.setSr v).ep = s.ep := rfl
@[simp] theorem setSr_tp (v : Word) : (s.setSr v).tp = s.tp := rfl
@[simp] theorem setSr_br (v : Word) : (s.setSr v).br = s.br := rfl
@[simp] theorem setSr_mode (v : Word) : (s.setSr v).mode = s.mode := rfl
@[simp] theorem setSr_cpuState (v : Word) : (s.setSr v).cpuState = s.cpuState := rfl
@[simp] theorem setSr_ssby (v : Word) : (s.setSr v).ssby = s.ssby := rfl
@[simp] theorem setSr_defer (v : Word) : (s.setSr v).defer = s.defer := rfl
@[simp] theorem setSr_aerr (v : Word) : (s.setSr v).aerr = s.aerr := rfl
@[simp] theorem setSr_nmiRequest (v : Word) : (s.setSr v).nmiRequest = s.nmiRequest := rfl
@[simp] theorem setSr_pending (v : Word) : (s.setSr v).pending = s.pending := rfl
@[simp] theorem setSr_resLow (v : Word) : (s.setSr v).resLow = s.resLow := rfl
@[simp] theorem setSr_stbyLow (v : Word) : (s.setSr v).stbyLow = s.stbyLow := rfl
@[simp] theorem setSr_breqLow (v : Word) : (s.setSr v).breqLow = s.breqLow := rfl
@[simp] theorem setSr_modePins (v : Word) : (s.setSr v).modePins = s.modePins := rfl
@[simp] theorem setSr_chip (v : Word) : (s.setSr v).chip = s.chip := rfl
@[simp] theorem setSr_mem (v : Word) : (s.setSr v).mem = s.mem := rfl
@[simp] theorem setSr_insAddr (v : Word) : (s.setSr v).insAddr = s.insAddr := rfl
@[simp] theorem setSr_draws (v : Word) : (s.setSr v).draws = s.draws := rfl
@[simp] theorem setSr_stores (v : Word) : (s.setSr v).stores = s.stores := rfl

/-! ### setCcr -/
@[simp] theorem setCcr_regs (v : Byte) : (s.setCcr v).regs = s.regs := rfl
@[simp] theorem setCcr_pc (v : Byte) : (s.setCcr v).pc = s.pc := rfl
@[simp] theorem setCcr_sr (v : Byte) : (s.setCcr v).sr = hiByte s.sr ++ (v &&& 0x0F) := rfl
@[simp] theorem setCcr_cp (v : Byte) : (s.setCcr v).cp = s.cp := rfl
@[simp] theorem setCcr_dp (v : Byte) : (s.setCcr v).dp = s.dp := rfl
@[simp] theorem setCcr_ep (v : Byte) : (s.setCcr v).ep = s.ep := rfl
@[simp] theorem setCcr_tp (v : Byte) : (s.setCcr v).tp = s.tp := rfl
@[simp] theorem setCcr_br (v : Byte) : (s.setCcr v).br = s.br := rfl
@[simp] theorem setCcr_mode (v : Byte) : (s.setCcr v).mode = s.mode := rfl
@[simp] theorem setCcr_cpuState (v : Byte) : (s.setCcr v).cpuState = s.cpuState := rfl
@[simp] theorem setCcr_ssby (v : Byte) : (s.setCcr v).ssby = s.ssby := rfl
@[simp] theorem setCcr_defer (v : Byte) : (s.setCcr v).defer = s.defer := rfl
@[simp] theorem setCcr_aerr (v : Byte) : (s.setCcr v).aerr = s.aerr := rfl
@[simp] theorem setCcr_nmiRequest (v : Byte) : (s.setCcr v).nmiRequest = s.nmiRequest := rfl
@[simp] theorem setCcr_pending (v : Byte) : (s.setCcr v).pending = s.pending := rfl
@[simp] theorem setCcr_resLow (v : Byte) : (s.setCcr v).resLow = s.resLow := rfl
@[simp] theorem setCcr_stbyLow (v : Byte) : (s.setCcr v).stbyLow = s.stbyLow := rfl
@[simp] theorem setCcr_breqLow (v : Byte) : (s.setCcr v).breqLow = s.breqLow := rfl
@[simp] theorem setCcr_modePins (v : Byte) : (s.setCcr v).modePins = s.modePins := rfl
@[simp] theorem setCcr_chip (v : Byte) : (s.setCcr v).chip = s.chip := rfl
@[simp] theorem setCcr_mem (v : Byte) : (s.setCcr v).mem = s.mem := rfl
@[simp] theorem setCcr_insAddr (v : Byte) : (s.setCcr v).insAddr = s.insAddr := rfl
@[simp] theorem setCcr_draws (v : Byte) : (s.setCcr v).draws = s.draws := rfl
@[simp] theorem setCcr_stores (v : Byte) : (s.setCcr v).stores = s.stores := rfl

/-! ### clearT -/
@[simp] theorem clearT_regs : (s.clearT).regs = s.regs := rfl
@[simp] theorem clearT_pc : (s.clearT).pc = s.pc := rfl
@[simp] theorem clearT_sr : (s.clearT).sr = putBit s.sr 15 false := rfl
@[simp] theorem clearT_cp : (s.clearT).cp = s.cp := rfl
@[simp] theorem clearT_dp : (s.clearT).dp = s.dp := rfl
@[simp] theorem clearT_ep : (s.clearT).ep = s.ep := rfl
@[simp] theorem clearT_tp : (s.clearT).tp = s.tp := rfl
@[simp] theorem clearT_br : (s.clearT).br = s.br := rfl
@[simp] theorem clearT_mode : (s.clearT).mode = s.mode := rfl
@[simp] theorem clearT_cpuState : (s.clearT).cpuState = s.cpuState := rfl
@[simp] theorem clearT_ssby : (s.clearT).ssby = s.ssby := rfl
@[simp] theorem clearT_defer : (s.clearT).defer = s.defer := rfl
@[simp] theorem clearT_aerr : (s.clearT).aerr = s.aerr := rfl
@[simp] theorem clearT_nmiRequest : (s.clearT).nmiRequest = s.nmiRequest := rfl
@[simp] theorem clearT_pending : (s.clearT).pending = s.pending := rfl
@[simp] theorem clearT_resLow : (s.clearT).resLow = s.resLow := rfl
@[simp] theorem clearT_stbyLow : (s.clearT).stbyLow = s.stbyLow := rfl
@[simp] theorem clearT_breqLow : (s.clearT).breqLow = s.breqLow := rfl
@[simp] theorem clearT_modePins : (s.clearT).modePins = s.modePins := rfl
@[simp] theorem clearT_chip : (s.clearT).chip = s.chip := rfl
@[simp] theorem clearT_mem : (s.clearT).mem = s.mem := rfl
@[simp] theorem clearT_insAddr : (s.clearT).insAddr = s.insAddr := rfl
@[simp] theorem clearT_draws : (s.clearT).draws = s.draws := rfl
@[simp] theorem clearT_stores : (s.clearT).stores = s.stores := rfl

/-! ### setMask -/
@[simp] theorem setMask_regs (l : BitVec 3) : (s.setMask l).regs = s.regs := rfl
@[simp] theorem setMask_pc (l : BitVec 3) : (s.setMask l).pc = s.pc := rfl
@[simp] theorem setMask_sr (l : BitVec 3) : (s.setMask l).sr = srWithMask s.sr l := rfl
@[simp] theorem setMask_cp (l : BitVec 3) : (s.setMask l).cp = s.cp := rfl
@[simp] theorem setMask_dp (l : BitVec 3) : (s.setMask l).dp = s.dp := rfl
@[simp] theorem setMask_ep (l : BitVec 3) : (s.setMask l).ep = s.ep := rfl
@[simp] theorem setMask_tp (l : BitVec 3) : (s.setMask l).tp = s.tp := rfl
@[simp] theorem setMask_br (l : BitVec 3) : (s.setMask l).br = s.br := rfl
@[simp] theorem setMask_mode (l : BitVec 3) : (s.setMask l).mode = s.mode := rfl
@[simp] theorem setMask_cpuState (l : BitVec 3) : (s.setMask l).cpuState = s.cpuState := rfl
@[simp] theorem setMask_ssby (l : BitVec 3) : (s.setMask l).ssby = s.ssby := rfl
@[simp] theorem setMask_defer (l : BitVec 3) : (s.setMask l).defer = s.defer := rfl
@[simp] theorem setMask_aerr (l : BitVec 3) : (s.setMask l).aerr = s.aerr := rfl
@[simp] theorem setMask_nmiRequest (l : BitVec 3) : (s.setMask l).nmiRequest = s.nmiRequest := rfl
@[simp] theorem setMask_pending (l : BitVec 3) : (s.setMask l).pending = s.pending := rfl
@[simp] theorem setMask_resLow (l : BitVec 3) : (s.setMask l).resLow = s.resLow := rfl
@[simp] theorem setMask_stbyLow (l : BitVec 3) : (s.setMask l).stbyLow = s.stbyLow := rfl
@[simp] theorem setMask_breqLow (l : BitVec 3) : (s.setMask l).breqLow = s.breqLow := rfl
@[simp] theorem setMask_modePins (l : BitVec 3) : (s.setMask l).modePins = s.modePins := rfl
@[simp] theorem setMask_chip (l : BitVec 3) : (s.setMask l).chip = s.chip := rfl
@[simp] theorem setMask_mem (l : BitVec 3) : (s.setMask l).mem = s.mem := rfl
@[simp] theorem setMask_insAddr (l : BitVec 3) : (s.setMask l).insAddr = s.insAddr := rfl
@[simp] theorem setMask_draws (l : BitVec 3) : (s.setMask l).draws = s.draws := rfl
@[simp] theorem setMask_stores (l : BitVec 3) : (s.setMask l).stores = s.stores := rfl

/-! ### writeByte -/
@[simp] theorem writeByte_regs (a : Addr) (v : Byte) : (s.writeByte a v).regs = s.regs := rfl
@[simp] theorem writeByte_pc (a : Addr) (v : Byte) : (s.writeByte a v).pc = s.pc := rfl
@[simp] theorem writeByte_sr (a : Addr) (v : Byte) : (s.writeByte a v).sr = s.sr := rfl
@[simp] theorem writeByte_cp (a : Addr) (v : Byte) : (s.writeByte a v).cp = s.cp := rfl
@[simp] theorem writeByte_dp (a : Addr) (v : Byte) : (s.writeByte a v).dp = s.dp := rfl
@[simp] theorem writeByte_ep (a : Addr) (v : Byte) : (s.writeByte a v).ep = s.ep := rfl
@[simp] theorem writeByte_tp (a : Addr) (v : Byte) : (s.writeByte a v).tp = s.tp := rfl
@[simp] theorem writeByte_br (a : Addr) (v : Byte) : (s.writeByte a v).br = s.br := rfl
@[simp] theorem writeByte_mode (a : Addr) (v : Byte) : (s.writeByte a v).mode = s.mode := rfl
@[simp] theorem writeByte_cpuState (a : Addr) (v : Byte) : (s.writeByte a v).cpuState = s.cpuState := rfl
@[simp] theorem writeByte_ssby (a : Addr) (v : Byte) : (s.writeByte a v).ssby = s.ssby := rfl
@[simp] theorem writeByte_defer (a : Addr) (v : Byte) : (s.writeByte a v).defer = s.defer := rfl
@[simp] theorem writeByte_aerr (a : Addr) (v : Byte) : (s.writeByte a v).aerr = s.aerr := rfl
@[simp] theorem writeByte_nmiRequest (a : Addr) (v : Byte) : (s.writeByte a v).nmiRequest = s.nmiRequest := rfl
@[simp] theorem writeByte_pending (a : Addr) (v : Byte) : (s.writeByte a v).pending = s.pending := rfl
@[simp] theorem writeByte_resLow (a : Addr) (v : Byte) : (s.writeByte a v).resLow = s.resLow := rfl
@[simp] theorem writeByte_stbyLow (a : Addr) (v : Byte) : (s.writeByte a v).stbyLow = s.stbyLow := rfl
@[simp] theorem writeByte_breqLow (a : Addr) (v : Byte) : (s.writeByte a v).breqLow = s.breqLow := rfl
@[simp] theorem writeByte_modePins (a : Addr) (v : Byte) : (s.writeByte a v).modePins = s.modePins := rfl
@[simp] theorem writeByte_chip (a : Addr) (v : Byte) : (s.writeByte a v).chip = s.chip := rfl
@[simp] theorem writeByte_mem (a : Addr) (v : Byte) : (s.writeByte a v).mem = s.mem.writeAt a.toNat v := rfl
@[simp] theorem writeByte_insAddr (a : Addr) (v : Byte) : (s.writeByte a v).insAddr = s.insAddr := rfl
@[simp] theorem writeByte_draws (a : Addr) (v : Byte) : (s.writeByte a v).draws = s.draws := rfl
@[simp] theorem writeByte_stores (a : Addr) (v : Byte) : (s.writeByte a v).stores = a :: s.stores := rfl

/-! ### drawByte -/
@[simp] theorem drawByte_regs : (s.drawByte.2).regs = s.regs := rfl
@[simp] theorem drawByte_pc : (s.drawByte.2).pc = s.pc := rfl
@[simp] theorem drawByte_sr : (s.drawByte.2).sr = s.sr := rfl
@[simp] theorem drawByte_cp : (s.drawByte.2).cp = s.cp := rfl
@[simp] theorem drawByte_dp : (s.drawByte.2).dp = s.dp := rfl
@[simp] theorem drawByte_ep : (s.drawByte.2).ep = s.ep := rfl
@[simp] theorem drawByte_tp : (s.drawByte.2).tp = s.tp := rfl
@[simp] theorem drawByte_br : (s.drawByte.2).br = s.br := rfl
@[simp] theorem drawByte_mode : (s.drawByte.2).mode = s.mode := rfl
@[simp] theorem drawByte_cpuState : (s.drawByte.2).cpuState = s.cpuState := rfl
@[simp] theorem drawByte_ssby : (s.drawByte.2).ssby = s.ssby := rfl
@[simp] theorem drawByte_defer : (s.drawByte.2).defer = s.defer := rfl
@[simp] theorem drawByte_aerr : (s.drawByte.2).aerr = s.aerr := rfl
@[simp] theorem drawByte_nmiRequest : (s.drawByte.2).nmiRequest = s.nmiRequest := rfl
@[simp] theorem drawByte_pending : (s.drawByte.2).pending = s.pending := rfl
@[simp] theorem drawByte_resLow : (s.drawByte.2).resLow = s.resLow := rfl
@[simp] theorem drawByte_stbyLow : (s.drawByte.2).stbyLow = s.stbyLow := rfl
@[simp] theorem drawByte_breqLow : (s.drawByte.2).breqLow = s.breqLow := rfl
@[simp] theorem drawByte_modePins : (s.drawByte.2).modePins = s.modePins := rfl
@[simp] theorem drawByte_chip : (s.drawByte.2).chip = s.chip := rfl
@[simp] theorem drawByte_mem : (s.drawByte.2).mem = s.mem := rfl
@[simp] theorem drawByte_insAddr : (s.drawByte.2).insAddr = s.insAddr := rfl
@[simp] theorem drawByte_draws : (s.drawByte.2).draws = s.draws + 1 := rfl
@[simp] theorem drawByte_stores : (s.drawByte.2).stores = s.stores := rfl

/-! ### jump -/
@[simp] theorem jump_regs (v : Word) : (s.jump v).regs = s.regs := rfl
@[simp] theorem jump_pc (v : Word) : (s.jump v).pc = v := rfl
@[simp] theorem jump_sr (v : Word) : (s.jump v).sr = s.sr := rfl
@[simp] theorem jump_cp (v : Word) : (s.jump v).cp = s.cp := rfl
@[simp] theorem jump_dp (v : Word) : (s.jump v).dp = s.dp := rfl
@[simp] theorem jump_ep (v : Word) : (s.jump v).ep = s.ep := rfl
@[simp] theorem jump_tp (v : Word) : (s.jump v).tp = s.tp := rfl
@[simp] theorem jump_br (v : Word) : (s.jump v).br = s.br := rfl
@[simp] theorem jump_mode (v : Word) : (s.jump v).mode = s.mode := rfl
@[simp] theorem jump_cpuState (v : Word) : (s.jump v).cpuState = s.cpuState := rfl
@[simp] theorem jump_ssby (v : Word) : (s.jump v).ssby = s.ssby := rfl
@[simp] theorem jump_defer (v : Word) : (s.jump v).defer = s.defer := rfl
@[simp] theorem jump_aerr (v : Word) : (s.jump v).aerr = s.aerr := rfl
@[simp] theorem jump_nmiRequest (v : Word) : (s.jump v).nmiRequest = s.nmiRequest := rfl
@[simp] theorem jump_pending (v : Word) : (s.jump v).pending = s.pending := rfl
@[simp] theorem jump_resLow (v : Word) : (s.jump v).resLow = s.resLow := rfl
@[simp] theorem jump_stbyLow (v : Word) : (s.jump v).stbyLow = s.stbyLow := rfl
@[simp] theorem jump_breqLow (v : Word) : (s.jump v).breqLow = s.breqLow := rfl
@[simp] theorem jump_modePins (v : Word) : (s.jump v).modePins = s.modePins := rfl
@[simp] theorem jump_chip (v : Word) : (s.jump v).chip = s.chip := rfl
@[simp] theorem jump_mem (v : Word) : (s.jump v).mem = s.mem := rfl
@[simp] theorem jump_insAddr (v : Word) : (s.jump v).insAddr = s.insAddr := rfl
@[simp] theorem jump_draws (v : Word) : (s.jump v).draws = s.draws := rfl
@[simp] theorem jump_stores (v : Word) : (s.jump v).stores = s.stores := rfl

/-! ### branch -/
@[simp] theorem branch_regs (d : Word) : (s.branch d).regs = s.regs := rfl
@[simp] theorem branch_pc (d : Word) : (s.branch d).pc = s.pc + d := rfl
@[simp] theorem branch_sr (d : Word) : (s.branch d).sr = s.sr := rfl
@[simp] theorem branch_cp (d : Word) : (s.branch d).cp = s.cp := rfl
@[simp] theorem branch_dp (d : Word) : (s.branch d).dp = s.dp := rfl
@[simp] theorem branch_ep (d : Word) : (s.branch d).ep = s.ep := rfl
@[simp] theorem branch_tp (d : Word) : (s.branch d).tp = s.tp := rfl
@[simp] theorem branch_br (d : Word) : (s.branch d).br = s.br := rfl
@[simp] theorem branch_mode (d : Word) : (s.branch d).mode = s.mode := rfl
@[simp] theorem branch_cpuState (d : Word) : (s.branch d).cpuState = s.cpuState := rfl
@[simp] theorem branch_ssby (d : Word) : (s.branch d).ssby = s.ssby := rfl
@[simp] theorem branch_defer (d : Word) : (s.branch d).defer = s.defer := rfl
@[simp] theorem branch_aerr (d : Word) : (s.branch d).aerr = s.aerr := rfl
@[simp] theorem branch_nmiRequest (d : Word) : (s.branch d).nmiRequest = s.nmiRequest := rfl
@[simp] theorem branch_pending (d : Word) : (s.branch d).pending = s.pending := rfl
@[simp] theorem branch_resLow (d : Word) : (s.branch d).resLow = s.resLow := rfl
@[simp] theorem branch_stbyLow (d : Word) : (s.branch d).stbyLow = s.stbyLow := rfl
@[simp] theorem branch_breqLow (d : Word) : (s.branch d).breqLow = s.breqLow := rfl
@[simp] theorem branch_modePins (d : Word) : (s.branch d).modePins = s.modePins := rfl
@[simp] theorem branch_chip (d : Word) : (s.branch d).chip = s.chip := rfl
@[simp] theorem branch_mem (d : Word) : (s.branch d).mem = s.mem := rfl
@[simp] theorem branch_insAddr (d : Word) : (s.branch d).insAddr = s.insAddr := rfl
@[simp] theorem branch_draws (d : Word) : (s.branch d).draws = s.draws := rfl
@[simp] theorem branch_stores (d : Word) : (s.branch d).stores = s.stores := rfl

/-! ### pageJump -/
@[simp] theorem pageJump_regs (p : Byte) (v : Word) : (s.pageJump p v).regs = s.regs := rfl
@[simp] theorem pageJump_pc (p : Byte) (v : Word) : (s.pageJump p v).pc = v := rfl
@[simp] theorem pageJump_sr (p : Byte) (v : Word) : (s.pageJump p v).sr = s.sr := rfl
@[simp] theorem pageJump_cp (p : Byte) (v : Word) : (s.pageJump p v).cp = p := rfl
@[simp] theorem pageJump_dp (p : Byte) (v : Word) : (s.pageJump p v).dp = s.dp := rfl
@[simp] theorem pageJump_ep (p : Byte) (v : Word) : (s.pageJump p v).ep = s.ep := rfl
@[simp] theorem pageJump_tp (p : Byte) (v : Word) : (s.pageJump p v).tp = s.tp := rfl
@[simp] theorem pageJump_br (p : Byte) (v : Word) : (s.pageJump p v).br = s.br := rfl
@[simp] theorem pageJump_mode (p : Byte) (v : Word) : (s.pageJump p v).mode = s.mode := rfl
@[simp] theorem pageJump_cpuState (p : Byte) (v : Word) : (s.pageJump p v).cpuState = s.cpuState := rfl
@[simp] theorem pageJump_ssby (p : Byte) (v : Word) : (s.pageJump p v).ssby = s.ssby := rfl
@[simp] theorem pageJump_defer (p : Byte) (v : Word) : (s.pageJump p v).defer = s.defer := rfl
@[simp] theorem pageJump_aerr (p : Byte) (v : Word) : (s.pageJump p v).aerr = s.aerr := rfl
@[simp] theorem pageJump_nmiRequest (p : Byte) (v : Word) : (s.pageJump p v).nmiRequest = s.nmiRequest := rfl
@[simp] theorem pageJump_pending (p : Byte) (v : Word) : (s.pageJump p v).pending = s.pending := rfl
@[simp] theorem pageJump_resLow (p : Byte) (v : Word) : (s.pageJump p v).resLow = s.resLow := rfl
@[simp] theorem pageJump_stbyLow (p : Byte) (v : Word) : (s.pageJump p v).stbyLow = s.stbyLow := rfl
@[simp] theorem pageJump_breqLow (p : Byte) (v : Word) : (s.pageJump p v).breqLow = s.breqLow := rfl
@[simp] theorem pageJump_modePins (p : Byte) (v : Word) : (s.pageJump p v).modePins = s.modePins := rfl
@[simp] theorem pageJump_chip (p : Byte) (v : Word) : (s.pageJump p v).chip = s.chip := rfl
@[simp] theorem pageJump_mem (p : Byte) (v : Word) : (s.pageJump p v).mem = s.mem := rfl
@[simp] theorem pageJump_insAddr (p : Byte) (v : Word) : (s.pageJump p v).insAddr = s.insAddr := rfl
@[simp] theorem pageJump_draws (p : Byte) (v : Word) : (s.pageJump p v).draws = s.draws := rfl
@[simp] theorem pageJump_stores (p : Byte) (v : Word) : (s.pageJump p v).stores = s.stores := rfl

/-! ### deferred -/
@[simp] theorem deferred_regs : (s.deferred).regs = s.regs := rfl
@[simp] theorem deferred_pc : (s.deferred).pc = s.pc := rfl
@[simp] theorem deferred_sr : (s.deferred).sr = s.sr := rfl
@[simp] theorem deferred_cp : (s.deferred).cp = s.cp := rfl
@[simp] theorem deferred_dp : (s.deferred).dp = s.dp := rfl
@[simp] theorem deferred_ep : (s.deferred).ep = s.ep := rfl
@[simp] theorem deferred_tp : (s.deferred).tp = s.tp := rfl
@[simp] theorem deferred_br : (s.deferred).br = s.br := rfl
@[simp] theorem deferred_mode : (s.deferred).mode = s.mode := rfl
@[simp] theorem deferred_cpuState : (s.deferred).cpuState = s.cpuState := rfl
@[simp] theorem deferred_ssby : (s.deferred).ssby = s.ssby := rfl
@[simp] theorem deferred_defer : (s.deferred).defer = true := rfl
@[simp] theorem deferred_aerr : (s.deferred).aerr = s.aerr := rfl
@[simp] theorem deferred_nmiRequest : (s.deferred).nmiRequest = s.nmiRequest := rfl
@[simp] theorem deferred_pending : (s.deferred).pending = s.pending := rfl
@[simp] theorem deferred_resLow : (s.deferred).resLow = s.resLow := rfl
@[simp] theorem deferred_stbyLow : (s.deferred).stbyLow = s.stbyLow := rfl
@[simp] theorem deferred_breqLow : (s.deferred).breqLow = s.breqLow := rfl
@[simp] theorem deferred_modePins : (s.deferred).modePins = s.modePins := rfl
@[simp] theorem deferred_chip : (s.deferred).chip = s.chip := rfl
@[simp] theorem deferred_mem : (s.deferred).mem = s.mem := rfl
@[simp] theorem deferred_insAddr : (s.deferred).insAddr = s.insAddr := rfl
@[simp] theorem deferred_draws : (s.deferred).draws = s.draws := rfl
@[simp] theorem deferred_stores : (s.deferred).stores = s.stores := rfl

/-! ### begin -/
@[simp] theorem begin_regs (n : Nat) : (s.begin n).regs = s.regs := rfl
@[simp] theorem begin_pc (n : Nat) : (s.begin n).pc = s.pc + BitVec.ofNat 16 n := rfl
@[simp] theorem begin_sr (n : Nat) : (s.begin n).sr = s.sr := rfl
@[simp] theorem begin_cp (n : Nat) : (s.begin n).cp = s.cp := rfl
@[simp] theorem begin_dp (n : Nat) : (s.begin n).dp = s.dp := rfl
@[simp] theorem begin_ep (n : Nat) : (s.begin n).ep = s.ep := rfl
@[simp] theorem begin_tp (n : Nat) : (s.begin n).tp = s.tp := rfl
@[simp] theorem begin_br (n : Nat) : (s.begin n).br = s.br := rfl
@[simp] theorem begin_mode (n : Nat) : (s.begin n).mode = s.mode := rfl
@[simp] theorem begin_cpuState (n : Nat) : (s.begin n).cpuState = s.cpuState := rfl
@[simp] theorem begin_ssby (n : Nat) : (s.begin n).ssby = s.ssby := rfl
@[simp] theorem begin_defer (n : Nat) : (s.begin n).defer = false := rfl
@[simp] theorem begin_aerr (n : Nat) : (s.begin n).aerr = false := rfl
@[simp] theorem begin_nmiRequest (n : Nat) : (s.begin n).nmiRequest = s.nmiRequest := rfl
@[simp] theorem begin_pending (n : Nat) : (s.begin n).pending = s.pending := rfl
@[simp] theorem begin_resLow (n : Nat) : (s.begin n).resLow = s.resLow := rfl
@[simp] theorem begin_stbyLow (n : Nat) : (s.begin n).stbyLow = s.stbyLow := rfl
@[simp] theorem begin_breqLow (n : Nat) : (s.begin n).breqLow = s.breqLow := rfl
@[simp] theorem begin_modePins (n : Nat) : (s.begin n).modePins = s.modePins := rfl
@[simp] theorem begin_chip (n : Nat) : (s.begin n).chip = s.chip := rfl
@[simp] theorem begin_mem (n : Nat) : (s.begin n).mem = s.mem := rfl
@[simp] theorem begin_insAddr (n : Nat) : (s.begin n).insAddr = s.pc := rfl
@[simp] theorem begin_draws (n : Nat) : (s.begin n).draws = s.draws := rfl
@[simp] theorem begin_stores (n : Nat) : (s.begin n).stores = [] := rfl

/-! ### settle -/
@[simp] theorem settle_regs : (s.settle).regs = s.regs := rfl
@[simp] theorem settle_pc : (s.settle).pc = s.pc := rfl
@[simp] theorem settle_sr : (s.settle).sr = s.sr := rfl
@[simp] theorem settle_cp : (s.settle).cp = s.cp := rfl
@[simp] theorem settle_dp : (s.settle).dp = s.dp := rfl
@[simp] theorem settle_ep : (s.settle).ep = s.ep := rfl
@[simp] theorem settle_tp : (s.settle).tp = s.tp := rfl
@[simp] theorem settle_br : (s.settle).br = s.br := rfl
@[simp] theorem settle_mode : (s.settle).mode = s.mode := rfl
@[simp] theorem settle_cpuState : (s.settle).cpuState = s.cpuState := rfl
@[simp] theorem settle_ssby : (s.settle).ssby = s.ssby := rfl
@[simp] theorem settle_defer : (s.settle).defer = s.defer := rfl
@[simp] theorem settle_aerr : (s.settle).aerr = s.aerr := rfl
@[simp] theorem settle_nmiRequest : (s.settle).nmiRequest = s.nmiRequest := rfl
@[simp] theorem settle_pending : (s.settle).pending = s.pending := rfl
@[simp] theorem settle_resLow : (s.settle).resLow = s.resLow := rfl
@[simp] theorem settle_stbyLow : (s.settle).stbyLow = s.stbyLow := rfl
@[simp] theorem settle_breqLow : (s.settle).breqLow = s.breqLow := rfl
@[simp] theorem settle_modePins : (s.settle).modePins = s.modePins := rfl
@[simp] theorem settle_chip : (s.settle).chip = s.chip := rfl
@[simp] theorem settle_mem : (s.settle).mem = s.mem := rfl
@[simp] theorem settle_insAddr : (s.settle).insAddr = s.insAddr := rfl
@[simp] theorem settle_draws : (s.settle).draws = s.draws := rfl
@[simp] theorem settle_stores : (s.settle).stores = [] := rfl

/-! ### Readers after updates that do not touch what they read -/
@[simp] theorem setReg_flags (r : Reg) (v : Word) : (s.setReg r v).flags = s.flags := rfl
@[simp] theorem setReg_flagT (r : Reg) (v : Word) : (s.setReg r v).flagT = s.flagT := rfl
@[simp] theorem setReg_intMask (r : Reg) (v : Word) : (s.setReg r v).intMask = s.intMask := rfl
@[simp] theorem setReg_readByte (r : Reg) (v : Word) (a : Addr) : (s.setReg r v).readByte a = s.readByte a := rfl
@[simp] theorem setReg_wordAt (r : Reg) (v : Word) (a : Addr) : (s.setReg r v).wordAt a = s.wordAt a := rfl
@[simp] theorem setReg_phys (r : Reg) (v : Word) (p : Byte) (o : Word) : (s.setReg r v).phys p o = s.phys p o := rfl
@[simp] theorem setReg_pageOf (r : Reg) (v : Word) (q : Reg): (s.setReg r v).pageOf q = s.pageOf q := by cases q <;> rfl
@[simp] theorem setFlags_reg (f : Flags) (q : Reg) : (s.setFlags f).reg q = s.reg q := rfl
@[simp] theorem setFlags_readByte (f : Flags) (a : Addr) : (s.setFlags f).readByte a = s.readByte a := rfl
@[simp] theorem setFlags_wordAt (f : Flags) (a : Addr) : (s.setFlags f).wordAt a = s.wordAt a := rfl
@[simp] theorem setFlags_phys (f : Flags) (p : Byte) (o : Word) : (s.setFlags f).phys p o = s.phys p o := rfl
@[simp] theorem setFlags_pageOf (f : Flags) (q : Reg): (s.setFlags f).pageOf q = s.pageOf q := by cases q <;> rfl
@[simp] theorem setFlags_readReg (f : Flags) (sz : Size) (q : Reg) : (s.setFlags f).readReg sz q = s.readReg sz q := rfl
@[simp] theorem setSr_reg (v : Word) (q : Reg) : (s.setSr v).reg q = s.reg q := rfl
@[simp] theorem setSr_readByte (v : Word) (a : Addr) : (s.setSr v).readByte a = s.readByte a := rfl
@[simp] theorem setSr_wordAt (v : Word) (a : Addr) : (s.setSr v).wordAt a = s.wordAt a := rfl
@[simp] theorem setSr_phys (v : Word) (p : Byte) (o : Word) : (s.setSr v).phys p o = s.phys p o := rfl
@[simp] theorem setSr_pageOf (v : Word) (q : Reg): (s.setSr v).pageOf q = s.pageOf q := by cases q <;> rfl
@[simp] theorem setSr_readReg (v : Word) (sz : Size) (q : Reg) : (s.setSr v).readReg sz q = s.readReg sz q := rfl
@[simp] theorem setCcr_reg (v : Byte) (q : Reg) : (s.setCcr v).reg q = s.reg q := rfl
@[simp] theorem setCcr_readByte (v : Byte) (a : Addr) : (s.setCcr v).readByte a = s.readByte a := rfl
@[simp] theorem setCcr_wordAt (v : Byte) (a : Addr) : (s.setCcr v).wordAt a = s.wordAt a := rfl
@[simp] theorem setCcr_phys (v : Byte) (p : Byte) (o : Word) : (s.setCcr v).phys p o = s.phys p o := rfl
@[simp] theorem setCcr_pageOf (v : Byte) (q : Reg): (s.setCcr v).pageOf q = s.pageOf q := by cases q <;> rfl
@[simp] theorem setCcr_readReg (v : Byte) (sz : Size) (q : Reg) : (s.setCcr v).readReg sz q = s.readReg sz q := rfl
@[simp] theorem clearT_reg (q : Reg) : (s.clearT).reg q = s.reg q := rfl
@[simp] theorem clearT_readByte (a : Addr) : (s.clearT).readByte a = s.readByte a := rfl
@[simp] theorem clearT_wordAt (a : Addr) : (s.clearT).wordAt a = s.wordAt a := rfl
@[simp] theorem clearT_phys (p : Byte) (o : Word) : (s.clearT).phys p o = s.phys p o := rfl
@[simp] theorem clearT_pageOf (q : Reg): (s.clearT).pageOf q = s.pageOf q := by cases q <;> rfl
@[simp] theorem clearT_readReg (sz : Size) (q : Reg) : (s.clearT).readReg sz q = s.readReg sz q := rfl
@[simp] theorem setMask_reg (l : BitVec 3) (q : Reg) : (s.setMask l).reg q = s.reg q := rfl
@[simp] theorem setMask_readByte (l : BitVec 3) (a : Addr) : (s.setMask l).readByte a = s.readByte a := rfl
@[simp] theorem setMask_wordAt (l : BitVec 3) (a : Addr) : (s.setMask l).wordAt a = s.wordAt a := rfl
@[simp] theorem setMask_phys (l : BitVec 3) (p : Byte) (o : Word) : (s.setMask l).phys p o = s.phys p o := rfl
@[simp] theorem setMask_pageOf (l : BitVec 3) (q : Reg): (s.setMask l).pageOf q = s.pageOf q := by cases q <;> rfl
@[simp] theorem setMask_readReg (l : BitVec 3) (sz : Size) (q : Reg) : (s.setMask l).readReg sz q = s.readReg sz q := rfl
@[simp] theorem writeByte_reg (a : Addr) (v : Byte) (q : Reg) : (s.writeByte a v).reg q = s.reg q := rfl
@[simp] theorem writeByte_flags (a : Addr) (v : Byte) : (s.writeByte a v).flags = s.flags := rfl
@[simp] theorem writeByte_flagT (a : Addr) (v : Byte) : (s.writeByte a v).flagT = s.flagT := rfl
@[simp] theorem writeByte_intMask (a : Addr) (v : Byte) : (s.writeByte a v).intMask = s.intMask := rfl
@[simp] theorem writeByte_phys (a : Addr) (v : Byte) (p : Byte) (o : Word) : (s.writeByte a v).phys p o = s.phys p o := rfl
@[simp] theorem writeByte_pageOf (a : Addr) (v : Byte) (q : Reg): (s.writeByte a v).pageOf q = s.pageOf q := by cases q <;> rfl
@[simp] theorem writeByte_readReg (a : Addr) (v : Byte) (sz : Size) (q : Reg) : (s.writeByte a v).readReg sz q = s.readReg sz q := rfl
@[simp] theorem drawByte_reg (q : Reg) : (s.drawByte.2).reg q = s.reg q := rfl
@[simp] theorem drawByte_flags : (s.drawByte.2).flags = s.flags := rfl
@[simp] theorem drawByte_flagT : (s.drawByte.2).flagT = s.flagT := rfl
@[simp] theorem drawByte_intMask : (s.drawByte.2).intMask = s.intMask := rfl
@[simp] theorem drawByte_readByte (a : Addr) : (s.drawByte.2).readByte a = s.readByte a := rfl
@[simp] theorem drawByte_wordAt (a : Addr) : (s.drawByte.2).wordAt a = s.wordAt a := rfl
@[simp] theorem drawByte_phys (p : Byte) (o : Word) : (s.drawByte.2).phys p o = s.phys p o := rfl
@[simp] theorem drawByte_pageOf (q : Reg): (s.drawByte.2).pageOf q = s.pageOf q := by cases q <;> rfl
@[simp] theorem drawByte_readReg (sz : Size) (q : Reg) : (s.drawByte.2).readReg sz q = s.readReg sz q := rfl
@[simp] theorem jump_reg (v : Word) (q : Reg) : (s.jump v).reg q = s.reg q := rfl
@[simp] theorem jump_flags (v : Word) : (s.jump v).flags = s.flags := rfl
@[simp] theorem jump_flagT (v : Word) : (s.jump v).flagT = s.flagT := rfl
@[simp] theorem jump_intMask (v : Word) : (s.jump v).intMask = s.intMask := rfl
@[simp] theorem jump_readByte (v : Word) (a : Addr) : (s.jump v).readByte a = s.readByte a := rfl
@[simp] theorem jump_wordAt (v : Word) (a : Addr) : (s.jump v).wordAt a = s.wordAt a := rfl
@[simp] theorem jump_phys (v : Word) (p : Byte) (o : Word) : (s.jump v).phys p o = s.phys p o := rfl
@[simp] theorem jump_pageOf (v : Word) (q : Reg): (s.jump v).pageOf q = s.pageOf q := by cases q <;> rfl
@[simp] theorem jump_readReg (v : Word) (sz : Size) (q : Reg) : (s.jump v).readReg sz q = s.readReg sz q := rfl
@[simp] theorem branch_reg (d : Word) (q : Reg) : (s.branch d).reg q = s.reg q := rfl
@[simp] theorem branch_flags (d : Word) : (s.branch d).flags = s.flags := rfl
@[simp] theorem branch_flagT (d : Word) : (s.branch d).flagT = s.flagT := rfl
@[simp] theorem branch_intMask (d : Word) : (s.branch d).intMask = s.intMask := rfl
@[simp] theorem branch_readByte (d : Word) (a : Addr) : (s.branch d).readByte a = s.readByte a := rfl
@[simp] theorem branch_wordAt (d : Word) (a : Addr) : (s.branch d).wordAt a = s.wordAt a := rfl
@[simp] theorem branch_phys (d : Word) (p : Byte) (o : Word) : (s.branch d).phys p o = s.phys p o := rfl
@[simp] theorem branch_pageOf (d : Word) (q : Reg): (s.branch d).pageOf q = s.pageOf q := by cases q <;> rfl
@[simp] theorem branch_readReg (d : Word) (sz : Size) (q : Reg) : (s.branch d).readReg sz q = s.readReg sz q := rfl
@[simp] theorem pageJump_reg (p : Byte) (v : Word) (q : Reg) : (s.pageJump p v).reg q = s.reg q := rfl
@[simp] theorem pageJump_flags (p : Byte) (v : Word) : (s.pageJump p v).flags = s.flags := rfl
@[simp] theorem pageJump_flagT (p : Byte) (v : Word) : (s.pageJump p v).flagT = s.flagT := rfl
@[simp] theorem pageJump_intMask (p : Byte) (v : Word) : (s.pageJump p v).intMask = s.intMask := rfl
@[simp] theorem pageJump_readByte (p : Byte) (v : Word) (a : Addr) : (s.pageJump p v).readByte a = s.readByte a := rfl
@[simp] theorem pageJump_wordAt (p : Byte) (v : Word) (a : Addr) : (s.pageJump p v).wordAt a = s.wordAt a := rfl
@[simp] theorem pageJump_phys (p : Byte) (v : Word) (p' : Byte) (o : Word) : (s.pageJump p v).phys p' o = s.phys p' o := rfl
@[simp] theorem pageJump_pageOf (p : Byte) (v : Word) (q : Reg): (s.pageJump p v).pageOf q = s.pageOf q := by cases q <;> rfl
@[simp] theorem pageJump_readReg (p : Byte) (v : Word) (sz : Size) (q : Reg) : (s.pageJump p v).readReg sz q = s.readReg sz q := rfl
@[simp] theorem deferred_reg (q : Reg) : (s.deferred).reg q = s.reg q := rfl
@[simp] theorem deferred_flags : (s.deferred).flags = s.flags := rfl
@[simp] theorem deferred_flagT : (s.deferred).flagT = s.flagT := rfl
@[simp] theorem deferred_intMask : (s.deferred).intMask = s.intMask := rfl
@[simp] theorem deferred_readByte (a : Addr) : (s.deferred).readByte a = s.readByte a := rfl
@[simp] theorem deferred_wordAt (a : Addr) : (s.deferred).wordAt a = s.wordAt a := rfl
@[simp] theorem deferred_phys (p : Byte) (o : Word) : (s.deferred).phys p o = s.phys p o := rfl
@[simp] theorem deferred_pageOf (q : Reg): (s.deferred).pageOf q = s.pageOf q := by cases q <;> rfl
@[simp] theorem deferred_readReg (sz : Size) (q : Reg) : (s.deferred).readReg sz q = s.readReg sz q := rfl
@[simp] theorem begin_reg (n : Nat) (q : Reg) : (s.begin n).reg q = s.reg q := rfl
@[simp] theorem begin_flags (n : Nat) : (s.begin n).flags = s.flags := rfl
@[simp] theorem begin_flagT (n : Nat) : (s.begin n).flagT = s.flagT := rfl
@[simp] theorem begin_intMask (n : Nat) : (s.begin n).intMask = s.intMask := rfl
@[simp] theorem begin_readByte (n : Nat) (a : Addr) : (s.begin n).readByte a = s.readByte a := rfl
@[simp] theorem begin_wordAt (n : Nat) (a : Addr) : (s.begin n).wordAt a = s.wordAt a := rfl
@[simp] theorem begin_phys (n : Nat) (p : Byte) (o : Word) : (s.begin n).phys p o = s.phys p o := rfl
@[simp] theorem begin_pageOf (n : Nat) (q : Reg): (s.begin n).pageOf q = s.pageOf q := by cases q <;> rfl
@[simp] theorem begin_readReg (n : Nat) (sz : Size) (q : Reg) : (s.begin n).readReg sz q = s.readReg sz q := rfl
@[simp] theorem settle_reg (q : Reg) : (s.settle).reg q = s.reg q := rfl
@[simp] theorem settle_flags : (s.settle).flags = s.flags := rfl
@[simp] theorem settle_flagT : (s.settle).flagT = s.flagT := rfl
@[simp] theorem settle_intMask : (s.settle).intMask = s.intMask := rfl
@[simp] theorem settle_readByte (a : Addr) : (s.settle).readByte a = s.readByte a := rfl
@[simp] theorem settle_wordAt (a : Addr) : (s.settle).wordAt a = s.wordAt a := rfl
@[simp] theorem settle_phys (p : Byte) (o : Word) : (s.settle).phys p o = s.phys p o := rfl
@[simp] theorem settle_pageOf (q : Reg): (s.settle).pageOf q = s.pageOf q := by cases q <;> rfl
@[simp] theorem settle_readReg (sz : Size) (q : Reg) : (s.settle).readReg sz q = s.readReg sz q := rfl

end Sys2Proof.Machine
end

