-- ==== Sys2Proof/Laws/Memory.lean ====
section
/-! SUPPORT. Memory: every operation keeps the canonical form, and a read after a write. -/

namespace Sys2Proof.Machine

/-! ### The list -/

theorem wfFrom_mono {lo lo' : Nat} {m : Memory} (h : m.wfFrom lo = true) (hl : lo' ≤ lo) : m.wfFrom lo' = true := by
  cases m with
  | nil => rfl
  | cons e m =>
    simp only [Memory.wfFrom, Bool.and_eq_true, decide_eq_true_eq] at h ⊢
    exact ⟨⟨⟨by omega, h.1.1.2⟩, h.1.2⟩, h.2⟩

/-- Below the first entry nothing is listed. -/
theorem readAt_below {lo a : Nat} {m : Memory} (h : m.wfFrom lo = true) (ha : a < lo) : m.readAt a = Memory.unlisted := by
  induction m generalizing lo with
  | nil => rfl
  | cons e m ih =>
    obtain ⟨k, b⟩ := e
    simp only [Memory.wfFrom, Bool.and_eq_true, decide_eq_true_eq] at h
    simp only [Memory.readAt, if_neg (show ¬k = a by omega)]
    exact ih h.2 (by omega)

theorem wfFrom_cons {lo a : Nat} {b : Byte} {m : Memory} (h : m.wfFrom (a + 1) = true) (hl : lo ≤ a) (ha : a < 2 ^ 24) :
    (Memory.cons a b m).wfFrom lo = true := by
  unfold Memory.cons
  split
  · exact wfFrom_mono h (by omega)
  · simp only [Memory.wfFrom, Bool.and_eq_true, decide_eq_true_eq]
    exact ⟨⟨⟨hl, ha⟩, ‹_›⟩, h⟩

/-- A write keeps the canonical form. -/
theorem wfFrom_writeAt {lo a : Nat} {b : Byte} {m : Memory} (h : m.wfFrom lo = true) (hl : lo ≤ a) (ha : a < 2 ^ 24) :
    (m.writeAt a b).wfFrom lo = true := by
  induction m generalizing lo with
  | nil => exact wfFrom_cons rfl hl ha
  | cons e m ih =>
    obtain ⟨k, c⟩ := e
    have h' := h
    simp only [Memory.wfFrom, Bool.and_eq_true, decide_eq_true_eq] at h'
    obtain ⟨⟨⟨h1, h2⟩, h3⟩, h4⟩ := h'
    simp only [Memory.writeAt]
    split
    · apply wfFrom_cons _ hl ha
      simp only [Memory.wfFrom, Bool.and_eq_true, decide_eq_true_eq]
      exact ⟨⟨⟨by omega, h2⟩, h3⟩, h4⟩
    · split
      · subst_vars; exact wfFrom_cons h4 hl ha
      · simp only [Memory.wfFrom, Bool.and_eq_true, decide_eq_true_eq]
        exact ⟨⟨⟨h1, h2⟩, h3⟩, ih h4 (by omega)⟩

theorem readAt_cons {a x : Nat} {b : Byte} {m : Memory} (h : m.wfFrom (a + 1) = true) :
    (Memory.cons a b m).readAt x = if x = a then b else m.readAt x := by
  unfold Memory.cons
  split
  · split
    · subst_vars; exact readAt_below h (by omega)
    · rfl
  · simp only [Memory.readAt, eq_comm]

/-- A read after a write: the value written there, and what was there before elsewhere. -/
theorem readAt_writeAt {lo a x : Nat} {b : Byte} {m : Memory} (h : m.wfFrom lo = true) :
    (m.writeAt a b).readAt x = if x = a then b else m.readAt x := by
  induction m generalizing lo with
  | nil => exact readAt_cons rfl
  | cons e m ih =>
    obtain ⟨k, c⟩ := e
    have h' := h
    simp only [Memory.wfFrom, Bool.and_eq_true, decide_eq_true_eq] at h'
    obtain ⟨⟨⟨h1, h2⟩, h3⟩, h4⟩ := h'
    simp only [Memory.writeAt]
    split
    · apply readAt_cons
      simp only [Memory.wfFrom, Bool.and_eq_true, decide_eq_true_eq]
      exact ⟨⟨⟨by omega, h2⟩, h3⟩, h4⟩
    · split
      · subst_vars
        rw [readAt_cons h4]
        simp only [Memory.readAt]
        by_cases hx : x = k
        · simp [hx]
        · simp [hx, Ne.symm hx]
      · simp only [Memory.readAt, ih h4]
        by_cases hk : k = x
        · subst hk; simp [show ¬k = a by omega]
        · simp [hk]

/-- A write leaves every other byte, whatever the memory. -/
theorem readAt_writeAt_ne {a x : Nat} (h : x ≠ a) (b : Byte) (m : Memory) : (m.writeAt a b).readAt x = m.readAt x := by
  have hc : ∀ m : Memory, (Memory.cons a b m).readAt x = m.readAt x := by
    intro m
    unfold Memory.cons
    split
    · rfl
    · simp [Memory.readAt, Ne.symm h]
  induction m with
  | nil => exact hc []
  | cons e m ih =>
    obtain ⟨k, c⟩ := e
    unfold Memory.writeAt
    split
    · exact hc _
    · split
      · rename_i hk; simp [hc, Memory.readAt, ← hk, Ne.symm h]
      · simp only [Memory.readAt]; split <;> first | rfl | exact ih

/-! ### The machine -/

theorem wf_writeByte {s : State} (h : s.mem.wf = true) (a : Addr) (v : Byte) : (s.writeByte a v).mem.wf = true :=
  wfFrom_writeAt h (Nat.zero_le _) a.isLt

theorem readByte_writeByte {s : State} (h : s.mem.wf = true) (a x : Addr) (v : Byte) :
    (s.writeByte a v).readByte x = if x = a then v else s.readByte x := by
  simp only [State.readByte, writeByte_mem, readAt_writeAt h]
  by_cases hx : x = a
  · simp [hx]
  · simp [hx, BitVec.toNat_inj]

theorem readByte_writeByte_self {s : State} (h : s.mem.wf = true) (a : Addr) (v : Byte) :
    (s.writeByte a v).readByte a = v := by simp [readByte_writeByte h]

theorem readByte_writeByte_ne {s : State} (h : s.mem.wf = true) {a x : Addr} (v : Byte) (hx : x ≠ a) :
    (s.writeByte a v).readByte x = s.readByte x := by simp [readByte_writeByte h, hx]

/-! ### Words -/

theorem readWord_even {s : State} {a : Addr} (h : odd a = false) : s.readWord a = (s.wordAt a, s) := by
  simp [State.readWord, h]

theorem writeWord_even {s : State} {a : Addr} (v : Word) (h : odd a = false) :
    s.writeWord a v = (s.writeByte a (hiByte v)).writeByte (a + 1) (loByte v) := by simp [State.writeWord, h]

theorem wf_scribble {s : State} (h : s.mem.wf = true) (a : Addr) : (s.scribble a).mem.wf = true :=
  wfFrom_writeAt h (Nat.zero_le _) a.isLt

theorem wf_writeWord {s : State} (h : s.mem.wf = true) (a : Addr) (v : Word) : (s.writeWord a v).mem.wf = true := by
  unfold State.writeWord
  split
  · exact wf_scribble (wf_scribble (wf_scribble (s := { s with aerr := true }) h _) _) _
  · exact wf_writeByte (wf_writeByte h _ _) _ _

/-! ### Halves of a word -/

theorem hiByte_append_loByte (v : Word) : hiByte v ++ loByte v = v := by
  apply BitVec.eq_of_getLsbD_eq
  intro i hi
  simp only [hiByte, loByte, BitVec.getLsbD_append, BitVec.getLsbD_extractLsb']
  by_cases h : i < 8
  · simp [h]
  · simp [h, show i - 8 < 8 by omega, show 8 + (i - 8) = i by omega]

@[simp] theorem hiByte_append (a b : Byte) : hiByte (a ++ b) = a := by
  apply BitVec.eq_of_getLsbD_eq
  intro i hi
  simp only [hiByte, BitVec.getLsbD_extractLsb', BitVec.getLsbD_append]
  simp [show ¬8 + i < 8 by omega, show 8 + i - 8 = i by omega, hi]

@[simp] theorem loByte_append (a b : Byte) : loByte (a ++ b) = b := by
  apply BitVec.eq_of_getLsbD_eq
  intro i hi
  simp only [loByte, BitVec.getLsbD_extractLsb', BitVec.getLsbD_append]
  simp [hi]

theorem setWidth_append (a b : Byte) : (a ++ b : Word).setWidth 8 = b := by
  apply BitVec.eq_of_getLsbD_eq
  intro i hi
  simp only [BitVec.getLsbD_setWidth, BitVec.getLsbD_append]
  simp [hi]

theorem addr_succ_ne (a : Addr) : a + 1 ≠ a := by simp

end Sys2Proof.Machine
end

