-- ==== Sys2Proof/Laws/Ops.lean ====
section
/-! SUPPORT. Registers, status bits, addresses and the stack: what each shared operation does, said once. -/

namespace Sys2Proof.Machine

/-! ### Registers -/

/-- A register file after a write of one register. -/
theorem regs_get_set (g : Regs) (r q : Reg) (v : Word) : (g.set r v).get q = if q = r then v else g.get q := by
  cases r <;> cases q <;> rfl

/-- A register after a write of a register. -/
theorem reg_setReg (s : State) (r q : Reg) (v : Word) : (s.setReg r v).reg q = if q = r then v else s.reg q :=
  regs_get_set s.regs r q v

@[simp] theorem reg_setReg_self (s : State) (r : Reg) (v : Word) : (s.setReg r v).reg r = v := by simp [reg_setReg]

theorem reg_setReg_ne (s : State) {r q : Reg} (v : Word) (h : q ≠ r) : (s.setReg r v).reg q = s.reg q := by
  simp [reg_setReg, h]

/-- A register after a write of a register at the operand size. -/
theorem reg_writeReg (s : State) (sz : Size) (r q : Reg) (v : BitVec sz.bits) :
    (s.writeReg sz r v).reg q = if q = r then mergeReg sz (s.reg r) v else s.reg q := reg_setReg s r q _

/-- What a write at the operand size leaves is what a read at that size gives. -/
theorem setWidth_mergeReg (sz : Size) (old : Word) (v : BitVec sz.bits) : (mergeReg sz old v).setWidth sz.bits = v := by
  cases sz
  · exact setWidth_append _ _
  · exact BitVec.setWidth_eq v

/-! ### Single bits -/

/-- A bit after one bit has been put. -/
theorem getLsbD_putBit (v : BitVec n) (i j : Nat) (b : Bool) :
    (putBit v i b).getLsbD j = if j = i ∧ i < n then b else v.getLsbD j := by
  unfold putBit
  by_cases hn : i < n <;> by_cases h : j = i <;> cases b <;>
    simp_all [BitVec.getLsbD_or, BitVec.getLsbD_and, BitVec.getLsbD_not, BitVec.getLsbD_twoPow] <;>
    first
    | omega
    | (intro hj; first | exact BitVec.lt_of_getLsbD hj | exact ⟨BitVec.lt_of_getLsbD hj, fun e => h e.symm⟩)

/-- A bit of SR after the condition codes have been put. -/
theorem getLsbD_srWithFlags (sr : Word) (f : Flags) (i : Nat) :
    (srWithFlags sr f).getLsbD i =
      if i = 0 then f.c else if i = 1 then f.v else if i = 2 then f.z else if i = 3 then f.n else sr.getLsbD i := by
  simp [srWithFlags, getLsbD_putBit]

/-- A bit of SR after the mask has been put. -/
theorem getLsbD_srWithMask (sr : Word) (l : BitVec 3) (i : Nat) :
    (srWithMask sr l).getLsbD i =
      if i = 8 then l.getLsbD 0 else if i = 9 then l.getLsbD 1 else if i = 10 then l.getLsbD 2 else sr.getLsbD i := by
  simp [srWithMask, getLsbD_putBit]

/-- A state whose SR is the old one with condition codes put has these condition codes. -/
theorem flagsBecome_of_sr {s t : State} {f : Flags} (h : t.sr = srWithFlags s.sr f) : FlagsBecome s t f := by
  refine ⟨?_, fun i hi => ?_⟩
  · simp only [State.flags, h, getLsbD_srWithFlags]; rfl
  · rw [h, getLsbD_srWithFlags, if_neg (by omega), if_neg (by omega), if_neg (by omega), if_neg (by omega)]

/-- A state with the same SR has the same condition codes. -/
theorem flagsBecome_same {s t : State} (h : t.sr = s.sr) : FlagsBecome s t s.flags :=
  ⟨by simp [State.flags, h], fun _ _ => by rw [h]⟩

/-! ### Addresses -/

theorem odd_iff (a : BitVec n) : odd a = true ↔ a.toNat % 2 = 1 := by
  simp [odd, BitVec.getLsbD, Nat.testBit_zero]

theorem even_iff (a : BitVec n) : odd a = false ↔ a.toNat % 2 = 0 := by
  rw [← Bool.not_eq_true, odd_iff]; omega

/-- A physical address in numbers. -/
theorem toNat_phys (s : State) (p : Byte) (off : Word) :
    (s.phys p off).toNat = (match s.mode with | .minimum => 0 | .maximum => p.toNat * 65536) + off.toNat := by
  have ho := off.isLt
  unfold State.phys
  cases s.mode
  · simp only [BitVec.toNat_append, Nat.shiftLeft_eq]
    simp
  · simp only [BitVec.toNat_append, Nat.shiftLeft_eq]
    rw [Nat.mul_comm, ← Nat.two_pow_add_eq_or_of_lt (by simpa using ho)]

/-- The parity of a physical address is that of its offset. -/
theorem odd_phys (s : State) (p : Byte) (off : Word) : odd (s.phys p off) = odd off := by
  have h : (s.phys p off).toNat % 2 = off.toNat % 2 := by
    rw [toNat_phys]; cases s.mode
    · simp
    · simp; omega
  cases h1 : odd off <;> simp only [odd_iff, even_iff] at h1 ⊢ <;> omega

theorem phys_inj (s : State) (p : Byte) {a b : Word} (h : s.phys p a = s.phys p b) : a = b := by
  have := congrArg BitVec.toNat h
  rw [toNat_phys, toNat_phys] at this
  exact BitVec.eq_of_toNat_eq (by omega)

/-- The words at two even addresses do not overlap. -/
theorem even_words_apart {a b : Addr} (ha : odd a = false) (hb : odd b = false) (h : a ≠ b) :
    a ≠ b + 1 ∧ a + 1 ≠ b ∧ a + 1 ≠ b + 1 := by
  rw [even_iff] at ha hb
  refine ⟨fun e => ?_, fun e => ?_, fun e => h ?_⟩
  · have := congrArg BitVec.toNat e; rw [BitVec.toNat_add] at this; simp at this; omega
  · have := congrArg BitVec.toNat e; rw [BitVec.toNat_add] at this; simp at this; omega
  · exact BitVec.add_left_inj (z := 1) |>.mp e

/-! ### Words in memory -/

/-- What a word write at an even address leaves as it was, apart from memory. -/
structure SameButMemory (s t : State) : Prop where
  regs : t.regs = s.regs
  pc : t.pc = s.pc
  sr : t.sr = s.sr
  control : SameControl s t

theorem SameControl.refl (s : State) : SameControl s s := by constructor <;> rfl

theorem SameControl.trans {s t u : State} (h : SameControl s t) (k : SameControl t u) : SameControl s u :=
  ⟨k.cp.trans h.cp, k.dp.trans h.dp, k.ep.trans h.ep, k.tp.trans h.tp, k.br.trans h.br, k.mode.trans h.mode,
    k.cpuState.trans h.cpuState, k.ssby.trans h.ssby, k.defer.trans h.defer, k.aerr.trans h.aerr,
    k.nmiRequest.trans h.nmiRequest, k.pending.trans h.pending, k.resLow.trans h.resLow, k.stbyLow.trans h.stbyLow,
    k.breqLow.trans h.breqLow, k.modePins.trans h.modePins, k.chip.trans h.chip, k.insAddr.trans h.insAddr⟩

theorem sameControl_setReg (s : State) (r : Reg) (v : Word) : SameControl s (s.setReg r v) := by constructor <;> rfl

theorem sameControl_setFlags (s : State) (f : Flags) : SameControl s (s.setFlags f) := by constructor <;> rfl

theorem sameControl_setSr (s : State) (v : Word) : SameControl s (s.setSr v) := by constructor <;> rfl

theorem sameControl_writeByte (s : State) (a : Addr) (v : Byte) : SameControl s (s.writeByte a v) := by
  constructor <;> rfl

theorem sameControl_drawByte (s : State) : SameControl s s.drawByte.2 := by constructor <;> rfl

/-- A word write at an even address changes memory only. -/
theorem writeWord_same (s : State) {a : Addr} (v : Word) (h : odd a = false) : SameButMemory s (s.writeWord a v) := by
  rw [writeWord_even v h]
  refine ⟨rfl, rfl, rfl, ?_⟩
  constructor <;> rfl

/-- The word written at an even address is read back. -/
theorem wordAt_writeWord_self {s : State} (hw : s.mem.wf = true) {a : Addr} (v : Word) (h : odd a = false) :
    (s.writeWord a v).wordAt a = v := by
  have hw' := wf_writeByte hw a (hiByte v)
  rw [writeWord_even v h, State.wordAt, readByte_writeByte hw', readByte_writeByte hw', readByte_writeByte hw]
  simp [hiByte_append_loByte]

/-- A word write at an even address leaves every other byte alone. -/
theorem readByte_writeWord_ne {s : State} (hw : s.mem.wf = true) {a x : Addr} (v : Word) (h : odd a = false)
    (h0 : x ≠ a) (h1 : x ≠ a + 1) : (s.writeWord a v).readByte x = s.readByte x := by
  rw [writeWord_even v h, readByte_writeByte (wf_writeByte hw _ _), readByte_writeByte hw, if_neg h1, if_neg h0]

/-- A word write at an even address leaves the word at every other even address alone. -/
theorem wordAt_writeWord_ne {s : State} (hw : s.mem.wf = true) {a b : Addr} (v : Word) (ha : odd a = false)
    (hb : odd b = false) (h : b ≠ a) : (s.writeWord a v).wordAt b = s.wordAt b := by
  obtain ⟨h1, h2, h3⟩ := even_words_apart hb ha h
  rw [State.wordAt, State.wordAt, readByte_writeWord_ne hw v ha h h1, readByte_writeWord_ne hw v ha h2 h3]

/-- A word write at an odd address notes an address error. -/
theorem writeWord_odd_aerr (s : State) {a : Addr} (v : Word) (h : odd a = true) : (s.writeWord a v).aerr = true := by
  simp [State.writeWord, h, State.scribble]

/-- A word write at an odd address notes no store. -/
theorem writeWord_odd_stores (s : State) {a : Addr} (v : Word) (h : odd a = true) :
    (s.writeWord a v).stores = s.stores := by
  simp [State.writeWord, h, State.scribble, State.drawByte]

/-! ### The stack -/

theorem even_sub_two {w : Word} (h : odd w = false) : odd (w - 2) = false := by
  rw [even_iff] at h ⊢; rw [BitVec.toNat_sub]; simp; omega

theorem even_add_two {w : Word} (h : odd w = false) : odd (w + 2) = false := by
  rw [even_iff] at h ⊢; rw [BitVec.toNat_add]; simp; omega

/-- What a push does with an even R7. -/
structure Pushed (s t : State) (v : Word) : Prop where
  regs : ∀ r, t.reg r = if r = .r7 then s.reg .r7 - 2 else s.reg r
  pc : t.pc = s.pc
  sr : t.sr = s.sr
  control : SameControl s t
  wf : t.mem.wf = true
  word : t.wordAt (s.phys s.tp (s.reg .r7 - 2)) = v
  bytes : ∀ x, x ≠ s.phys s.tp (s.reg .r7 - 2) → x ≠ s.phys s.tp (s.reg .r7 - 2) + 1 → t.readByte x = s.readByte x

/-- `push16` with an even R7. -/
theorem pushed_push16 {s : State} (v : Word) (hw : s.mem.wf = true) (h : odd (s.reg .r7) = false) :
    Pushed s (s.push16 v) v := by
  have ha : odd (s.phys s.tp (s.reg .r7 - 2)) = false := by rw [odd_phys]; exact even_sub_two h
  have e : s.push16 v = (s.setReg .r7 (s.reg .r7 - 2)).writeWord (s.phys s.tp (s.reg .r7 - 2)) v := by
    simp [State.push16, State.stackTop]
  rw [e]
  have hs := writeWord_same (s.setReg .r7 (s.reg .r7 - 2)) v ha
  refine ⟨fun r => ?_, hs.pc, hs.sr, (sameControl_setReg _ _ _).trans hs.control, wf_writeWord (s := s.setReg .r7 (s.reg .r7 - 2)) hw _ _,
    wordAt_writeWord_self (s := s.setReg .r7 (s.reg .r7 - 2)) hw v ha,
    fun x h0 h1 => readByte_writeWord_ne (s := s.setReg .r7 (s.reg .r7 - 2)) hw v ha h0 h1⟩
  rw [State.reg, hs.regs]
  exact reg_setReg s .r7 r _

/-- `push16` with an odd R7 notes an address error. -/
theorem push16_odd_aerr {s : State} (v : Word) (h : odd (s.reg .r7) = true) : (s.push16 v).aerr = true := by
  refine writeWord_odd_aerr _ _ ?_
  rw [State.stackTop, odd_phys, reg_setReg_self, odd_iff, BitVec.toNat_sub]
  rw [odd_iff] at h
  simp; omega

/-- `pop16` with an even R7: the word at the top, and R7 two higher. -/
theorem pop16_even {s : State} (h : odd (s.reg .r7) = false) :
    s.pop16 = (s.wordAt s.stackTop, s.setReg .r7 (s.reg .r7 + 2)) := by
  have ha : odd s.stackTop = false := by rw [State.stackTop, odd_phys]; exact h
  simp [State.pop16, readWord_even ha]

/-- `pop16` with an odd R7 notes an address error. -/
theorem pop16_odd_aerr {s : State} (h : odd (s.reg .r7) = true) : s.pop16.2.aerr = true := by
  have ha : odd s.stackTop = true := by rw [State.stackTop, odd_phys]; exact h
  simp [State.pop16, State.readWord, ha]

end Sys2Proof.Machine
end

