-- ==== Sys2Proof/Laws/Stack.lean ====
section
/-! SUPPORT. The stack over several words: what a row of pushes leaves, and what a row of pops reads. -/

namespace Sys2Proof.Machine

theorem word_sub_sub (a b c : Word) : a - b - c = a - (b + c) := by bv_omega

/-! ### Rows of pushes -/

/-- What a row of pushes from an even R7 leaves: the words below it, the first pushed highest. -/
structure Pushes (s t : State) (ws : List Word) : Prop where
  regs : ∀ r, t.reg r = s.withSp (s.reg .r7 - BitVec.ofNat 16 (2 * ws.length)) r
  pc : t.pc = s.pc
  sr : t.sr = s.sr
  control : SameControl s t
  wf : t.mem.wf = true
  words : ∀ k w, ws[k]? = some w → t.wordAt (s.pushSlot (k + 1)) = w
  bytes : SameMemoryBut s t (s.pushBytes ws.length)

theorem pushes_nil {s : State} (hw : s.mem.wf = true) : Pushes s s [] := by
  refine ⟨fun r => ?_, rfl, rfl, SameControl.refl s, hw, fun k w h => by simp at h, fun _ _ => rfl⟩
  simp only [State.withSp]
  split_ifs with h
  · subst h; simp
  · rfl

/-- Two offsets from R7 within its range are the same only where they are equal. -/
theorem pushSlot_inj {s : State} {j k : Nat} (hj : j < 32768) (hk : k < 32768) (h : s.pushSlot j = s.pushSlot k) :
    j = k := by
  have e := phys_inj s s.tp h
  have e' : BitVec.ofNat 16 (2 * j) = BitVec.ofNat 16 (2 * k) := by
    have := congrArg (fun x => s.reg .r7 - x) e
    simpa [BitVec.sub_eq_add_neg, BitVec.neg_add] using this
  have := congrArg BitVec.toNat e'
  simp only [BitVec.toNat_ofNat] at this
  omega

theorem odd_pushSlot {s : State} (h : odd (s.reg .r7) = false) (k : Nat) : odd (s.pushSlot k) = false := by
  rw [State.pushSlot, odd_phys, even_iff, BitVec.toNat_sub]
  rw [even_iff] at h
  simp only [BitVec.toNat_ofNat]
  omega

theorem pushBytes_succ (s : State) (n : Nat) :
    s.pushBytes (n + 1) = s.pushBytes n ++ [s.pushSlot (n + 1), s.pushSlot (n + 1) + 1] := by
  simp [State.pushBytes, List.range_succ]

/-- The slot of the next push. -/
theorem Pushes.slot {s t : State} {ws : List Word} (h : Pushes s t ws) :
    t.phys t.tp (t.reg .r7 - 2) = s.pushSlot (ws.length + 1) := by
  have e : t.reg .r7 - 2 = s.reg .r7 - BitVec.ofNat 16 (2 * (ws.length + 1)) := by
    rw [h.regs, State.withSp, if_pos rfl, show 2 * (ws.length + 1) = 2 * ws.length + 2 by omega, BitVec.ofNat_add]
    rw [word_sub_sub]
    rfl
  rw [e, State.pushSlot, State.phys, State.phys, h.control.mode, h.control.tp]

/-- One more push. -/
theorem Pushes.snoc {s t u : State} {ws : List Word} {v : Word} (h : Pushes s t ws) (p : Pushed t u v)
    (he : odd (s.reg .r7) = false) (hn : ws.length < 32000) : Pushes s u (ws ++ [v]) := by
  have hs := h.slot
  refine ⟨fun r => ?_, p.pc.trans h.pc, p.sr.trans h.sr, h.control.trans p.control, p.wf, fun k w hk => ?_, fun x hx => ?_⟩
  · rw [p.regs, h.regs, h.regs]
    simp only [State.withSp, List.length_append, List.length_cons, List.length_nil]
    split_ifs with hr
    · rw [word_sub_sub, show 2 * (ws.length + (0 + 1)) = 2 * ws.length + 2 by omega, BitVec.ofNat_add]
      rfl
    · rfl
  · by_cases hl : k < ws.length
    · rw [List.getElem?_append_left hl] at hk
      rw [← h.words k w hk]
      have hne : s.pushSlot (k + 1) ≠ s.pushSlot (ws.length + 1) := fun e => by
        have := pushSlot_inj (by omega) (by omega) e
        omega
      obtain ⟨h1, h2, h3⟩ := even_words_apart (odd_pushSlot he _) (odd_pushSlot he _) hne
      rw [State.wordAt, State.wordAt, p.bytes _ (hs ▸ hne) (hs ▸ h1), p.bytes _ (hs ▸ h2) (hs ▸ h3)]
    · have hk' : k = ws.length := by
        have := (List.getElem?_eq_some_iff.mp hk).1
        simp at this; omega
      subst hk'
      simp only [List.getElem?_append_right (Nat.le_refl _), Nat.sub_self, List.getElem?_cons_zero, Option.some.injEq] at hk
      rw [← hs, p.word, hk]
  · simp only [List.length_append, List.length_cons, List.length_nil, Nat.zero_add, pushBytes_succ, List.mem_append,
      List.mem_cons, List.not_mem_nil, or_false, not_or] at hx
    rw [p.bytes _ (hs ▸ hx.2.1) (hs ▸ hx.2.2), h.bytes _ hx.1]

/-- The stack pointer stays even through a row of pushes. -/
theorem Pushes.even {s t : State} {ws : List Word} (h : Pushes s t ws) (he : odd (s.reg .r7) = false) :
    odd (t.reg .r7) = false := by
  rw [h.regs, State.withSp, if_pos rfl, even_iff, BitVec.toNat_sub]
  rw [even_iff] at he
  simp only [BitVec.toNat_ofNat]
  omega

/-- A push after a row of pushes. -/
theorem Pushes.push16 {s t : State} {ws : List Word} (h : Pushes s t ws) (v : Word) (he : odd (s.reg .r7) = false)
    (hn : ws.length < 32000) : Pushes s (t.push16 v) (ws ++ [v]) :=
  h.snoc (pushed_push16 v h.wf (h.even he)) he hn

/-- A byte pushed after a row of pushes: its upper half is free. -/
theorem Pushes.pushByte {s t : State} {ws : List Word} (h : Pushes s t ws) (v : Byte) (he : odd (s.reg .r7) = false)
    (hn : ws.length < 32000) : Pushes s (t.pushByte v) (ws ++ [Config.freeByte t.draws ++ v]) :=
  have h' : Pushes s t.drawByte.2 ws :=
    ⟨h.regs, h.pc, h.sr, h.control.trans (sameControl_drawByte t), h.wf, h.words, h.bytes⟩
  h'.push16 _ he hn

/-- The words an exception pushes. -/
def frameOf (s : State) (stackedPc : Word) (fresh : Byte) : List Word :=
  match s.mode with
  | .minimum => [stackedPc, s.sr]
  | .maximum => [stackedPc, fresh ++ s.cp, s.sr]

/-- The pushes of an exception. -/
theorem pushes_pushFrame {s : State} (p : Word) (hw : s.mem.wf = true) (he : odd (s.reg .r7) = false) :
    ∃ b, Pushes s (s.pushFrame p) (frameOf s p b) := by
  have h1 : Pushes s (s.push16 p) [p] := (pushes_nil hw).push16 p he (by simp)
  unfold State.pushFrame State.pushCpInMaximum frameOf
  cases hm : s.mode
  · simp only [h1.control.mode, hm]
    have h2 := h1.push16 (s.push16 p).sr he (by simp)
    rw [h1.sr] at h2 ⊢
    exact ⟨0, h2⟩
  · simp only [h1.control.mode, hm]
    have h2 := h1.pushByte (s.push16 p).cp he (by simp)
    have h3 := h2.push16 ((s.push16 p).pushByte (s.push16 p).cp).sr he (by simp)
    rw [h2.sr] at h3 ⊢
    simp only [h1.control.cp] at h3 ⊢
    exact ⟨_, h3⟩

/-- What STM pushes for a register (40_data_transfer.md R181). -/
theorem pushReg_eq (s : State) (r : Reg) :
    s.pushReg r = s.push16 (if r = .r7 then s.reg .r7 - 2 else s.reg r) := by
  simp only [State.pushReg, State.push16, reg_setReg]

/-! ### Pops -/

/-- What a pop with an even R7 leaves, whatever then takes the word. -/
theorem pop16_stackWord {s : State} (h : odd (s.reg .r7) = false) :
    s.pop16 = (s.stackWord 0, s.setReg .r7 (s.reg .r7 + 2)) := by
  rw [pop16_even h, State.stackWord, State.stackTop]
  simp

/-- The words on the stack after one of them has been taken. -/
theorem stackWord_succ {s t : State} (hm : t.mem = s.mem) (hp : t.tp = s.tp) (ho : t.mode = s.mode)
    (hr : t.reg .r7 = s.reg .r7 + 2) (k : Nat) : t.stackWord k = s.stackWord (k + 1) := by
  have e : t.reg .r7 + BitVec.ofNat 16 (2 * k) = s.reg .r7 + BitVec.ofNat 16 (2 * (k + 1)) := by
    rw [hr, show 2 * (k + 1) = 2 + 2 * k by omega, BitVec.ofNat_add, BitVec.add_assoc]; rfl
  rw [State.stackWord, State.stackWord, e, State.phys, State.phys, ho, hp, State.wordAt, State.wordAt, State.readByte,
    State.readByte, State.readByte, State.readByte, hm]

end Sys2Proof.Machine
end

