-- ==== Sys2Proof/Laws/Exceptions.lean ====
section
/-! SUPPORT. Taking an exception after its pushes, and returning from one. -/

namespace Sys2Proof.Machine

/-! ### SR -/

/-- Words that agree in the reserved bits, bit by bit. -/
theorem reserved_eq {v w : Word} (h : ∀ i, i < 16 → srMask.getLsbD i = false → v.getLsbD i = w.getLsbD i) :
    v &&& ~~~srMask = w &&& ~~~srMask := by
  apply BitVec.eq_of_getLsbD_eq
  intro i hi
  simp only [BitVec.getLsbD_and, BitVec.getLsbD_not, decide_eq_true hi, Bool.true_and]
  cases hm : srMask.getLsbD i
  · rw [h i hi hm]
  · simp

/-- The condition codes are no reserved bits. -/
theorem reserved_srWithFlags (sr : Word) (f : Flags) : srWithFlags sr f &&& ~~~srMask = sr &&& ~~~srMask := by
  refine reserved_eq fun i hi hm => ?_
  rw [getLsbD_srWithFlags]
  split_ifs with h0 h1 h2 h3 <;> first | rfl | (subst_vars; exact absurd hm (by decide))

/-- SR after the sequence of an exception: T cleared, the mask raised where the exception raises it
(60_exceptions.md R382). -/
def enteredSr (sr : Word) : Option (BitVec 3) → Word
  | none => putBit sr 15 false
  | some l => srWithMask (putBit sr 15 false) l

theorem getLsbD_enteredSr (sr : Word) (m : Option (BitVec 3)) (i : Nat) :
    (enteredSr sr m).getLsbD i = if i = 15 then false else
      match m with
      | none => sr.getLsbD i
      | some l => if i = 8 then l.getLsbD 0 else if i = 9 then l.getLsbD 1 else if i = 10 then l.getLsbD 2 else sr.getLsbD i := by
  cases m
  · simp only [enteredSr, getLsbD_putBit]; split_ifs <;> first | rfl | omega
  · simp only [enteredSr, getLsbD_srWithMask, getLsbD_putBit]; split_ifs <;> first | rfl | omega

theorem reserved_enteredSr (sr : Word) (m : Option (BitVec 3)) :
    enteredSr sr m &&& ~~~srMask = sr &&& ~~~srMask := by
  refine reserved_eq fun i hi hm => ?_
  rw [getLsbD_enteredSr]
  cases m
  · dsimp only; split_ifs with h <;> first | rfl | (subst h; exact absurd hm (by decide))
  · dsimp only
    split_ifs with h0 h1 h2 h3 <;> first | rfl | (subst_vars; exact absurd hm (by decide))

theorem mask_enteredSr (sr : Word) (m : Option (BitVec 3)) :
    (enteredSr sr m).extractLsb' 8 3 = m.getD (sr.extractLsb' 8 3) := by
  apply BitVec.eq_of_getLsbD_eq
  intro i hi
  rw [BitVec.getLsbD_extractLsb', getLsbD_enteredSr]
  match i, hi with
  | 0, _ => cases m <;> simp
  | 1, _ => cases m <;> simp
  | 2, _ => cases m <;> simp

/-- A word in its writable bits only has no reserved bit set. -/
theorem reserved_setSr (v : Word) : (v &&& srMask) &&& ~~~srMask = 0 := by
  rw [BitVec.and_assoc, show srMask &&& ~~~srMask = 0#16 from rfl, BitVec.and_zero]; rfl

/-- SR written back as it was, its reserved bits being 0. -/
theorem and_srMask_of_reserved {v : Word} (h : v &&& ~~~srMask = 0) : v &&& srMask = v := by
  apply BitVec.eq_of_getLsbD_eq
  intro i hi
  have := congrArg (fun w : Word => w.getLsbD i) h
  simp only [BitVec.getLsbD_and, BitVec.getLsbD_not, decide_eq_true hi, Bool.true_and] at this
  rw [BitVec.getLsbD_and]
  cases hv : v.getLsbD i <;> simp_all

/-! ### Taking an exception -/

/-- What follows the pushes: SR, the vector, and the program execution state. -/
structure Vectored (u t : State) (e : Exception) : Prop where
  regs : t.regs = u.regs
  mem : t.mem = u.mem
  stores : t.stores = u.stores
  sr : t.sr = enteredSr u.sr e.newMask
  minimum : u.mode = .minimum → t.pc = u.wordAt (BitVec.ofNat 24 (2 * e.vector)) ∧ t.cp = u.cp
  maximum : u.mode = .maximum →
    t.pc = u.wordAt (BitVec.ofNat 24 (4 * e.vector) + 2) ∧ t.cp = loByte (u.wordAt (BitVec.ofNat 24 (4 * e.vector)))
  control : SameControl { u with cp := t.cp, cpuState := .executing } t

theorem raised_eq (u : State) (e : Exception) :
    u.clearT.raiseMask e.newMask = { u with sr := enteredSr u.sr e.newMask } := by
  cases e.newMask <;> rfl

/-- The sequence with an even R7: the pushes, then the vector. -/
theorem takeException_even {s : State} (e : Exception) (p : Word) (he : odd (s.reg .r7) = false) :
    ∃ t, s.takeException e p = .next t ∧ Vectored (s.pushFrame p) t e := by
  refine ⟨_, by rw [State.takeException, he, if_neg (by simp)], ?_⟩
  generalize s.pushFrame p = u
  rw [raised_eq]
  cases hm : u.mode
  · simp only [State.loadVector]
    refine ⟨rfl, rfl, rfl, rfl, fun _ => ⟨?_, rfl⟩, fun h => absurd (hm.symm.trans h) (by simp), ?_⟩
    · simp only [State.vectorAddress]; rfl
    · constructor <;> first | rfl | exact hm.symm
  · simp only [State.loadVector]
    refine ⟨rfl, rfl, rfl, rfl, fun h => absurd (hm.symm.trans h) (by simp), fun _ => ?_, ?_⟩
    · simp only [State.vectorAddress]; exact ⟨rfl, rfl⟩
    · constructor <;> first | rfl | exact hm.symm

/-- The sequence with an odd R7 stops the machine. -/
theorem takeException_odd {s : State} (e : Exception) (p : Word) (ho : odd (s.reg .r7) = true) :
    s.takeException e p = .fault .stackErrorInSequence := by simp [State.takeException, ho]

/-! ### Returning from one -/

/-- The state RTE leaves with an even R7: SR in its writable bits, CP in maximum mode, PC. -/
theorem returnFromException_even {s : State} (he : odd (s.reg .r7) = false) :
    s.returnFromException =
      match s.mode with
      | .minimum =>
        { s.setReg .r7 (s.reg .r7 + 4) with sr := s.stackWord 0 &&& srMask, pc := s.stackWord 1, defer := true }
      | .maximum =>
        { s.setReg .r7 (s.reg .r7 + 6) with
          sr := s.stackWord 0 &&& srMask, cp := loByte (s.stackWord 1), pc := s.stackWord 2, defer := true } := by
  have h1 : ∀ {u : State}, odd (u.reg .r7) = false → u.pop16 = (u.stackWord 0, u.setReg .r7 (u.reg .r7 + 2)) :=
    fun h => pop16_stackWord h
  have e1 : s.popSr = { s.setReg .r7 (s.reg .r7 + 2) with sr := s.stackWord 0 &&& srMask } := by
    simp only [State.popSr, h1 he]; rfl
  have o1 : odd (s.reg .r7 + 2) = false := even_add_two he
  have o2 : odd (s.reg .r7 + 2 + 2) = false := even_add_two o1
  have hr : ∀ (u : State) (w : Word), (u.setReg .r7 w).reg .r7 = w := fun u w => reg_setReg_self u .r7 w
  have hs : ∀ (u : State) (v w : Word), (u.setReg .r7 v).setReg .r7 w = u.setReg .r7 w := fun _ _ _ => rfl
  cases hm : s.mode
  · have e2 : s.returnFromException = { s.popSr.popPc with defer := true } := by
      simp only [State.returnFromException, State.popCpInMaximum, e1, setReg_mode, hm]
    have h2 := h1 (u := s.popSr) (by rw [e1]; exact o1)
    rw [stackWord_succ (s := s) (by rw [e1]; rfl) (by rw [e1]; rfl) (by rw [e1]; rfl) (by rw [e1]; rfl)] at h2
    rw [e2, State.popPc, h2, e1]
    dsimp only
    have : s.reg .r7 + 4 = s.reg .r7 + 2 + 2 := by rw [BitVec.add_assoc]; rfl
    rw [this]
    rfl
  · have e2 : s.returnFromException = { s.popSr.popCp.popPc with defer := true } := by
      simp only [State.returnFromException, State.popCpInMaximum, e1, setReg_mode, hm]
    have h2 := h1 (u := s.popSr) (by rw [e1]; exact o1)
    rw [stackWord_succ (s := s) (by rw [e1]; rfl) (by rw [e1]; rfl) (by rw [e1]; rfl) (by rw [e1]; rfl)] at h2
    have e3 : s.popSr.popCp =
        { s.setReg .r7 (s.reg .r7 + 2 + 2) with sr := s.stackWord 0 &&& srMask, cp := loByte (s.stackWord 1) } := by
      rw [State.popCp, h2, e1]; rfl
    have h3 := h1 (u := s.popSr.popCp) (by rw [e3]; exact o2)
    rw [stackWord_succ (s := s.popSr) (by rw [e3, e1]; rfl) (by rw [e3, e1]; rfl) (by rw [e3, e1]; rfl) (by rw [e3, e1]; rfl),
      stackWord_succ (s := s) (by rw [e1]; rfl) (by rw [e1]; rfl) (by rw [e1]; rfl) (by rw [e1]; rfl)] at h3
    rw [e2, State.popPc, h3, e3]
    dsimp only
    have : s.reg .r7 + 6 = s.reg .r7 + 2 + 2 + 2 := by rw [BitVec.add_assoc, BitVec.add_assoc]; rfl
    rw [this]
    rfl

end Sys2Proof.Machine
end

