-- ==== Sys2Proof/Laws/Operands.lean ====
section
/-! SUPPORT. Operands: what resolving, reading, writing and finishing an EA do, and what each shape of instruction leaves. -/

namespace Sys2Proof.Machine

/-! ### The EA's own register -/

@[simp] theorem preDecrement_sr (s : State) (sz : Size) (ea : Ea) : (s.preDecrement sz ea).sr = s.sr := by cases ea <;> rfl
@[simp] theorem preDecrement_pc (s : State) (sz : Size) (ea : Ea) : (s.preDecrement sz ea).pc = s.pc := by cases ea <;> rfl
@[simp] theorem preDecrement_mem (s : State) (sz : Size) (ea : Ea) : (s.preDecrement sz ea).mem = s.mem := by
  cases ea <;> rfl
@[simp] theorem preDecrement_flags (s : State) (sz : Size) (ea : Ea) : (s.preDecrement sz ea).flags = s.flags := by
  cases ea <;> rfl

theorem sameControl_preDecrement (s : State) (sz : Size) (ea : Ea) : SameControl s (s.preDecrement sz ea) := by
  cases ea <;> first | exact SameControl.refl s | exact sameControl_setReg _ _ _

@[simp] theorem finish_sr (s : State) (sz : Size) (ea : Ea) : (s.finish sz ea).sr = s.sr := by cases ea <;> rfl
@[simp] theorem finish_pc (s : State) (sz : Size) (ea : Ea) : (s.finish sz ea).pc = s.pc := by cases ea <;> rfl
@[simp] theorem finish_mem (s : State) (sz : Size) (ea : Ea) : (s.finish sz ea).mem = s.mem := by cases ea <;> rfl
@[simp] theorem finish_aerr (s : State) (sz : Size) (ea : Ea) : (s.finish sz ea).aerr = s.aerr := by cases ea <;> rfl
@[simp] theorem finish_insAddr (s : State) (sz : Size) (ea : Ea) : (s.finish sz ea).insAddr = s.insAddr := by
  cases ea <;> rfl

theorem sameControl_finish (s : State) (sz : Size) (ea : Ea) : SameControl s (s.finish sz ea) := by
  cases ea <;> first | exact SameControl.refl s | exact sameControl_setReg _ _ _

theorem preDecrement_reg_ne (s : State) (sz : Size) {ea : Ea} {r : Reg} (h : movesReg ea r = false) :
    (s.preDecrement sz ea).reg r = s.reg r := by
  cases ea <;> simp_all [State.preDecrement, movesReg, reg_setReg, eq_comm]

/-- The registers at the end of an instruction that wrote one register between resolving an EA and finishing it. -/
theorem reg_finish_write {s u : State} {sz : Size} {ea : Ea} {rd : Reg} {w : Word} (hm : movesReg ea rd = false)
    (h : ∀ r, u.reg r = if r = rd then w else (s.preDecrement sz ea).reg r) (r : Reg) :
    (u.finish sz ea).reg r = s.afterWrite sz ea rd w r := by
  cases ea <;> simp_all only [State.preDecrement, State.finish, State.afterWrite, State.afterEa, movesReg, reg_setReg,
    decide_eq_false_iff_not] <;> grind

/-- The registers at the end of an instruction that wrote none between resolving an EA and finishing it. -/
theorem reg_finish_keep {s u : State} {sz : Size} {ea : Ea} (h : ∀ r, u.reg r = (s.preDecrement sz ea).reg r) (r : Reg) :
    (u.finish sz ea).reg r = s.afterEa sz ea r := by
  cases ea <;> simp_all only [State.preDecrement, State.finish, State.afterEa, reg_setReg] <;> grind

/-! ### Reading -/

/-- A read at an aligned location changes nothing. -/
theorem readLoc_aligned (s : State) (sz : Size) {l : Loc} (h : l.aligned = true) : s.readLoc sz l = (s.peek sz l, s) := by
  match l, h with
  | .reg r, _ => rfl
  | .imm v, _ => rfl
  | .mem a .byte, _ => rfl
  | .mem a .word, h => simp only [State.readLoc, State.peek, readWord_even (by simpa [Loc.aligned] using h)]

/-- What lies at an EA's location is the same before and after its pre-decrement. -/
theorem peek_preDecrement (s : State) (sz : Size) (ea : Ea) :
    (s.preDecrement sz ea).peek sz (s.place sz ea) = s.peek sz (s.place sz ea) := by
  cases ea with
  | preDec r =>
    simp only [State.place, State.resolve, State.locate]
    cases accessSize r sz <;> rfl
  | reg | ind | disp8 | disp16 | postInc | abs8 | abs16 | imm8 | imm16 => rfl

/-- `readEa` at an aligned place: what lies there, after the pre-decrement. -/
theorem readEa_aligned (s : State) {sz : Size} {ea : Ea} (h : (s.place sz ea).aligned = true) :
    s.readEa sz ea = (s.peek sz (s.place sz ea), s.preDecrement sz ea) := by
  rw [← peek_preDecrement]
  exact readLoc_aligned _ _ h

theorem readLoc_misaligned (s : State) (sz : Size) {l : Loc} (h : l.aligned = false) : (s.readLoc sz l).2.aerr = true := by
  match l, h with
  | .mem a .word, h => simp only [Loc.aligned, Bool.not_eq_false'] at h; simp [State.readLoc, State.readWord, h]

/-- `readEa` at a misaligned place notes an address error. -/
theorem readEa_misaligned (s : State) {sz : Size} {ea : Ea} (h : (s.place sz ea).aligned = false) :
    (s.readEa sz ea).2.aerr = true := readLoc_misaligned _ _ h

/-! ### Writing -/

/-- The location can hold an operand of the size: it is no value, and no byte of memory for a word. -/
def Loc.holds (sz : Size) : Loc → Bool
  | .reg _ | .mem _ .word => true
  | .mem _ .byte => decide (sz = .byte)
  | .imm _ => false

theorem place_holds (s : State) (sz : Size) {ea : Ea} (h : ea.isPlace = true) : (s.place sz ea).holds sz = true := by
  cases ea <;> cases sz <;> simp_all [State.place, State.resolve, State.locate, Loc.holds, Ea.isPlace, Ea.cls]
  all_goals rename_i r; cases r <;> rfl

/-- What a write at an aligned location does. -/
structure Wrote (s t : State) (sz : Size) (l : Loc) (v : BitVec sz.bits) : Prop where
  pc : t.pc = s.pc
  sr : t.sr = s.sr
  control : SameControl s t
  wf : t.mem.wf = true
  bytes : SameMemoryBut s t l.bytes
  regs : ∀ r, t.reg r = match l with
    | .reg q => if r = q then mergeReg sz (s.reg q) v else s.reg r
    | .mem _ _ | .imm _ => s.reg r
  value : l.holds sz = true → t.peek sz l = v

theorem wrote_writeLoc {s : State} {sz : Size} {l : Loc} (v : BitVec sz.bits) (hw : s.mem.wf = true)
    (h : l.aligned = true) : Wrote s (s.writeLoc sz l v) sz l v := by
  match l, h with
  | .reg q, _ =>
    refine ⟨rfl, rfl, sameControl_setReg _ _ _, hw, fun _ _ => rfl, fun r => reg_writeReg s sz q r v, fun _ => ?_⟩
    simp only [State.writeLoc, State.peek, State.readReg, reg_writeReg, if_true]
    exact setWidth_mergeReg sz _ v
  | .imm w, _ => exact ⟨rfl, rfl, SameControl.refl s, hw, fun _ _ => rfl, fun _ => rfl, fun hn => by simp [Loc.holds] at hn⟩
  | .mem a .byte, _ =>
    refine ⟨rfl, rfl, sameControl_writeByte _ _ _, wf_writeByte hw _ _,
      fun x hx => readByte_writeByte_ne hw _ (by simpa [Loc.bytes] using hx), fun _ => rfl, fun hn => ?_⟩
    simp only [Loc.holds, decide_eq_true_eq] at hn
    subst hn
    simp [State.peek, State.writeLoc, readByte_writeByte_self hw]
  | .mem a .word, h =>
    have ha : odd a = false := by simpa [Loc.aligned] using h
    cases sz with
    | byte =>
      have hs := writeWord_same s.drawByte.2 (s.drawByte.1 ++ v) ha
      refine ⟨hs.pc, hs.sr, (sameControl_drawByte s).trans hs.control, wf_writeWord (s := s.drawByte.2) hw _ _,
        fun x hx => ?_, fun r => ?_, fun _ => ?_⟩
      · simp only [Loc.bytes, List.mem_cons, List.not_mem_nil, or_false, not_or] at hx
        exact readByte_writeWord_ne (s := s.drawByte.2) hw _ ha hx.1 hx.2
      · exact congrArg (fun g => Regs.get g r) hs.regs
      · simp only [State.peek, State.writeLoc, State.writeWide]
        rw [wordAt_writeWord_self (s := s.drawByte.2) hw _ ha]
        exact setWidth_append _ _
    | word =>
      have hs := writeWord_same s v ha
      refine ⟨hs.pc, hs.sr, hs.control, wf_writeWord hw _ _, fun x hx => ?_, fun r => ?_, fun _ => ?_⟩
      · simp only [Loc.bytes, List.mem_cons, List.not_mem_nil, or_false, not_or] at hx
        exact readByte_writeWord_ne hw _ ha hx.1 hx.2
      · exact congrArg (fun g => Regs.get g r) hs.regs
      · simp only [State.peek, State.writeLoc, State.writeWide]
        rw [wordAt_writeWord_self hw _ ha]
        exact BitVec.setWidth_eq v

/-! ### Shapes of instruction -/

/-- The end of an instruction from what its state is before the post-increment. -/
theorem effect_finish {s u : State} {sz : Size} {ea : Ea} {regs : Reg → Word} {f : Flags} {bytes : List Addr}
    (hr : ∀ r, (u.finish sz ea).reg r = regs r) (hf : u.sr = srWithFlags s.sr f) (hp : u.pc = s.pc)
    (hb : SameMemoryBut s u bytes) (hc : SameControl s u) : Effect s (u.finish sz ea) regs f bytes := by
  refine ⟨hr, flagsBecome_of_sr (by rw [finish_sr, hf]), by rw [finish_pc, hp], fun a ha => ?_,
    hc.trans (sameControl_finish _ _ _)⟩
  rw [← hb a ha, State.readByte, finish_mem, State.readByte]

/-- SR with its own condition codes put back. -/
theorem srWithFlags_self (s : State) : srWithFlags s.sr s.flags = s.sr := by
  apply BitVec.eq_of_getLsbD_eq
  intro i _
  rw [getLsbD_srWithFlags]
  simp only [State.flags]
  split_ifs <;> simp_all

/-- The end of an instruction that leaves the condition codes alone. -/
theorem effect_finish_flags {s u : State} {sz : Size} {ea : Ea} {regs : Reg → Word} {bytes : List Addr}
    (hr : ∀ r, (u.finish sz ea).reg r = regs r) (hf : u.sr = s.sr) (hp : u.pc = s.pc)
    (hb : SameMemoryBut s u bytes) (hc : SameControl s u) : Effect s (u.finish sz ea) regs s.flags bytes :=
  effect_finish hr (by rw [hf, srWithFlags_self]) hp hb hc

/-- What stays in the state after a pre-decrement. -/
theorem sameMemory_preDecrement (s : State) (sz : Size) (ea : Ea) : SameMemoryBut s (s.preDecrement sz ea) [] :=
  fun a _ => by rw [State.readByte, preDecrement_mem, State.readByte]

/-- The registers after a store between resolving an EA and finishing it. -/
theorem reg_finish_store {s u : State} {sz : Size} {ea : Ea} {v : BitVec sz.bits} (hp : ea.isPlace = true)
    (h : Wrote (s.preDecrement sz ea) u sz (s.place sz ea) v) {u' : State} (hu : ∀ r, u'.reg r = u.reg r) (r : Reg) :
    (u'.finish sz ea).reg r = s.afterStore sz ea v r := by
  have hr := h.regs
  cases ea with
  | reg q =>
    simp only [State.finish, State.afterStore, hu, hr]
    rfl
  | imm8 | imm16 => simp [Ea.isPlace, Ea.cls] at hp
  | ind | disp8 | disp16 | preDec | postInc | abs8 | abs16 =>
    exact reg_finish_keep (fun q => by rw [hu, hr]; rfl) r

theorem peek_of_mem {s t : State} {sz : Size} {l : Loc} (hm : t.mem = s.mem) (hr : ∀ r, l = .reg r → t.reg r = s.reg r) :
    t.peek sz l = s.peek sz l := by
  match l with
  | .reg r => simp only [State.peek, State.readReg, hr r rfl]
  | .imm v => rfl
  | .mem a .byte => simp only [State.peek, State.readByte, hm]
  | .mem a .word => simp only [State.peek, State.wordAt, State.readByte, hm]

/-- A store to the place of an EA, followed by the condition codes and the post-increment. -/
theorem stored_of_wrote {s u u' : State} {sz : Size} {ea : Ea} {v : BitVec sz.bits} {f : Flags} (hp : ea.isPlace = true)
    (h : Wrote (s.preDecrement sz ea) u sz (s.place sz ea) v) (hu : u' = u.setFlags f) :
    Stored s (u'.finish sz ea) sz ea v f := by
  subst hu
  refine ⟨?_, effect_finish (fun r => reg_finish_store (u' := u.setFlags f) hp h (fun _ => rfl) r) ?_ ?_ ?_ ?_⟩
  · rw [← h.value (place_holds s sz hp)]
    refine peek_of_mem (by simp) fun r hr => ?_
    cases ea <;> first | rfl | (simp [State.place, State.resolve, State.locate] at hr)
  · rw [setFlags_sr, h.sr, preDecrement_sr]
  · rw [setFlags_pc, h.pc, preDecrement_pc]
  · exact fun a ha => (h.bytes a ha).trans (sameMemory_preDecrement s sz ea a (by simp))
  · exact ((sameControl_preDecrement s sz ea).trans h.control).trans (sameControl_setFlags _ _)

/-- A pure store. -/
theorem stored_storeEa {s : State} {sz : Size} {ea : Ea} (v : BitVec sz.bits) (f : Flags) (hp : ea.isPlace = true)
    (hw : s.mem.wf = true) (ha : (s.place sz ea).aligned = true) : Stored s (s.storeEa sz ea v f) sz ea v f :=
  stored_of_wrote hp (wrote_writeLoc v (by simpa using hw) ha) rfl

/-- A read-modify-write. -/
theorem stored_modifyEa {s : State} {sz : Size} {ea : Ea} (op : BitVec sz.bits → Flags → BitVec sz.bits × Flags)
    (hp : ea.isPlace = true) (hw : s.mem.wf = true) (ha : (s.place sz ea).aligned = true) :
    Stored s (modifyEa sz ea op s) sz ea (op (s.peek sz (s.place sz ea)) s.flags).1
      (op (s.peek sz (s.place sz ea)) s.flags).2 := by
  have hr := readLoc_aligned (s.preDecrement sz ea) sz ha
  rw [peek_preDecrement] at hr
  have e : modifyEa sz ea op s =
      (((s.preDecrement sz ea).writeLoc sz (s.place sz ea) (op (s.peek sz (s.place sz ea)) s.flags).1).setFlags
        (op (s.peek sz (s.place sz ea)) s.flags).2).finish sz ea := by
    rw [← preDecrement_flags s sz ea]
    unfold modifyEa
    simp only [State.resolve] at hr ⊢
    rw [show (s.preDecrement sz ea).locate sz ea = s.place sz ea from rfl, hr]
  rw [e]
  exact stored_of_wrote hp (wrote_writeLoc _ (by simpa using hw) ha) rfl

/-- A register takes a word between resolving an EA and finishing it. -/
theorem effect_setReg_finish {s : State} {sz : Size} {ea : Ea} {rd : Reg} (w : Word) (f : Flags)
    (hm : movesReg ea rd = false) :
    Effect s ((((s.preDecrement sz ea).setReg rd w).setFlags f).finish sz ea) (s.afterWrite sz ea rd w) f [] :=
  effect_finish
    (fun r => reg_finish_write (u := ((s.preDecrement sz ea).setReg rd w).setFlags f) hm
      (fun q => reg_setReg (s.preDecrement sz ea) rd q w) r) (by simp) (by simp)
    (fun a ha => sameMemory_preDecrement s sz ea a ha)
    (((sameControl_preDecrement s sz ea).trans (sameControl_setReg _ _ _)).trans (sameControl_setFlags _ _))

/-- A register takes a value of the operand size between resolving an EA and finishing it. -/
theorem effect_writeReg_finish {s : State} {sz : Size} {ea : Ea} {rd : Reg} (v : BitVec sz.bits) (f : Flags)
    (hm : movesReg ea rd = false) :
    Effect s ((((s.preDecrement sz ea).writeReg sz rd v).setFlags f).finish sz ea)
      (s.afterWrite sz ea rd (mergeReg sz (s.reg rd) v)) f [] := by
  have h := effect_setReg_finish (s := s) (sz := sz) (mergeReg sz ((s.preDecrement sz ea).reg rd) v) f hm
  rw [preDecrement_reg_ne s sz hm] at h
  rw [State.writeReg, preDecrement_reg_ne s sz hm]
  exact h

/-- `OP <EAs>,Rd`. -/
theorem binaryToReg_aligned {s : State} {sz : Size} {ea : Ea} {rd : Reg}
    (op : BitVec sz.bits → BitVec sz.bits → Flags → BitVec sz.bits × Flags) (hm : movesReg ea rd = false)
    (ha : (s.place sz ea).aligned = true) :
    ∃ t, binaryToReg sz ea rd op s = .next t ∧
      let r := op (s.peek sz (s.place sz ea)) (s.readReg sz rd) s.flags
      Effect s t (s.afterWrite sz ea rd (mergeReg sz (s.reg rd) r.1)) r.2 [] := by
  have hd : (s.preDecrement sz ea).readReg sz rd = s.readReg sz rd := by
    rw [State.readReg, preDecrement_reg_ne s sz hm, State.readReg]
  refine ⟨_, by rw [binaryToReg, hm, if_neg (by simp)], ?_⟩
  simp only [readEa_aligned s ha, hd, preDecrement_flags]
  exact effect_writeReg_finish _ _ hm

/-- The condition codes alone, between resolving an EA and finishing it. -/
theorem effect_setFlags_finish (s : State) (sz : Size) (ea : Ea) (f : Flags) :
    Effect s (((s.preDecrement sz ea).setFlags f).finish sz ea) (s.afterEa sz ea) f [] :=
  effect_finish (fun r => reg_finish_keep (u := (s.preDecrement sz ea).setFlags f) (fun _ => rfl) r) (by simp) (by simp)
    (fun a ha => sameMemory_preDecrement s sz ea a ha)
    ((sameControl_preDecrement s sz ea).trans (sameControl_setFlags _ _))

/-- A compare with a register. -/
theorem compareReg_aligned {s : State} {sz : Size} {ea : Ea} {rd : Reg}
    (op : BitVec sz.bits → BitVec sz.bits → Flags → BitVec sz.bits × Flags) (hm : movesReg ea rd = false)
    (ha : (s.place sz ea).aligned = true) :
    ∃ t, compareReg sz ea rd op s = .next t ∧
      Effect s t (s.afterEa sz ea) (op (s.peek sz (s.place sz ea)) (s.readReg sz rd) s.flags).2 [] := by
  have hd : (s.preDecrement sz ea).readReg sz rd = s.readReg sz rd := by
    rw [State.readReg, preDecrement_reg_ne s sz hm, State.readReg]
  refine ⟨_, by rw [compareReg, hm, if_neg (by simp)], ?_⟩
  simp only [readEa_aligned s ha, hd, preDecrement_flags]
  exact effect_setFlags_finish s sz ea _

/-- An operand read for its flags. -/
theorem effect_testEa {s : State} {sz : Size} {ea : Ea} (op : BitVec sz.bits → Flags → Flags)
    (ha : (s.place sz ea).aligned = true) :
    Effect s (testEa sz ea op s) (s.afterEa sz ea) (op (s.peek sz (s.place sz ea)) s.flags) [] := by
  simp only [testEa, readEa_aligned s ha, preDecrement_flags]
  exact effect_setFlags_finish s sz ea _

/-- ADDS and SUBS. -/
theorem extendedToReg_aligned {s : State} {sz : Size} {ea : Ea} {rd : Reg} (op : Word → Word → Word)
    (hm : movesReg ea rd = false) (ha : (s.place sz ea).aligned = true) :
    ∃ t, extendedToReg sz ea rd op s = .next t ∧
      Effect s t (s.afterWrite sz ea rd (op (s.reg rd) ((s.peek sz (s.place sz ea)).signExtend 16))) s.flags [] := by
  refine ⟨_, by rw [extendedToReg, hm, if_neg (by simp)], ?_⟩
  simp only [readEa_aligned s ha, preDecrement_reg_ne s sz hm]
  exact effect_finish_flags (fun r => reg_finish_write hm (fun q => reg_setReg _ rd q _) r) (by simp) (by simp)
    (fun a ha => sameMemory_preDecrement s sz ea a ha)
    ((sameControl_preDecrement s sz ea).trans (sameControl_setReg _ _ _))

end Sys2Proof.Machine
end

