-- ==== Sys2Proof/Laws/Frame.lean ====
section
/-! SUPPORT. What every operand access, aligned or not, leaves as it was. -/

namespace Sys2Proof.Machine

/-- What no operand access, push or pop changes: everything but the general registers, the condition codes, memory, the
address error and the model's own fields. Memory keeps its canonical form, and where no address error was detected every
byte that changes is noted among the stores. -/
structure Ordinary (s t : State) : Prop where
  pc : t.pc = s.pc
  system : ∀ i, 4 ≤ i → t.sr.getLsbD i = s.sr.getLsbD i
  cp : t.cp = s.cp
  dp : t.dp = s.dp
  ep : t.ep = s.ep
  tp : t.tp = s.tp
  br : t.br = s.br
  mode : t.mode = s.mode
  cpuState : t.cpuState = s.cpuState
  ssby : t.ssby = s.ssby
  defer : t.defer = s.defer
  aerr : s.aerr = true → t.aerr = true
  nmiRequest : t.nmiRequest = s.nmiRequest
  pending : t.pending = s.pending
  resLow : t.resLow = s.resLow
  stbyLow : t.stbyLow = s.stbyLow
  breqLow : t.breqLow = s.breqLow
  modePins : t.modePins = s.modePins
  chip : t.chip = s.chip
  insAddr : t.insAddr = s.insAddr
  wf : s.mem.wf = true → t.mem.wf = true
  keptStores : ∀ a, a ∈ s.stores → a ∈ t.stores
  noted : t.aerr = false → ∀ a, a ∉ t.stores → t.readByte a = s.readByte a

theorem Ordinary.refl (s : State) : Ordinary s s := by constructor <;> intros <;> first | rfl | assumption

theorem Ordinary.trans {s t u : State} (h : Ordinary s t) (k : Ordinary t u) : Ordinary s u :=
  ⟨k.pc.trans h.pc, fun i hi => (k.system i hi).trans (h.system i hi), k.cp.trans h.cp, k.dp.trans h.dp, k.ep.trans h.ep,
    k.tp.trans h.tp, k.br.trans h.br, k.mode.trans h.mode, k.cpuState.trans h.cpuState, k.ssby.trans h.ssby,
    k.defer.trans h.defer, fun a => k.aerr (h.aerr a), k.nmiRequest.trans h.nmiRequest, k.pending.trans h.pending,
    k.resLow.trans h.resLow, k.stbyLow.trans h.stbyLow, k.breqLow.trans h.breqLow, k.modePins.trans h.modePins,
    k.chip.trans h.chip, k.insAddr.trans h.insAddr, fun a => k.wf (h.wf a),
    fun a m => k.keptStores a (h.keptStores a m), fun e a m =>
      (k.noted e a m).trans (h.noted (Bool.eq_false_iff.mpr fun x => by simp [k.aerr x] at e) a fun n =>
        m (k.keptStores a n))⟩

/-! ### Operations -/

theorem ordinary_setReg (s : State) (r : Reg) (v : Word) : Ordinary s (s.setReg r v) := by
  constructor <;> intros <;> first | rfl | assumption

theorem ordinary_writeReg (s : State) (sz : Size) (r : Reg) (v : BitVec sz.bits) : Ordinary s (s.writeReg sz r v) :=
  ordinary_setReg s r _

theorem ordinary_setFlags (s : State) (f : Flags) : Ordinary s (s.setFlags f) := by
  refine ⟨rfl, fun i hi => ?_, rfl, rfl, rfl, rfl, rfl, rfl, rfl, rfl, rfl, id, rfl, rfl, rfl, rfl, rfl, rfl, rfl, rfl, id,
    fun _ h => h, fun _ _ _ => rfl⟩
  rw [setFlags_sr, getLsbD_srWithFlags, if_neg (by omega), if_neg (by omega), if_neg (by omega), if_neg (by omega)]

theorem ordinary_drawByte (s : State) : Ordinary s s.drawByte.2 := by
  constructor <;> intros <;> first | rfl | assumption

theorem ordinary_writeByte (s : State) (a : Addr) (v : Byte) : Ordinary s (s.writeByte a v) :=
  ⟨rfl, fun _ _ => rfl, rfl, rfl, rfl, rfl, rfl, rfl, rfl, rfl, rfl, id, rfl, rfl, rfl, rfl, rfl, rfl, rfl, rfl,
    fun h => wf_writeByte h a v, fun _ h => List.mem_cons_of_mem _ h, fun _ _ h =>
      readAt_writeAt_ne (fun e => h (by rw [BitVec.eq_of_toNat_eq e]; exact List.mem_cons_self)) _ _⟩

theorem ordinary_noteError (s : State) : Ordinary s { s with aerr := true } := by
  constructor <;> intros <;> first | rfl | assumption

/-- A byte may become free only once an address error is noted. -/
theorem ordinary_scribble {s : State} (h : s.aerr = true) (a : Addr) : Ordinary s (s.scribble a) :=
  ⟨rfl, fun _ _ => rfl, rfl, rfl, rfl, rfl, rfl, rfl, rfl, rfl, rfl, id, rfl, rfl, rfl, rfl, rfl, rfl, rfl, rfl,
    fun k => wf_scribble k a, fun _ k => k, fun k => by cases h.symm.trans k⟩

theorem ordinary_writeWord (s : State) (a : Addr) (v : Word) : Ordinary s (s.writeWord a v) := by
  unfold State.writeWord
  split
  · exact (((ordinary_noteError s).trans (ordinary_scribble rfl _)).trans (ordinary_scribble rfl _)).trans
      (ordinary_scribble rfl _)
  · exact (ordinary_writeByte _ _ _).trans (ordinary_writeByte _ _ _)

theorem ordinary_readWord (s : State) (a : Addr) : Ordinary s (s.readWord a).2 := by
  unfold State.readWord
  split
  · constructor <;> intros <;> first | rfl | assumption
  · exact Ordinary.refl s

theorem ordinary_push16 (s : State) (v : Word) : Ordinary s (s.push16 v) :=
  (ordinary_setReg s _ _).trans (ordinary_writeWord _ _ _)

theorem ordinary_pop16 (s : State) : Ordinary s s.pop16.2 := (ordinary_readWord s _).trans (ordinary_setReg _ _ _)

theorem ordinary_pushByte (s : State) (v : Byte) : Ordinary s (s.pushByte v) :=
  (ordinary_drawByte s).trans (ordinary_push16 _ _)

theorem ordinary_preDecrement (s : State) (sz : Size) (ea : Ea) : Ordinary s (s.preDecrement sz ea) := by
  cases ea <;> first | exact Ordinary.refl s | exact ordinary_setReg _ _ _

theorem ordinary_finish (s : State) (sz : Size) (ea : Ea) : Ordinary s (s.finish sz ea) := by
  cases ea <;> first | exact Ordinary.refl s | exact ordinary_setReg _ _ _

theorem ordinary_readLoc (s : State) (sz : Size) (l : Loc) : Ordinary s (s.readLoc sz l).2 := by
  match l with
  | .reg _ | .imm _ | .mem _ .byte => exact Ordinary.refl s
  | .mem a .word => exact ordinary_readWord s a

theorem ordinary_writeLoc (s : State) (sz : Size) (l : Loc) (v : BitVec sz.bits) : Ordinary s (s.writeLoc sz l v) := by
  match l with
  | .reg r => exact ordinary_setReg s r _
  | .imm _ => exact Ordinary.refl s
  | .mem a .byte => exact ordinary_writeByte s a _
  | .mem a .word =>
    cases sz
    · exact (ordinary_drawByte s).trans (ordinary_writeWord _ _ _)
    · exact ordinary_writeWord s a _

theorem ordinary_readEa (s : State) (sz : Size) (ea : Ea) : Ordinary s (s.readEa sz ea).2 :=
  (ordinary_preDecrement s sz ea).trans (ordinary_readLoc _ _ _)

theorem ordinary_storeEa (s : State) (sz : Size) (ea : Ea) (v : BitVec sz.bits) (f : Flags) :
    Ordinary s (s.storeEa sz ea v f) :=
  (((ordinary_preDecrement s sz ea).trans (ordinary_writeLoc _ _ _ _)).trans (ordinary_setFlags _ _)).trans
    (ordinary_finish _ _ _)

theorem ordinary_modifyEa (s : State) (sz : Size) (ea : Ea) (op : BitVec sz.bits → Flags → BitVec sz.bits × Flags) :
    Ordinary s (modifyEa sz ea op s) :=
  ((((ordinary_preDecrement s sz ea).trans (ordinary_readLoc _ _ _)).trans (ordinary_writeLoc _ _ _ _)).trans
    (ordinary_setFlags _ _)).trans (ordinary_finish _ _ _)

theorem ordinary_testEa (s : State) (sz : Size) (ea : Ea) (op : BitVec sz.bits → Flags → Flags) :
    Ordinary s (testEa sz ea op s) :=
  ((ordinary_readEa s sz ea).trans (ordinary_setFlags _ _)).trans (ordinary_finish _ _ _)

theorem ordinary_moveToReg (s : State) (sz : Size) (r : Reg) (v : BitVec sz.bits) : Ordinary s (s.moveToReg sz r v) :=
  (ordinary_writeReg s sz r v).trans (ordinary_setFlags _ _)

theorem ordinary_binaryToReg {s t : State} {sz : Size} {ea : Ea} {rd : Reg}
    {op : BitVec sz.bits → BitVec sz.bits → Flags → BitVec sz.bits × Flags} (h : binaryToReg sz ea rd op s = .next t) :
    Ordinary s t := by
  unfold binaryToReg at h
  split at h
  · cases h
  · cases h
    exact (((ordinary_readEa s sz ea).trans (ordinary_writeReg _ _ _ _)).trans (ordinary_setFlags _ _)).trans
      (ordinary_finish _ _ _)

theorem ordinary_compareReg {s t : State} {sz : Size} {ea : Ea} {rd : Reg}
    {op : BitVec sz.bits → BitVec sz.bits → Flags → BitVec sz.bits × Flags} (h : compareReg sz ea rd op s = .next t) :
    Ordinary s t := by
  unfold compareReg at h
  split at h
  · cases h
  · cases h
    exact ((ordinary_readEa s sz ea).trans (ordinary_setFlags _ _)).trans (ordinary_finish _ _ _)

theorem ordinary_extendedToReg {s t : State} {sz : Size} {ea : Ea} {rd : Reg} {op : Word → Word → Word}
    (h : extendedToReg sz ea rd op s = .next t) : Ordinary s t := by
  unfold extendedToReg at h
  split at h
  · cases h
  · cases h
    exact ((ordinary_readEa s sz ea).trans (ordinary_setReg _ _ _)).trans (ordinary_finish _ _ _)

theorem withBit_next {sz : Size} {n : Nat} {t u : State} (h : withBit sz n t = .next u) : u = t := by
  unfold withBit at h
  split at h
  · cases h
  · cases h; rfl

theorem withRegBit_next {sz : Size} {r : Reg} {ea : Ea} {n : Nat} {t u : State} (h : withRegBit sz r ea n t = .next u) :
    u = t := by
  unfold withRegBit at h
  split at h
  · cases h
  · exact withBit_next h

theorem ordinary_popTo (s : State) (r : Reg) : Ordinary s (s.popTo r) := by
  unfold State.popTo
  cases r <;> first | exact ordinary_pop16 s | exact (ordinary_pop16 s).trans (ordinary_setReg _ _ _)

theorem ordinary_pushReg (s : State) (r : Reg) : Ordinary s (s.pushReg r) := by
  rw [pushReg_eq]; exact ordinary_push16 s _

theorem ordinary_foldl {f : State → Reg → State} (hf : ∀ s r, Ordinary s (f s r)) (rs : List Reg) (s : State) :
    Ordinary s (rs.foldl f s) := by
  induction rs generalizing s with
  | nil => exact Ordinary.refl s
  | cons r rs ih => exact (hf s r).trans (ih _)

theorem ordinary_setPair (s : State) (r : Reg) (hi lo : Word) : Ordinary s (s.setPair r hi lo) :=
  (ordinary_setReg s _ _).trans (ordinary_setReg _ _ _)

theorem ordinary_pushFrame (s : State) (p : Word) : Ordinary s (s.pushFrame p) := by
  unfold State.pushFrame State.pushCpInMaximum
  split
  · exact (ordinary_push16 s p).trans (ordinary_push16 _ _)
  · exact ((ordinary_push16 s p).trans (ordinary_pushByte _ _)).trans (ordinary_push16 _ _)

end Sys2Proof.Machine
end

