-- ==== Sys2Proof/Laws/PerInstr.lean ====
section
/-! SUPPORT. Statements about every instruction as syntax, one lemma for each constructor. -/

set_option Elab.async false

namespace Sys2Proof.Laws

/-- An EA field and its extension have one to three bytes (30_encoding.md R125). -/
theorem encodeEa_length (sz : Size) (ea : Ea) : 1 ≤ (encodeEa sz ea).length ∧ (encodeEa sz ea).length ≤ 3 := by
  cases ea <;> simp [encodeEa, wordBytes]

theorem undefOp_length (t : UndefOp) : 1 ≤ t.encode.length ∧ t.encode.length ≤ 2 := by
  cases t <;> simp [UndefOp.encode]

theorem encodeControlImm_length (cr : ControlReg) (imm : Word) :
    1 ≤ (encodeControlImm cr imm).length ∧ (encodeControlImm cr imm).length ≤ 3 := by
  cases cr <;> simp [encodeControlImm, ControlReg.size, wordBytes]

/-- An instruction has one to six bytes (30_encoding.md R120). -/
def EncodedLength.Statement (i : Instr) : Prop := 1 ≤ (encode i).length ∧ (encode i).length ≤ 6

/-- An instruction of an EA field and a tail of up to three bytes. -/
theorem eaThen_length (sz : Size) (ea : Ea) (tail : List Byte) (h : tail.length ≤ 3) :
    1 ≤ (encodeEa sz ea ++ tail).length ∧ (encodeEa sz ea ++ tail).length ≤ 6 := by
  have := encodeEa_length sz ea
  rw [List.length_append]; omega

theorem EncodedLength.eaRn (sz : Size) (r : Reg) (t : UndefOp) : EncodedLength.Statement (.eaRn sz r t) :=
  eaThen_length _ _ _ (by have := undefOp_length t; omega)
theorem EncodedLength.eaPreDec (sz : Size) (r : Reg) (t : UndefOp) : EncodedLength.Statement (.eaPreDec sz r t) :=
  eaThen_length _ _ _ (by have := undefOp_length t; omega)
theorem EncodedLength.eaPostInc (sz : Size) (r : Reg) (t : UndefOp) : EncodedLength.Statement (.eaPostInc sz r t) :=
  eaThen_length _ _ _ (by have := undefOp_length t; omega)
theorem EncodedLength.eaInd (sz : Size) (r : Reg) (t : UndefOp) : EncodedLength.Statement (.eaInd sz r t) :=
  eaThen_length _ _ _ (by have := undefOp_length t; omega)
theorem EncodedLength.eaDisp8 (sz : Size) (r : Reg) (d : Byte) (t : UndefOp) : EncodedLength.Statement (.eaDisp8 sz r d t) :=
  eaThen_length _ _ _ (by have := undefOp_length t; omega)
theorem EncodedLength.eaDisp16 (sz : Size) (r : Reg) (d : Word) (t : UndefOp) : EncodedLength.Statement (.eaDisp16 sz r d t) :=
  eaThen_length _ _ _ (by have := undefOp_length t; omega)
theorem EncodedLength.eaAbs8 (sz : Size) (a : Byte) (t : UndefOp) : EncodedLength.Statement (.eaAbs8 sz a t) :=
  eaThen_length _ _ _ (by have := undefOp_length t; omega)
theorem EncodedLength.eaAbs16 (sz : Size) (a : Word) (t : UndefOp) : EncodedLength.Statement (.eaAbs16 sz a t) :=
  eaThen_length _ _ _ (by have := undefOp_length t; omega)
theorem EncodedLength.eaImm8 (v : Byte) (t : UndefOp) : EncodedLength.Statement (.eaImm8 v t) :=
  eaThen_length _ _ _ (by have := undefOp_length t; omega)
theorem EncodedLength.eaImm16 (v : Word) (t : UndefOp) : EncodedLength.Statement (.eaImm16 v t) :=
  eaThen_length _ _ _ (by have := undefOp_length t; omega)
theorem EncodedLength.cmpGImm8 (ea : Ea) (imm : Byte) : EncodedLength.Statement (.cmpGImm8 ea imm) :=
  eaThen_length _ _ _ (by simp)
theorem EncodedLength.cmpGImm16 (ea : Ea) (imm : Word) : EncodedLength.Statement (.cmpGImm16 ea imm) :=
  eaThen_length _ _ _ (by simp [wordBytes])
theorem EncodedLength.movGImm8 (ea : Ea) (imm : Byte) : EncodedLength.Statement (.movGImm8 ea imm) :=
  eaThen_length _ _ _ (by simp)
theorem EncodedLength.movGImm16 (ea : Ea) (imm : Word) : EncodedLength.Statement (.movGImm16 ea imm) :=
  eaThen_length _ _ _ (by simp [wordBytes])
theorem EncodedLength.addQ1 (sz : Size) (ea : Ea) : EncodedLength.Statement (.addQ1 sz ea) :=
  eaThen_length _ _ _ (by simp)
theorem EncodedLength.addQ2 (sz : Size) (ea : Ea) : EncodedLength.Statement (.addQ2 sz ea) :=
  eaThen_length _ _ _ (by simp)
theorem EncodedLength.addQm1 (sz : Size) (ea : Ea) : EncodedLength.Statement (.addQm1 sz ea) :=
  eaThen_length _ _ _ (by simp)
theorem EncodedLength.addQm2 (sz : Size) (ea : Ea) : EncodedLength.Statement (.addQm2 sz ea) :=
  eaThen_length _ _ _ (by simp)
theorem EncodedLength.swap (rd : Reg) : EncodedLength.Statement (.swap rd) :=
  eaThen_length _ _ _ (by simp)
theorem EncodedLength.exts (rd : Reg) : EncodedLength.Statement (.exts rd) :=
  eaThen_length _ _ _ (by simp)
theorem EncodedLength.extu (rd : Reg) : EncodedLength.Statement (.extu rd) :=
  eaThen_length _ _ _ (by simp)
theorem EncodedLength.clr (sz : Size) (ea : Ea) : EncodedLength.Statement (.clr sz ea) :=
  eaThen_length _ _ _ (by simp)
theorem EncodedLength.neg (sz : Size) (ea : Ea) : EncodedLength.Statement (.neg sz ea) :=
  eaThen_length _ _ _ (by simp)
theorem EncodedLength.notG (sz : Size) (ea : Ea) : EncodedLength.Statement (.notG sz ea) :=
  eaThen_length _ _ _ (by simp)
theorem EncodedLength.tst (sz : Size) (ea : Ea) : EncodedLength.Statement (.tst sz ea) :=
  eaThen_length _ _ _ (by simp)
theorem EncodedLength.tas (ea : Ea) : EncodedLength.Statement (.tas ea) :=
  eaThen_length _ _ _ (by simp)
theorem EncodedLength.shal (sz : Size) (ea : Ea) : EncodedLength.Statement (.shal sz ea) :=
  eaThen_length _ _ _ (by simp)
theorem EncodedLength.shar (sz : Size) (ea : Ea) : EncodedLength.Statement (.shar sz ea) :=
  eaThen_length _ _ _ (by simp)
theorem EncodedLength.shll (sz : Size) (ea : Ea) : EncodedLength.Statement (.shll sz ea) :=
  eaThen_length _ _ _ (by simp)
theorem EncodedLength.shlr (sz : Size) (ea : Ea) : EncodedLength.Statement (.shlr sz ea) :=
  eaThen_length _ _ _ (by simp)
theorem EncodedLength.rotl (sz : Size) (ea : Ea) : EncodedLength.Statement (.rotl sz ea) :=
  eaThen_length _ _ _ (by simp)
theorem EncodedLength.rotr (sz : Size) (ea : Ea) : EncodedLength.Statement (.rotr sz ea) :=
  eaThen_length _ _ _ (by simp)
theorem EncodedLength.rotxl (sz : Size) (ea : Ea) : EncodedLength.Statement (.rotxl sz ea) :=
  eaThen_length _ _ _ (by simp)
theorem EncodedLength.rotxr (sz : Size) (ea : Ea) : EncodedLength.Statement (.rotxr sz ea) :=
  eaThen_length _ _ _ (by simp)
theorem EncodedLength.addG (sz : Size) (ea : Ea) (rd : Reg) : EncodedLength.Statement (.addG sz ea rd) :=
  eaThen_length _ _ _ (by simp)
theorem EncodedLength.adds (sz : Size) (ea : Ea) (rd : Reg) : EncodedLength.Statement (.adds sz ea rd) :=
  eaThen_length _ _ _ (by simp)
theorem EncodedLength.sub (sz : Size) (ea : Ea) (rd : Reg) : EncodedLength.Statement (.sub sz ea rd) :=
  eaThen_length _ _ _ (by simp)
theorem EncodedLength.subs (sz : Size) (ea : Ea) (rd : Reg) : EncodedLength.Statement (.subs sz ea rd) :=
  eaThen_length _ _ _ (by simp)
theorem EncodedLength.orG (sz : Size) (ea : Ea) (rd : Reg) : EncodedLength.Statement (.orG sz ea rd) :=
  eaThen_length _ _ _ (by simp)
theorem EncodedLength.bsetR (sz : Size) (rs : Reg) (ea : Ea) : EncodedLength.Statement (.bsetR sz rs ea) :=
  eaThen_length _ _ _ (by simp)
theorem EncodedLength.orc (imm : Word) (cr : ControlReg) : EncodedLength.Statement (.orc imm cr) := by
  have := encodeControlImm_length cr imm
  simp only [EncodedLength.Statement, encode, List.length_append, List.length_singleton]
  omega
theorem EncodedLength.andG (sz : Size) (ea : Ea) (rd : Reg) : EncodedLength.Statement (.andG sz ea rd) :=
  eaThen_length _ _ _ (by simp)
theorem EncodedLength.bclrR (sz : Size) (rs : Reg) (ea : Ea) : EncodedLength.Statement (.bclrR sz rs ea) :=
  eaThen_length _ _ _ (by simp)
theorem EncodedLength.andc (imm : Word) (cr : ControlReg) : EncodedLength.Statement (.andc imm cr) := by
  have := encodeControlImm_length cr imm
  simp only [EncodedLength.Statement, encode, List.length_append, List.length_singleton]
  omega
theorem EncodedLength.xorG (sz : Size) (ea : Ea) (rd : Reg) : EncodedLength.Statement (.xorG sz ea rd) :=
  eaThen_length _ _ _ (by simp)
theorem EncodedLength.bnotR (sz : Size) (rs : Reg) (ea : Ea) : EncodedLength.Statement (.bnotR sz rs ea) :=
  eaThen_length _ _ _ (by simp)
theorem EncodedLength.xorc (imm : Word) (cr : ControlReg) : EncodedLength.Statement (.xorc imm cr) := by
  have := encodeControlImm_length cr imm
  simp only [EncodedLength.Statement, encode, List.length_append, List.length_singleton]
  omega
theorem EncodedLength.cmpG (sz : Size) (ea : Ea) (rd : Reg) : EncodedLength.Statement (.cmpG sz ea rd) :=
  eaThen_length _ _ _ (by simp)
theorem EncodedLength.btstR (sz : Size) (rs : Reg) (ea : Ea) : EncodedLength.Statement (.btstR sz rs ea) :=
  eaThen_length _ _ _ (by simp)
theorem EncodedLength.movGLoad (sz : Size) (ea : Ea) (rd : Reg) : EncodedLength.Statement (.movGLoad sz ea rd) :=
  eaThen_length _ _ _ (by simp)
theorem EncodedLength.ldc (ea : Ea) (cr : ControlReg) : EncodedLength.Statement (.ldc ea cr) :=
  eaThen_length _ _ _ (by simp)
theorem EncodedLength.xch (rs : Reg) (rd : Reg) : EncodedLength.Statement (.xch rs rd) :=
  eaThen_length _ _ _ (by simp)
theorem EncodedLength.movGStore (sz : Size) (rs : Reg) (ea : Ea) : EncodedLength.Statement (.movGStore sz rs ea) :=
  eaThen_length _ _ _ (by simp)
theorem EncodedLength.stc (cr : ControlReg) (ea : Ea) : EncodedLength.Statement (.stc cr ea) :=
  eaThen_length _ _ _ (by simp)
theorem EncodedLength.addx (sz : Size) (ea : Ea) (rd : Reg) : EncodedLength.Statement (.addx sz ea rd) :=
  eaThen_length _ _ _ (by simp)
theorem EncodedLength.mulxu (sz : Size) (ea : Ea) (rd : Reg) : EncodedLength.Statement (.mulxu sz ea rd) :=
  eaThen_length _ _ _ (by simp)
theorem EncodedLength.subx (sz : Size) (ea : Ea) (rd : Reg) : EncodedLength.Statement (.subx sz ea rd) :=
  eaThen_length _ _ _ (by simp)
theorem EncodedLength.divxu (sz : Size) (ea : Ea) (rd : Reg) : EncodedLength.Statement (.divxu sz ea rd) :=
  eaThen_length _ _ _ (by simp)
theorem EncodedLength.bsetI (sz : Size) (n : BitVec 4) (ea : Ea) : EncodedLength.Statement (.bsetI sz n ea) :=
  eaThen_length _ _ _ (by simp)
theorem EncodedLength.bclrI (sz : Size) (n : BitVec 4) (ea : Ea) : EncodedLength.Statement (.bclrI sz n ea) :=
  eaThen_length _ _ _ (by simp)
theorem EncodedLength.bnotI (sz : Size) (n : BitVec 4) (ea : Ea) : EncodedLength.Statement (.bnotI sz n ea) :=
  eaThen_length _ _ _ (by simp)
theorem EncodedLength.btstI (sz : Size) (n : BitVec 4) (ea : Ea) : EncodedLength.Statement (.btstI sz n ea) :=
  eaThen_length _ _ _ (by simp)
theorem EncodedLength.movfpe (ea : Ea) (rd : Reg) : EncodedLength.Statement (.movfpe ea rd) :=
  eaThen_length _ _ _ (by simp)
theorem EncodedLength.movtpe (rs : Reg) (ea : Ea) : EncodedLength.Statement (.movtpe rs ea) :=
  eaThen_length _ _ _ (by simp)
theorem EncodedLength.dadd (rs : Reg) (rd : Reg) : EncodedLength.Statement (.dadd rs rd) :=
  eaThen_length _ _ _ (by simp)
theorem EncodedLength.dsub (rs : Reg) (rd : Reg) : EncodedLength.Statement (.dsub rs rd) :=
  eaThen_length _ _ _ (by simp)
theorem EncodedLength.nop : EncodedLength.Statement .nop := by
  simp [EncodedLength.Statement, encode]
theorem EncodedLength.scbF (r : Reg) (d : Byte) : EncodedLength.Statement (.scbF r d) := by
  simp [EncodedLength.Statement, encode]
theorem EncodedLength.scbNE (r : Reg) (d : Byte) : EncodedLength.Statement (.scbNE r d) := by
  simp [EncodedLength.Statement, encode]
theorem EncodedLength.scbEQ (r : Reg) (d : Byte) : EncodedLength.Statement (.scbEQ r d) := by
  simp [EncodedLength.Statement, encode]
theorem EncodedLength.ldm (list : Byte) : EncodedLength.Statement (.ldm list) := by
  simp [EncodedLength.Statement, encode]
theorem EncodedLength.stm (list : Byte) : EncodedLength.Statement (.stm list) := by
  simp [EncodedLength.Statement, encode]
theorem EncodedLength.pjsrAbs (page : Byte) (a : Word) : EncodedLength.Statement (.pjsrAbs page a) := by
  simp [EncodedLength.Statement, encode, wordBytes]
theorem EncodedLength.pjmpAbs (page : Byte) (a : Word) : EncodedLength.Statement (.pjmpAbs page a) := by
  simp [EncodedLength.Statement, encode, wordBytes]
theorem EncodedLength.trapa (v : BitVec 4) : EncodedLength.Statement (.trapa v) := by
  simp [EncodedLength.Statement, encode]
theorem EncodedLength.trapVS : EncodedLength.Statement .trapVS := by
  simp [EncodedLength.Statement, encode]
theorem EncodedLength.rte : EncodedLength.Statement .rte := by
  simp [EncodedLength.Statement, encode]
theorem EncodedLength.bsr8 (d : Byte) : EncodedLength.Statement (.bsr8 d) := by
  simp [EncodedLength.Statement, encode]
theorem EncodedLength.bsr16 (d : Word) : EncodedLength.Statement (.bsr16 d) := by
  simp [EncodedLength.Statement, encode, wordBytes]
theorem EncodedLength.unlk : EncodedLength.Statement .unlk := by
  simp [EncodedLength.Statement, encode]
theorem EncodedLength.jmpAbs (a : Word) : EncodedLength.Statement (.jmpAbs a) := by
  simp [EncodedLength.Statement, encode, wordBytes]
theorem EncodedLength.jsrAbs (a : Word) : EncodedLength.Statement (.jsrAbs a) := by
  simp [EncodedLength.Statement, encode, wordBytes]
theorem EncodedLength.rtd8 (i : Byte) : EncodedLength.Statement (.rtd8 i) := by
  simp [EncodedLength.Statement, encode]
theorem EncodedLength.rtd16 (i : Word) : EncodedLength.Statement (.rtd16 i) := by
  simp [EncodedLength.Statement, encode, wordBytes]
theorem EncodedLength.link8 (i : Byte) : EncodedLength.Statement (.link8 i) := by
  simp [EncodedLength.Statement, encode]
theorem EncodedLength.link16 (i : Word) : EncodedLength.Statement (.link16 i) := by
  simp [EncodedLength.Statement, encode, wordBytes]
theorem EncodedLength.rts : EncodedLength.Statement .rts := by
  simp [EncodedLength.Statement, encode]
theorem EncodedLength.sleep : EncodedLength.Statement .sleep := by
  simp [EncodedLength.Statement, encode]
theorem EncodedLength.prtd8 (i : Byte) : EncodedLength.Statement (.prtd8 i) := by
  simp [EncodedLength.Statement, encode]
theorem EncodedLength.prtd16 (i : Word) : EncodedLength.Statement (.prtd16 i) := by
  simp [EncodedLength.Statement, encode, wordBytes]
theorem EncodedLength.prts : EncodedLength.Statement .prts := by
  simp [EncodedLength.Statement, encode]
theorem EncodedLength.pjmpReg (r : Reg) : EncodedLength.Statement (.pjmpReg r) := by
  simp [EncodedLength.Statement, encode]
theorem EncodedLength.pjsrReg (r : Reg) : EncodedLength.Statement (.pjsrReg r) := by
  simp [EncodedLength.Statement, encode]
theorem EncodedLength.jmpInd (r : Reg) : EncodedLength.Statement (.jmpInd r) := by
  simp [EncodedLength.Statement, encode]
theorem EncodedLength.jsrInd (r : Reg) : EncodedLength.Statement (.jsrInd r) := by
  simp [EncodedLength.Statement, encode]
theorem EncodedLength.jmpDisp8 (r : Reg) (d : Byte) : EncodedLength.Statement (.jmpDisp8 r d) := by
  simp [EncodedLength.Statement, encode]
theorem EncodedLength.jsrDisp8 (r : Reg) (d : Byte) : EncodedLength.Statement (.jsrDisp8 r d) := by
  simp [EncodedLength.Statement, encode]
theorem EncodedLength.jmpDisp16 (r : Reg) (d : Word) : EncodedLength.Statement (.jmpDisp16 r d) := by
  simp [EncodedLength.Statement, encode, wordBytes]
theorem EncodedLength.jsrDisp16 (r : Reg) (d : Word) : EncodedLength.Statement (.jsrDisp16 r d) := by
  simp [EncodedLength.Statement, encode, wordBytes]
theorem EncodedLength.bcc8 (cc : Cond) (d : Byte) : EncodedLength.Statement (.bcc8 cc d) := by
  simp [EncodedLength.Statement, encode]
theorem EncodedLength.bcc16 (cc : Cond) (d : Word) : EncodedLength.Statement (.bcc16 cc d) := by
  simp [EncodedLength.Statement, encode, wordBytes]
theorem EncodedLength.cmpE (imm : Byte) (rd : Reg) : EncodedLength.Statement (.cmpE imm rd) := by
  simp [EncodedLength.Statement, encode]
theorem EncodedLength.cmpI (imm : Word) (rd : Reg) : EncodedLength.Statement (.cmpI imm rd) := by
  simp [EncodedLength.Statement, encode, wordBytes]
theorem EncodedLength.movE (imm : Byte) (rd : Reg) : EncodedLength.Statement (.movE imm rd) := by
  simp [EncodedLength.Statement, encode]
theorem EncodedLength.movI (imm : Word) (rd : Reg) : EncodedLength.Statement (.movI imm rd) := by
  simp [EncodedLength.Statement, encode, wordBytes]
theorem EncodedLength.movL (sz : Size) (a : Byte) (rd : Reg) : EncodedLength.Statement (.movL sz a rd) := by
  simp [EncodedLength.Statement, encode]
theorem EncodedLength.movS (sz : Size) (rs : Reg) (a : Byte) : EncodedLength.Statement (.movS sz rs a) := by
  simp [EncodedLength.Statement, encode]
theorem EncodedLength.movFLoad (sz : Size) (d : Byte) (rd : Reg) : EncodedLength.Statement (.movFLoad sz d rd) := by
  simp [EncodedLength.Statement, encode]
theorem EncodedLength.movFStore (sz : Size) (rs : Reg) (d : Byte) : EncodedLength.Statement (.movFStore sz rs d) := by
  simp [EncodedLength.Statement, encode]
theorem EncodedLength.invalid0B : EncodedLength.Statement .invalid0B := by
  simp [EncodedLength.Statement, encode]
theorem EncodedLength.invalid16 : EncodedLength.Statement .invalid16 := by
  simp [EncodedLength.Statement, encode]
theorem EncodedLength.invalid1B : EncodedLength.Statement .invalid1B := by
  simp [EncodedLength.Statement, encode]
theorem EncodedLength.invalidSecond (g : SecondGroup) (b2 : Byte) : EncodedLength.Statement (.invalidSecond g b2) := by
  simp [EncodedLength.Statement, encode]

end Sys2Proof.Laws
end

