-- ==== Sys2Proof/Tests/Slice0.lean ====
section
/-! SUPPORT. Tests: the checks of WellFormed, words written out from the spec's encoding of each instruction, one step of
each instruction with a result that spec/95_test_vectors.md gives (V1 to V254), and a state that meets the hypotheses of each
obligation that has some. -/

set_option Elab.async false

namespace Sys2Proof.Tests

open Sys2Proof.Machine

/-! ### WellFormed refuses -/

/-- H'08 after a register is ADD:Q (30_encoding.md R133), no invalid code. -/
theorem test_illformed_undefined_op_register : Instr.wf (.eaRn .byte .r0 (.op 0x08)) = false := by decide
/-- H'13 after a memory operand is CLR. -/
theorem test_illformed_undefined_op_memory : Instr.wf (.eaInd .byte .r0 (.op 0x13)) = false := by decide
theorem test_illformed_undefined_op_predec : Instr.wf (.eaPreDec .word .r1 (.op 0x04)) = false := by decide
theorem test_illformed_undefined_op_postinc : Instr.wf (.eaPostInc .word .r1 (.op 0x20)) = false := by decide
theorem test_illformed_undefined_op_disp8 : Instr.wf (.eaDisp8 .byte .r1 0 (.prefixed 0x90)) = false := by decide
theorem test_illformed_undefined_op_disp16 : Instr.wf (.eaDisp16 .byte .r1 0 (.prefixed 0x14)) = false := by decide
theorem test_illformed_undefined_op_abs8 : Instr.wf (.eaAbs8 .byte 0 (.op 0xFF)) = false := by decide
theorem test_illformed_undefined_op_abs16 : Instr.wf (.eaAbs16 .byte 0 (.op 0x05)) = false := by decide
/-- H'20 after an immediate is ADD:G. -/
theorem test_illformed_undefined_op_imm8 : Instr.wf (.eaImm8 0 (.op 0x20)) = false := by decide
/-- The prefix H'00 is itself invalid after an immediate. -/
theorem test_illformed_undefined_prefix_imm16 : Instr.wf (.eaImm16 0 (.prefixed 0x00)) = false := by decide
theorem test_illformed_cmp_imm_register : Instr.wf (.cmpGImm8 (.reg .r0) 0) = false := by decide
theorem test_illformed_cmp_imm16_immediate : Instr.wf (.cmpGImm16 (.imm16 0) 0) = false := by decide
theorem test_illformed_mov_imm_register : Instr.wf (.movGImm8 (.reg .r0) 0) = false := by decide
theorem test_illformed_mov_imm16_register : Instr.wf (.movGImm16 (.reg .r0) 0) = false := by decide
theorem test_illformed_addq_immediate : Instr.wf (.addQ1 .byte (.imm8 0)) = false := by decide
theorem test_illformed_clr_immediate : Instr.wf (.clr .byte (.imm8 0)) = false := by decide
theorem test_illformed_tas_immediate : Instr.wf (.tas (.imm8 0)) = false := by decide
theorem test_illformed_shift_immediate : Instr.wf (.shal .word (.imm16 0)) = false := by decide
/-- An immediate has the operand size (R126). -/
theorem test_illformed_add_wide_immediate : Instr.wf (.addG .byte (.imm16 0) .r0) = false := by decide
theorem test_illformed_mov_narrow_immediate : Instr.wf (.movGLoad .word (.imm8 0) .r0) = false := by decide
theorem test_illformed_bit_immediate : Instr.wf (.bsetR .byte .r0 (.imm8 0)) = false := by decide
theorem test_illformed_bit_number_immediate : Instr.wf (.btstI .byte 0 (.imm8 0)) = false := by decide
/-- CCR takes eight bits (44_system_control.md R338). -/
theorem test_illformed_control_wide_immediate : Instr.wf (.orc 0x100 .ccr) = false := by decide
theorem test_illformed_ldc_wide_immediate : Instr.wf (.ldc (.imm16 0) .dp) = false := by decide
theorem test_illformed_stc_immediate : Instr.wf (.stc .sr (.imm16 0)) = false := by decide
/-- A move between registers is the load form (40_data_transfer.md R172). -/
theorem test_illformed_store_register : Instr.wf (.movGStore .word .r0 (.reg .r1)) = false := by decide
theorem test_illformed_movfpe_register : Instr.wf (.movfpe (.reg .r0) .r1) = false := by decide
theorem test_illformed_movtpe_immediate : Instr.wf (.movtpe .r1 (.imm8 0)) = false := by decide
/-- H'11 14 is PRTD (30_encoding.md R134). -/
theorem test_illformed_second_byte : Instr.wf (.invalidSecond .page 0x14) = false := by decide

/-! ### Decoding: words written out from spec/30_encoding.md R125 to R137, family by family -/

theorem test_decode_invalid_codes :
    decode [0xA3, 0x01] = .instr (.eaRn .byte .r3 (.op 0x01)) 2 ∧
    decode [0xAB, 0x00, 0x07] = .instr (.eaRn .word .r3 (.prefixed 0x07)) 3 ∧
    decode [0xB7, 0x01] = .instr (.eaPreDec .byte .r7 (.op 0x01)) 2 ∧
    decode [0xC8, 0x12] = .instr (.eaPostInc .word .r0 (.op 0x12)) 2 ∧
    decode [0xD1, 0x10] = .instr (.eaInd .byte .r1 (.op 0x10)) 2 ∧
    decode [0xE1, 0x80, 0x11] = .instr (.eaDisp8 .byte .r1 0x80 (.op 0x11)) 3 ∧
    decode [0xF9, 0x12, 0x34, 0x0A] = .instr (.eaDisp16 .word .r1 0x1234 (.op 0x0A)) 4 ∧
    decode [0x05, 0x20, 0x0B] = .instr (.eaAbs8 .byte 0x20 (.op 0x0B)) 3 ∧
    decode [0x1D, 0x12, 0x34, 0x0F] = .instr (.eaAbs16 .word 0x1234 (.op 0x0F)) 4 ∧
    decode [0x04, 0x12, 0x1F] = .instr (.eaImm8 0x12 (.op 0x1F)) 3 ∧
    decode [0x0C, 0x12, 0x34, 0x90] = .instr (.eaImm16 0x1234 (.op 0x90)) 4 ∧
    decode [0x0B] = .instr (.invalid0B) 1 ∧
    decode [0x16] = .instr (.invalid16) 1 ∧
    decode [0x1B] = .instr (.invalid1B) 1 ∧
    decode [0x01, 0x13] = .instr (.invalidSecond .scbF 0x13) 2 ∧
    decode [0x06, 0x15] = .instr (.invalidSecond .scbNE 0x15) 2 ∧
    decode [0x07, 0x7F] = .instr (.invalidSecond .scbEQ 0x7F) 2 ∧
    decode [0x11, 0x1B] = .instr (.invalidSecond .page 0x1B) 2 := by decide

theorem test_decode_data_transfer :
    decode [0xD2, 0x06, 0x55] = .instr (.movGImm8 (.ind .r2) 0x55) 3 ∧
    decode [0xFA, 0x10, 0x00, 0x07, 0x12, 0x34] = .instr (.movGImm16 (.disp16 .r2 0x1000) 0x1234) 6 ∧
    decode [0xD9, 0x83] = .instr (.movGLoad .word (.ind .r1) .r3) 2 ∧
    decode [0xB6, 0x95] = .instr (.movGStore .byte .r5 (.preDec .r6)) 2 ∧
    decode [0x52, 0x55] = .instr (.movE 0x55 .r2) 2 ∧
    decode [0x5D, 0xFF, 0x00] = .instr (.movI 0xFF00 .r5) 3 ∧
    decode [0x6B, 0x20] = .instr (.movL .word 0x20 .r3) 2 ∧
    decode [0x73, 0x20] = .instr (.movS .byte .r3 0x20) 2 ∧
    decode [0x8C, 0xFE] = .instr (.movFLoad .word 0xFE .r4) 2 ∧
    decode [0x91, 0x04] = .instr (.movFStore .byte .r1 0x04) 2 ∧
    decode [0x02, 0x1D] = .instr (.ldm 0x1D) 2 ∧
    decode [0x12, 0x8F] = .instr (.stm 0x8F) 2 ∧
    decode [0xA9, 0x92] = .instr (.xch .r1 .r2) 2 ∧
    decode [0xA5, 0x10] = .instr (.swap .r5) 2 ∧
    decode [0xD1, 0x00, 0x82] = .instr (.movfpe (.ind .r1) .r2) 3 ∧
    decode [0xE1, 0x02, 0x00, 0x93] = .instr (.movtpe .r3 (.disp8 .r1 0x02)) 4 := by decide

theorem test_decode_arithmetic :
    decode [0x04, 0x01, 0x20] = .instr (.addG .byte (.imm8 0x01) .r0) 3 ∧
    decode [0xA9, 0x08] = .instr (.addQ1 .word (.reg .r1)) 2 ∧
    decode [0xD1, 0x09] = .instr (.addQ2 .byte (.ind .r1)) 2 ∧
    decode [0xA1, 0x0C] = .instr (.addQm1 .byte (.reg .r1)) 2 ∧
    decode [0xB2, 0x0D] = .instr (.addQm2 .byte (.preDec .r2)) 2 ∧
    decode [0xA9, 0x32] = .instr (.sub .word (.reg .r1) .r2) 2 ∧
    decode [0xC9, 0x2F] = .instr (.adds .word (.postInc .r1) .r7) 2 ∧
    decode [0x04, 0xFF, 0x38] = .instr (.subs .byte (.imm8 0xFF) .r0) 3 ∧
    decode [0xA1, 0xA4] = .instr (.addx .byte (.reg .r1) .r4) 2 ∧
    decode [0xA9, 0xB4] = .instr (.subx .word (.reg .r1) .r4) 2 ∧
    decode [0xA1, 0x00, 0xA0] = .instr (.dadd .r1 .r0) 3 ∧
    decode [0xA1, 0x00, 0xB7] = .instr (.dsub .r1 .r7) 3 ∧
    decode [0xA8, 0xAA] = .instr (.mulxu .word (.reg .r0) .r2) 2 ∧
    decode [0xDB, 0xB8] = .instr (.divxu .word (.ind .r3) .r0) 2 ∧
    decode [0xA1, 0x70] = .instr (.cmpG .byte (.reg .r1) .r0) 2 ∧
    decode [0xB3, 0x04, 0xAA] = .instr (.cmpGImm8 (.preDec .r3) 0xAA) 3 ∧
    decode [0x1D, 0x20, 0x00, 0x05, 0x12, 0x34] = .instr (.cmpGImm16 (.abs16 0x2000) 0x1234) 6 ∧
    decode [0x41, 0x55] = .instr (.cmpE 0x55 .r1) 2 ∧
    decode [0x49, 0x7F, 0xFF] = .instr (.cmpI 0x7FFF .r1) 3 ∧
    decode [0xA6, 0x11] = .instr (.exts .r6) 2 ∧
    decode [0xA6, 0x12] = .instr (.extu .r6) 2 ∧
    decode [0xD8, 0x16] = .instr (.tst .word (.ind .r0)) 2 ∧
    decode [0xA0, 0x14] = .instr (.neg .byte (.reg .r0)) 2 ∧
    decode [0xF5, 0x10, 0x00, 0x13] = .instr (.clr .byte (.disp16 .r5 0x1000)) 4 ∧
    decode [0x05, 0x20, 0x17] = .instr (.tas (.abs8 0x20)) 3 := by decide

theorem test_decode_logic_shift_bit :
    decode [0x0C, 0x00, 0xFF, 0x50] = .instr (.andG .word (.imm16 0x00FF) .r0) 4 ∧
    decode [0xD9, 0x41] = .instr (.orG .word (.ind .r1) .r1) 2 ∧
    decode [0xA1, 0x62] = .instr (.xorG .byte (.reg .r1) .r2) 2 ∧
    decode [0xA0, 0x15] = .instr (.notG .byte (.reg .r0)) 2 ∧
    decode [0xA8, 0x18] = .instr (.shal .word (.reg .r0)) 2 ∧
    decode [0xA0, 0x19] = .instr (.shar .byte (.reg .r0)) 2 ∧
    decode [0xA0, 0x1A] = .instr (.shll .byte (.reg .r0)) 2 ∧
    decode [0xD0, 0x1B] = .instr (.shlr .byte (.ind .r0)) 2 ∧
    decode [0xA8, 0x1C] = .instr (.rotl .word (.reg .r0)) 2 ∧
    decode [0xA8, 0x1D] = .instr (.rotr .word (.reg .r0)) 2 ∧
    decode [0xA8, 0x1E] = .instr (.rotxl .word (.reg .r0)) 2 ∧
    decode [0xC8, 0x1F] = .instr (.rotxr .word (.postInc .r0)) 2 ∧
    decode [0xD0, 0x49] = .instr (.bsetR .byte .r1 (.ind .r0)) 2 ∧
    decode [0xD0, 0x5A] = .instr (.bclrR .byte .r2 (.ind .r0)) 2 ∧
    decode [0xE1, 0x01, 0x6A] = .instr (.bnotR .byte .r2 (.disp8 .r1 0x01)) 3 ∧
    decode [0xA0, 0x79] = .instr (.btstR .byte .r1 (.reg .r0)) 2 ∧
    decode [0xA0, 0xC7] = .instr (.bsetI .byte 7 (.reg .r0)) 2 ∧
    decode [0xA8, 0xDF] = .instr (.bclrI .word 15 (.reg .r0)) 2 ∧
    decode [0xA0, 0xE0] = .instr (.bnotI .byte 0 (.reg .r0)) 2 ∧
    decode [0xA8, 0xF8] = .instr (.btstI .word 8 (.reg .r0)) 2 := by decide

theorem test_decode_branch :
    decode [0x27, 0xF0] = .instr (.bcc8 .beq 0xF0) 2 ∧
    decode [0x3E, 0x80, 0x00] = .instr (.bcc16 .bgt 0x8000) 3 ∧
    decode [0x0E, 0x10] = .instr (.bsr8 0x10) 2 ∧
    decode [0x1E, 0xFF, 0x00] = .instr (.bsr16 0xFF00) 3 ∧
    decode [0x01, 0xBC, 0xFC] = .instr (.scbF .r4 0xFC) 3 ∧
    decode [0x06, 0xBB, 0xF0] = .instr (.scbNE .r3 0xF0) 3 ∧
    decode [0x07, 0xBB, 0xF0] = .instr (.scbEQ .r3 0xF0) 3 ∧
    decode [0x10, 0x80, 0x00] = .instr (.jmpAbs 0x8000) 3 ∧
    decode [0x11, 0xD1] = .instr (.jmpInd .r1) 2 ∧
    decode [0x11, 0xE4, 0x10] = .instr (.jmpDisp8 .r4 0x10) 3 ∧
    decode [0x11, 0xF4, 0x80, 0x00] = .instr (.jmpDisp16 .r4 0x8000) 4 ∧
    decode [0x18, 0x80, 0x00] = .instr (.jsrAbs 0x8000) 3 ∧
    decode [0x11, 0xDF] = .instr (.jsrInd .r7) 2 ∧
    decode [0x11, 0xEB, 0x10] = .instr (.jsrDisp8 .r3 0x10) 3 ∧
    decode [0x11, 0xFB, 0x0F, 0xFF] = .instr (.jsrDisp16 .r3 0x0FFF) 4 ∧
    decode [0x19] = .instr (.rts) 1 ∧
    decode [0x14, 0xFE] = .instr (.rtd8 0xFE) 2 ∧
    decode [0x1C, 0x01, 0x00] = .instr (.rtd16 0x0100) 3 ∧
    decode [0x13, 0x02, 0x80, 0x00] = .instr (.pjmpAbs 0x02 0x8000) 4 ∧
    decode [0x11, 0xC4] = .instr (.pjmpReg .r4) 2 ∧
    decode [0x03, 0x01, 0x00, 0x00] = .instr (.pjsrAbs 0x01 0x0000) 4 ∧
    decode [0x11, 0xCE] = .instr (.pjsrReg .r6) 2 ∧
    decode [0x11, 0x19] = .instr (.prts) 2 ∧
    decode [0x11, 0x14, 0x08] = .instr (.prtd8 0x08) 3 ∧
    decode [0x11, 0x1C, 0xFF, 0xFC] = .instr (.prtd16 0xFFFC) 4 := by decide

theorem test_decode_system_control :
    decode [0x0C, 0xFF, 0xFF, 0x88] = .instr (.ldc (.imm16 0xFFFF) .sr) 4 ∧
    decode [0xA0, 0x8D] = .instr (.ldc (.reg .r0) .dp) 2 ∧
    decode [0xB7, 0x9F] = .instr (.stc .tp (.preDec .r7)) 2 ∧
    decode [0x04, 0xFE, 0x59] = .instr (.andc 0x00FE .ccr) 3 ∧
    decode [0x04, 0x80, 0x4C] = .instr (.orc 0x0080 .ep) 3 ∧
    decode [0x04, 0xFF, 0x6B] = .instr (.xorc 0x00FF .br) 3 ∧
    decode [0x08, 0x1F] = .instr (.trapa 15) 2 ∧
    decode [0x09] = .instr (.trapVS) 1 ∧
    decode [0x0A] = .instr (.rte) 1 ∧
    decode [0x00] = .instr (.nop) 1 ∧
    decode [0x1A] = .instr (.sleep) 1 ∧
    decode [0x17, 0xFC] = .instr (.link8 0xFC) 2 ∧
    decode [0x1F, 0xFF, 0x00] = .instr (.link16 0xFF00) 3 ∧
    decode [0x0F] = .instr (.unlk) 1 := by decide

/-- Codes that are refused (V34, V37, V42, V72, V93, V174, V197, V204, V205, V224; R146). -/
theorem test_decode_refuses :
    decode [0xA8, 0x10] = .rejected (.sizeNotAllowed 0x10) 2 ∧
    decode [0xA1, 0x92] = .rejected (.sizeNotAllowed 0x92) 2 ∧
    decode [0xD0, 0x05, 0x00, 0x01] = .rejected (.sizeNotAllowed 0x05) 2 ∧
    decode [0xA0, 0x88] = .rejected (.controlRegisterNotAllowed 0) 2 ∧
    decode [0x0C, 0x00, 0x00, 0x89] = .rejected (.controlRegisterNotAllowed 1) 4 ∧
    decode [0xD1, 0x00, 0xA0] = .rejected (.operandClassNotAllowed 0xA0) 3 ∧
    decode [0xA1, 0x00, 0x80] = .rejected (.operandClassNotAllowed 0x80) 3 ∧
    decode [0x08, 0x00] = .rejected (.undefinedTrapa 0x00) 2 ∧
    decode [0x01, 0xC0, 0x00] = .rejected (.undefinedSecondByte .scbF 0xC0) 2 ∧
    decode [0x11, 0x80] = .rejected (.undefinedSecondByte .page 0x80) 2 ∧
    decode [0xA1] = .rejected (.truncated) 1 := by decide

/-! ### One step -/

/-- The default start of the vectors: minimum mode, SR H'0700, everything else 0, the code at H'1000. -/
def start (code : List Byte) : State :=
  { State.reset with mode := .minimum, modePins := .minimum, pc := 0x1000 }.placeCode 0x1000 code

/-- The default start in maximum mode, in code page 1. -/
def startMax (code : List Byte) : State := { State.reset with cp := 0x01, pc := 0x1000 }.placeCode 0x1000 code

/-- A word in memory. -/
def poke (a : Nat) (v : Word) (s : State) : State :=
  { s with mem := (s.mem.writeAt a (hiByte v)).writeAt (a + 1) (loByte v) }

/-- A byte in memory. -/
def pokeByte (a : Nat) (v : Byte) (s : State) : State := { s with mem := s.mem.writeAt a v }

/-- The condition codes NZVC as a number. -/
def nzvc (f : BitVec 4) (s : State) : State :=
  s.setFlags ⟨f.getLsbD 3, f.getLsbD 2, f.getLsbD 1, f.getLsbD 0⟩

/-- NZVC read as a number. -/
def codes (t : State) : BitVec 4 := t.sr.extractLsb' 0 4

/-- The step answers a next state of which this holds. -/
def steps (s : State) (p : State → Bool) : Bool :=
  match step s with
  | .next t => p t
  | .fault _ | .refused _ => false

/-- The step is refused for this reason. -/
def refuses (s : State) (r : Refusal) : Bool :=
  match step s with
  | .refused q => decide (q = r)
  | .next _ | .fault _ => false

/-- The step ends in this fault. -/
def faults (s : State) (f : Fault) : Bool :=
  match step s with
  | .fault g => decide (g = f)
  | .next _ | .refused _ => false

/-- V1. -/
theorem test_mov_g_byte :
    steps (((start [0xA1, 0x80]).setReg .r0 0xAB00).setReg .r1 0x12FF)
      (fun t => t.reg .r0 == 0xABFF && codes t == 8 && t.pc == 0x1002) = true := by decide
/-- V4. -/
theorem test_mov_g_pop :
    steps (poke 0xFF00 0x1234 ((start [0xCF, 0x80]).setReg .r7 0xFF00))
      (fun t => t.reg .r0 == 0x1234 && t.reg .r7 == 0xFF02 && codes t == 0) = true := by decide
/-- V8. -/
theorem test_mov_g_store_predec :
    steps ((start [0xB9, 0x92]).setReg .r2 0xBEEF)
      (fun t => t.reg .r1 == 0xFFFE && t.wordAt 0xFFFE == 0xBEEF && codes t == 8) = true := by decide
/-- V12. -/
theorem test_mov_g_imm8 :
    steps (nzvc 11 { (start [0x05, 0x40, 0x06, 0x7F]) with br := 0xFF })
      (fun t => t.readByte 0xFF40 == 0x7F && codes t == 1 && t.pc == 0x1004) = true := by decide
/-- V13. -/
theorem test_mov_g_imm16_page :
    steps { ((startMax [0xEC, 0x04, 0x07, 0x12, 0x34]).setReg .r4 0x8000) with ep := 0x02 }
      (fun t => t.wordAt 0x28004 == 0x1234 && t.pc == 0x1005) = true := by decide
/-- V15. -/
theorem test_mov_l :
    steps (nzvc 11 { ((start [0x60, 0xA0]).setReg .r0 0x1234) with br := 0xFF })
      (fun t => t.reg .r0 == 0x1200 && codes t == 5 && t.pc == 0x1002) = true := by decide
/-- V19. -/
theorem test_mov_s :
    steps { ((start [0x71, 0x10]).setReg .r1 0x12F0) with br := 0x20 }
      (fun t => t.readByte 0x2010 == 0xF0 && codes t == 8) = true := by decide
/-- V20. -/
theorem test_mov_f_load :
    steps (pokeByte 0xFE04 0x99 ((start [0x80, 0x04]).setReg .r6 0xFE00))
      (fun t => t.reg .r0 == 0x0099 && codes t == 8) = true := by decide
/-- V21. -/
theorem test_mov_f_store_page :
    steps { (((startMax [0x99, 0xFE]).setReg .r1 0x0001).setReg .r6 0xFE00) with tp := 0x01 }
      (fun t => t.wordAt 0x1FDFE == 0x0001 && codes t == 0) = true := by decide
/-- V22. -/
theorem test_mov_e :
    steps (nzvc 15 ((start [0x50, 0x55]).setReg .r0 0xFF00))
      (fun t => t.reg .r0 == 0xFF55 && codes t == 1) = true := by decide
/-- V23. -/
theorem test_mov_i :
    steps (start [0x5D, 0xFF, 0x00])
      (fun t => t.reg .r5 == 0xFF00 && codes t == 8 && t.pc == 0x1003) = true := by decide
/-- V24. -/
theorem test_ldm :
    steps (poke 0xFF06 0x4444 (poke 0xFF04 0x3333 (poke 0xFF02 0x2222 (poke 0xFF00 0x1111 ((start [0x02, 0x1D]).setReg .r7 0xFF00)))))
      (fun t => t.reg .r0 == 0x1111 && t.reg .r2 == 0x2222 && t.reg .r4 == 0x4444 && t.reg .r7 == 0xFF08) = true := by decide
/-- V25. -/
theorem test_ldm_sp :
    steps (poke 0xFF02 0xAAAA (poke 0xFF00 0x1111 ((start [0x02, 0x81]).setReg .r7 0xFF00)))
      (fun t => t.reg .r0 == 0x1111 && t.reg .r7 == 0xFF04) = true := by decide
/-- V27. -/
theorem test_stm_sp :
    steps (((start [0x12, 0x81]).setReg .r0 0x1111).setReg .r7 0xFF00)
      (fun t => t.reg .r7 == 0xFEFC && t.wordAt 0xFEFE == 0xFEFE && t.wordAt 0xFEFC == 0x1111) = true := by decide
/-- V32. -/
theorem test_xch :
    steps (nzvc 15 (((start [0xA9, 0x92]).setReg .r1 0x1111).setReg .r2 0x2222))
      (fun t => t.reg .r1 == 0x2222 && t.reg .r2 == 0x1111 && codes t == 15) = true := by decide
/-- V39. -/
theorem test_movtpe :
    steps (nzvc 5 (((start [0xD1, 0x00, 0x90]).setReg .r0 0x12C3).setReg .r1 0x8000))
      (fun t => t.readByte 0x8000 == 0xC3 && codes t == 5 && t.pc == 0x1003) = true := by decide
/-- V41. -/
theorem test_movfpe :
    steps (nzvc 8 (pokeByte 0x8002 0x3C (((start [0xE1, 0x02, 0x00, 0x82]).setReg .r1 0x8000).setReg .r2 0xFF00)))
      (fun t => t.reg .r2 == 0xFF3C && codes t == 8) = true := by decide
/-- V46. -/
theorem test_add_carry_overflow :
    steps ((start [0x0C, 0x80, 0x00, 0x21]).setReg .r1 0x8000)
      (fun t => t.reg .r1 == 0x0000 && codes t == 7 && t.pc == 0x1004) = true := by decide
/-- V53. -/
theorem test_addq_1 :
    steps (poke 0x2000 0x7FFF ((start [0xD8, 0x08]).setReg .r0 0x2000))
      (fun t => t.wordAt 0x2000 == 0x8000 && codes t == 10) = true := by decide
/-- V50. -/
theorem test_addq_2 :
    steps ((start [0xA8, 0x09]).setReg .r0 0xFFFE) (fun t => t.reg .r0 == 0x0000 && codes t == 5) = true := by decide
/-- V49. -/
theorem test_addq_m1 :
    steps ((start [0xA0, 0x0C]).setReg .r0 0x5501) (fun t => t.reg .r0 == 0x5500 && codes t == 5) = true := by decide
/-- V52. -/
theorem test_addq_m2 :
    steps (pokeByte 0x2000 0x01 ((start [0xB2, 0x0D]).setReg .r2 0x2001))
      (fun t => t.reg .r2 == 0x2000 && t.readByte 0x2000 == 0xFF && codes t == 8) = true := by decide
/-- V57. -/
theorem test_sub_borrow :
    steps ((start [0xA9, 0x32]).setReg .r1 0x0001) (fun t => t.reg .r2 == 0xFFFF && codes t == 9) = true := by decide
/-- V60. -/
theorem test_addx :
    steps (nzvc 5 (((start [0xA1, 0xA0]).setReg .r0 0x0001).setReg .r1 0x0001))
      (fun t => t.reg .r0 == 0x0003 && codes t == 0) = true := by decide
/-- V62. -/
theorem test_subx :
    steps (nzvc 5 ((start [0xA9, 0xB0]).setReg .r0 0x8000))
      (fun t => t.reg .r0 == 0x7FFF && codes t == 2) = true := by decide
/-- V63. -/
theorem test_adds :
    steps (nzvc 15 ((start [0x04, 0x80, 0x28]).setReg .r0 0x0100))
      (fun t => t.reg .r0 == 0x0080 && codes t == 15) = true := by decide
/-- V67. -/
theorem test_subs :
    steps (start [0x04, 0xFF, 0x38]) (fun t => t.reg .r0 == 0x0001 && codes t == 0) = true := by decide
/-- V68. -/
theorem test_dadd :
    steps (nzvc 5 (((start [0xA1, 0x00, 0xA0]).setReg .r0 0xAA45).setReg .r1 0x0055))
      (fun t => t.reg .r0 == 0xAA01 && codes t == 1) = true := by decide
/-- V74. -/
theorem test_dsub :
    steps (nzvc 5 (start [0xA1, 0x00, 0xB0])) (fun t => t.reg .r0 == 0x0099 && codes t == 1) = true := by decide
/-- V76. -/
theorem test_mulxu_byte :
    steps (nzvc 3 (((start [0xA0, 0xA9]).setReg .r0 0x12FF).setReg .r1 0x34FF))
      (fun t => t.reg .r1 == 0xFE01 && codes t == 8) = true := by decide
/-- V78. -/
theorem test_mulxu_word :
    steps ((((start [0xA8, 0xAA]).setReg .r0 0xFFFF).setReg .r2 0x1234).setReg .r3 0xFFFF)
      (fun t => t.reg .r2 == 0x1233 && t.reg .r3 == 0xEDCC && codes t == 0) = true := by decide
/-- V84. -/
theorem test_divxu_word :
    steps (poke 0x2000 0x0007 (((start [0xDB, 0xB8]).setReg .r1 0x0064).setReg .r3 0x2000))
      (fun t => t.reg .r0 == 0x0002 && t.reg .r1 == 0x000E && codes t == 0) = true := by decide
/-- V82. -/
theorem test_divxu_overflow :
    steps (nzvc 9 (((start [0xA2, 0xB8]).setReg .r0 0xFFFF).setReg .r2 0x0001))
      (fun t => t.reg .r0 == 0xFFFF && codes t == 2) = true := by decide
/-- V90. -/
theorem test_cmp_g :
    steps (((start [0xA1, 0x70]).setReg .r0 0x0001).setReg .r1 0x0002)
      (fun t => t.reg .r0 == 0x0001 && codes t == 9) = true := by decide
/-- V92. -/
theorem test_cmp_g_imm8 :
    steps (pokeByte 0x2000 0xAB ((start [0xB3, 0x04, 0xAA]).setReg .r3 0x2001))
      (fun t => t.reg .r3 == 0x2000 && codes t == 0) = true := by decide
/-- V91. -/
theorem test_cmp_g_imm16 :
    steps (poke 0x2000 0x1234 (start [0x1D, 0x20, 0x00, 0x05, 0x12, 0x34]))
      (fun t => codes t == 4 && t.pc == 0x1006) = true := by decide
/-- V94. -/
theorem test_cmp_e :
    steps ((start [0x40, 0x01]).setReg .r0 0xFF00) (fun t => codes t == 9) = true := by decide
/-- V95. -/
theorem test_cmp_i :
    steps ((start [0x49, 0x7F, 0xFF]).setReg .r1 0x8000) (fun t => codes t == 2) = true := by decide
/-- V97. -/
theorem test_exts :
    steps (nzvc 7 ((start [0xA0, 0x11]).setReg .r0 0x1280))
      (fun t => t.reg .r0 == 0xFF80 && codes t == 8) = true := by decide
/-- V100. -/
theorem test_extu :
    steps (nzvc 15 ((start [0xA1, 0x12]).setReg .r1 0xFFFF))
      (fun t => t.reg .r1 == 0x00FF && codes t == 0) = true := by decide
/-- V103. -/
theorem test_tst :
    steps (nzvc 11 ((start [0xD8, 0x16]).setReg .r0 0x2000)) (fun t => codes t == 4) = true := by decide
/-- V105. -/
theorem test_neg_overflow :
    steps ((start [0xA0, 0x14]).setReg .r0 0x1280) (fun t => t.reg .r0 == 0x1280 && codes t == 11) = true := by decide
/-- V109. -/
theorem test_clr_wraps :
    steps (pokeByte 0x0000 0x55 ((start [0xF5, 0x10, 0x00, 0x13]).setReg .r5 0xF000))
      (fun t => t.readByte 0x0000 == 0x00 && codes t == 4) = true := by decide
/-- V112. -/
theorem test_tas :
    steps (nzvc 7 (pokeByte 0x2000 0x80 ((start [0xD0, 0x17]).setReg .r0 0x2000)))
      (fun t => t.readByte 0x2000 == 0x80 && codes t == 8) = true := by decide
/-- V114. -/
theorem test_and :
    steps (nzvc 11 ((start [0x04, 0x0F, 0x50]).setReg .r0 0xFFF0))
      (fun t => t.reg .r0 == 0xFF00 && codes t == 5) = true := by decide
/-- V116. -/
theorem test_or :
    steps (nzvc 6 (poke 0x2000 0x8001 (((start [0xD9, 0x40]).setReg .r0 0x00F0).setReg .r1 0x2000)))
      (fun t => t.reg .r0 == 0x80F1 && codes t == 8) = true := by decide
/-- V117. -/
theorem test_xor :
    steps (nzvc 11 (((start [0xA1, 0x60]).setReg .r0 0x12AA).setReg .r1 0x34AA))
      (fun t => t.reg .r0 == 0x1200 && codes t == 5) = true := by decide
/-- V120. -/
theorem test_not :
    steps (poke 0x2010 0x7FFF ((start [0xF9, 0x00, 0x10, 0x15]).setReg .r1 0x2000))
      (fun t => t.wordAt 0x2010 == 0x8000 && codes t == 8) = true := by decide
/-- V123. -/
theorem test_shal_overflow :
    steps ((start [0xA0, 0x18]).setReg .r0 0x1280) (fun t => t.reg .r0 == 0x1200 && codes t == 7) = true := by decide
/-- V124. -/
theorem test_shar :
    steps (nzvc 2 ((start [0xA8, 0x19]).setReg .r0 0x8001))
      (fun t => t.reg .r0 == 0xC000 && codes t == 9) = true := by decide
/-- V127. -/
theorem test_shll :
    steps ((start [0xA0, 0x1A]).setReg .r0 0x0180) (fun t => t.reg .r0 == 0x0100 && codes t == 5) = true := by decide
/-- V129. -/
theorem test_shlr :
    steps (pokeByte 0x2000 0x01 ((start [0xD0, 0x1B]).setReg .r0 0x2000))
      (fun t => t.readByte 0x2000 == 0x00 && codes t == 5) = true := by decide
/-- V130. -/
theorem test_rotl :
    steps ((start [0xA8, 0x1C]).setReg .r0 0x8000) (fun t => t.reg .r0 == 0x0001 && codes t == 1) = true := by decide
/-- V132. -/
theorem test_rotr :
    steps ((start [0xA8, 0x1D]).setReg .r0 0x0001) (fun t => t.reg .r0 == 0x8000 && codes t == 9) = true := by decide
/-- V134. -/
theorem test_rotxl :
    steps (nzvc 1 (start [0xA8, 0x1E])) (fun t => t.reg .r0 == 0x0001 && codes t == 0) = true := by decide
/-- V138. -/
theorem test_rotxr :
    steps (nzvc 1 (poke 0x2000 0x0003 ((start [0xC8, 0x1F]).setReg .r0 0x2000)))
      (fun t => t.reg .r0 == 0x2002 && t.wordAt 0x2000 == 0x8001 && codes t == 9) = true := by decide
/-- V140. -/
theorem test_bset_imm :
    steps (nzvc 11 ((start [0xA0, 0xC7]).setReg .r0 0x1200))
      (fun t => t.reg .r0 == 0x1280 && codes t == 15) = true := by decide
/-- V143. -/
theorem test_bset_reg_self :
    steps ((start [0xA9, 0x49]).setReg .r1 0x000F) (fun t => t.reg .r1 == 0x800F && codes t == 4) = true := by decide
/-- V144. -/
theorem test_bclr :
    steps ((start [0xA8, 0xDF]).setReg .r0 0xFFFF) (fun t => t.reg .r0 == 0x7FFF && codes t == 0) = true := by decide
/-- V148. -/
theorem test_bnot_reg :
    steps (pokeByte 0x2001 0x0F (((start [0xE1, 0x01, 0x6A]).setReg .r1 0x2000).setReg .r2 0x0004))
      (fun t => t.readByte 0x2001 == 0x1F && codes t == 4) = true := by decide
/-- V152. -/
theorem test_btst_reg :
    steps (((start [0xA0, 0x79]).setReg .r0 0x0100).setReg .r1 0x0010)
      (fun t => t.reg .r0 == 0x0100 && codes t == 4) = true := by decide
/-- V158. -/
theorem test_bcc8_taken :
    steps (nzvc 4 (start [0x27, 0x7F])) (fun t => t.pc == 0x1081) = true := by decide
/-- V160. -/
theorem test_bcc16_wraps :
    steps (start [0x36, 0x80, 0x00]) (fun t => t.pc == 0x9003) = true := by decide
/-- V163. -/
theorem test_bsr8 :
    steps ((start [0x0E, 0x10]).setReg .r7 0xFF00)
      (fun t => t.reg .r7 == 0xFEFE && t.wordAt 0xFEFE == 0x1002 && t.pc == 0x1012) = true := by decide
/-- V164. -/
theorem test_bsr16 :
    steps ((start [0x1E, 0xFF, 0x00]).setReg .r7 0xFF00)
      (fun t => t.wordAt 0xFEFE == 0x1003 && t.pc == 0x0F03) = true := by decide
/-- V168. -/
theorem test_scb_f :
    steps ((start [0x01, 0xBC, 0xFC]).setReg .r4 0xFFFF)
      (fun t => t.reg .r4 == 0xFFFE && t.pc == 0x0FFF) = true := by decide
/-- V170. -/
theorem test_scb_ne :
    steps (nzvc 4 ((start [0x06, 0xBB, 0xF0]).setReg .r3 0x0005))
      (fun t => t.reg .r3 == 0x0004 && t.pc == 0x0FF3) = true := by decide
/-- V171. -/
theorem test_scb_eq :
    steps (start [0x07, 0xBB, 0xF0]) (fun t => t.reg .r3 == 0xFFFF && t.pc == 0x1003) = true := by decide
/-- V178. -/
theorem test_jmp_disp16_wraps :
    steps ((start [0x11, 0xF4, 0x80, 0x00]).setReg .r4 0x9000) (fun t => t.pc == 0x1000) = true := by decide
/-- V180. -/
theorem test_jsr_sp :
    steps ((start [0x11, 0xDF]).setReg .r7 0xFF00)
      (fun t => t.reg .r7 == 0xFEFE && t.wordAt 0xFEFE == 0x1002 && t.pc == 0xFF00) = true := by decide
/-- V182. -/
theorem test_rts :
    steps (poke 0xFEFE 0x1234 ((start [0x19]).setReg .r7 0xFEFE))
      (fun t => t.reg .r7 == 0xFF00 && t.pc == 0x1234) = true := by decide
/-- V185. -/
theorem test_rtd8 :
    steps (poke 0xFEFA 0x1234 ((start [0x14, 0xFE]).setReg .r7 0xFEFA))
      (fun t => t.reg .r7 == 0xFEFA && t.pc == 0x1234) = true := by decide
/-- V186. -/
theorem test_rtd16 :
    steps (poke 0xFEFA 0x1234 ((start [0x1C, 0x01, 0x00]).setReg .r7 0xFEFA))
      (fun t => t.reg .r7 == 0xFFFC && t.pc == 0x1234) = true := by decide
/-- V187. -/
theorem test_pjmp :
    steps (startMax [0x13, 0x02, 0x80, 0x00]) (fun t => t.cp == 0x02 && t.pc == 0x8000) = true := by decide
/-- V189. -/
theorem test_pjmp_reg :
    steps (((startMax [0x11, 0xC4]).setReg .r4 0xFF02).setReg .r5 0x8000)
      (fun t => t.cp == 0x02 && t.pc == 0x8000) = true := by decide
/-- V191. -/
theorem test_pjsr :
    steps ((startMax [0x03, 0x01, 0x00, 0x00]).setReg .r7 0xFF00)
      (fun t => t.reg .r7 == 0xFEFC && t.cp == 0x01 && t.pc == 0x0000) = true := by decide
/-- V192. -/
theorem test_pjsr_reg_sp :
    steps (((startMax [0x11, 0xCE]).setReg .r6 0x0003).setReg .r7 0xFF00)
      (fun t => t.reg .r7 == 0xFEFC && t.cp == 0x03 && t.pc == 0xFF00) = true := by decide
/-- V193. -/
theorem test_prts :
    steps (poke 0xFEFE 0x1004 (poke 0xFEFC 0xAB02 ((startMax [0x11, 0x19]).setReg .r7 0xFEFC)))
      (fun t => t.reg .r7 == 0xFF00 && t.cp == 0x02 && t.pc == 0x1004) = true := by decide
/-- V195. -/
theorem test_prtd8 :
    steps (poke 0xFEF6 0x1004 (poke 0xFEF4 0x0002 ((startMax [0x11, 0x14, 0x08]).setReg .r7 0xFEF4)))
      (fun t => t.reg .r7 == 0xFF00 && t.cp == 0x02 && t.pc == 0x1004) = true := by decide
/-- V200. -/
theorem test_ldc_sr :
    steps { (start [0x0C, 0xFF, 0xFF, 0x88]) with sr := 0 }
      (fun t => t.sr == 0x870F && t.pc == 0x1004) = true := by decide
/-- V202. -/
theorem test_ldc_dp :
    steps (nzvc 15 ((start [0xA0, 0x8D]).setReg .r0 0x1203))
      (fun t => t.dp == 0x03 && codes t == 15) = true := by decide
/-- V209. -/
theorem test_stc_ccr :
    steps (nzvc 10 ((start [0xA0, 0x99]).setReg .r0 0xFF00))
      (fun t => t.reg .r0 == 0xFF0A && codes t == 10) = true := by decide
/-- V215. -/
theorem test_andc_dp :
    steps (nzvc 11 { (start [0x04, 0x00, 0x5D]) with dp := 0x55 })
      (fun t => t.dp == 0 && codes t == 5) = true := by decide
/-- V217. -/
theorem test_orc_tp :
    steps (nzvc 7 { (start [0x04, 0x80, 0x4F]) with tp := 0x01 })
      (fun t => t.tp == 0x81 && codes t == 9) = true := by decide
/-- V219. -/
theorem test_xorc_sr_holds_trace :
    steps ((start [0x0C, 0x80, 0x00, 0x68]).setReg .r7 0xFF00)
      (fun t => t.sr == 0x8700 && t.pc == 0x1004) = true := by decide
/-- V222. -/
theorem test_trapa :
    steps (poke 0x0028 0x5000 ({ (start [0x08, 0x14]) with sr := 0x0305 }.setReg .r7 0xFF00))
      (fun t => t.reg .r7 == 0xFEFC && t.wordAt 0xFEFE == 0x1002 && t.wordAt 0xFEFC == 0x0305 && t.pc == 0x5000) = true := by decide
/-- V226. -/
theorem test_trap_vs :
    steps (nzvc 2 (poke 0x0008 0x4400 ((start [0x09]).setReg .r7 0xFF00)))
      (fun t => t.reg .r7 == 0xFEFC && t.wordAt 0xFEFE == 0x1001 && t.pc == 0x4400) = true := by decide
/-- V228. -/
theorem test_rte_maximum :
    steps { (poke 0xFEFE 0x1002 (poke 0xFEFC 0xEE01 (poke 0xFEFA 0x0305 ((startMax [0x0A]).setReg .r7 0xFEFA)))) with sr := 0 }
      (fun t => t.reg .r7 == 0xFF00 && t.cp == 0x01 && t.sr == 0x0305 && t.pc == 0x1002) = true := by decide
/-- V231. -/
theorem test_link8 :
    steps (((start [0x17, 0xFC]).setReg .r6 0x6666).setReg .r7 0xFF00)
      (fun t => t.reg .r6 == 0xFEFE && t.reg .r7 == 0xFEFA && t.wordAt 0xFEFE == 0x6666) = true := by decide
/-- V233. -/
theorem test_link16 :
    steps (((start [0x1F, 0xFF, 0x00]).setReg .r6 0x6666).setReg .r7 0xFF00)
      (fun t => t.reg .r6 == 0xFEFE && t.reg .r7 == 0xFDFE) = true := by decide
/-- V234. -/
theorem test_unlk :
    steps (poke 0xFEFE 0x6666 (((start [0x0F]).setReg .r6 0xFEFE).setReg .r7 0xFE00))
      (fun t => t.reg .r6 == 0x6666 && t.reg .r7 == 0xFF00) = true := by decide
/-- V236. -/
theorem test_sleep :
    steps (start [0x1A]) (fun t => decide (t.cpuState = .sleep) && t.pc == 0x1001) = true := by decide
/-- V244. -/
theorem test_trace :
    steps (poke 0x0012 0x4900 ({ (start [0x00]) with sr := 0x8700 }.setReg .r7 0xFF00))
      (fun t => t.reg .r7 == 0xFEFC && t.wordAt 0xFEFC == 0x8700 && t.sr == 0x0700 && t.pc == 0x4900) = true := by decide
/-- V247. -/
theorem test_interrupt :
    steps { (poke 0x0042 0x6100 ({ (start [0x00]) with sr := 0x0300 }.setReg .r7 0xFF00)) with pending := [⟨4, 1⟩] }
      (fun t => t.reg .r7 == 0xFEFC && t.wordAt 0xFEFC == 0x0300 && t.sr == 0x0400 && t.pc == 0x6100) = true := by decide
/-- V249. -/
theorem test_nmi :
    steps (poke 0x0016 0x4B00 ({ (start [0x00]) with sr := 0x070F, nmiRequest := true }.setReg .r7 0xFF00))
      (fun t => t.reg .r7 == 0xFEFC && t.wordAt 0xFEFC == 0x070F && codes t == 15 && t.pc == 0x4B00) = true := by decide

/-- Refused operands (V11, V70, V80, V150, V190). -/
theorem test_refused_operands :
    refuses ((start [0xC9, 0x81]).setReg .r1 0x2000) .eaSideEffectOnOperandRegister = true ∧
    refuses ((start [0xA1, 0x00, 0xA0]).setReg .r0 0x000A) .invalidBcdDigit = true ∧
    refuses (start [0xA9, 0xA9]) .oddRegisterPair = true ∧
    refuses (start [0xA0, 0xF8]) .bitNumberExceedsOperandSize = true ∧
    refuses (startMax [0x11, 0xC5]) .oddRegisterPair = true := by decide

/-- V110, with the address beside the next instruction: the misaligned store of CLR.W @R1 is noted as an address error and
as no store, so nothing stands before its address error exception (20_memory.md R79, 60_exceptions.md R388). -/
theorem test_misaligned_store_beside_code :
    (match exec (.clr .word (.ind .r1)) (((start [0xD9, 0x13]).setReg .r1 0x1003).begin 2) with
      | .next t => t.aerr && t.stores.isEmpty
      | _ => false) = true := by
  decide

/-- V31: the sequence after a misaligned push meets the odd stack pointer. -/
theorem test_stack_error : faults ((start [0x12, 0x01]).setReg .r7 0xFF01) .stackErrorInSequence = true := by decide


/-! ### For each obligation with hypotheses, states and operands that meet them together, clause by clause -/

/-- A state in minimum mode: R1 points at the word H'0007, R7 at H'FF00. -/
def sample : State := poke 0x2000 0x0007 (((start []).setReg .r1 0x2000).setReg .r7 0xFF00)

/-- The same in maximum mode. -/
def sampleMax : State := poke 0x2000 0x0007 (((startMax []).setReg .r1 0x2000).setReg .r7 0xFF00)

/-- The instruction answers a next state. -/
def runs (i : Instr) (s : State) : Bool :=
  match exec i s with
  | .next _ => true
  | .fault _ | .refused _ => false

theorem next_of_runs {i : Instr} {s : State} (h : runs i s = true) : ∃ t, exec i s = .next t := by
  unfold runs at h
  split at h
  · exact ⟨_, by assumption⟩
  all_goals cases h

theorem next_of_steps {s : State} {p : State → Bool} (h : steps s p = true) : ∃ t, step s = .next t := by
  unfold steps at h
  split at h
  · exact ⟨_, by assumption⟩
  all_goals cases h

theorem sample_inv : Inv sample := ⟨by decide, by decide, by decide, by decide, by decide⟩

theorem sample_quiet : Quiet sample := ⟨by decide, by decide, by decide, by decide⟩

theorem sample_stack : sample.mem.wf = true ∧ odd (sample.reg .r7) = false ∧ sample.mode = .minimum := by decide

theorem sampleMax_stack :
    sampleMax.mem.wf = true ∧ odd (sampleMax.reg .r7) = false ∧ sampleMax.mode = .maximum := by decide

theorem witness_DecodeOfEncode :
    Instr.wf (.eaDisp16 .word .r7 0xFFFF (.prefixed 0xAF)) = true ∧ Instr.wf (.eaImm8 0 (.op 0x00)) = true ∧
    Instr.wf (.movGImm16 (.disp16 .r7 0xFFFF) 0xFFFF) = true ∧ Instr.wf (.addG .word (.imm16 0) .r7) = true ∧
    Instr.wf (.bsetI .word 15 (.reg .r7)) = true ∧ Instr.wf (.scbEQ .r7 0x80) = true ∧
    Instr.wf (.orc 0xFFFF .sr) = true ∧ Instr.wf .nop = true := by decide

theorem witness_EncodeOfDecode :
    decode [0x00] = .instr .nop 1 ∧
    decode [0xFF, 0xFF, 0xFF, 0x07, 0x80, 0x00] = .instr (.movGImm16 (.disp16 .r7 0xFFFF) 0x8000) 6 := by decide

theorem witness_TrapaSecondByte :
    (0x10#8).toNat / 16 = 1 ∧ (0x1F#8).toNat / 16 = 1 ∧ (0x0F#8).toNat / 16 ≠ 1 ∧ (0x20#8).toNat / 16 ≠ 1 := by decide

theorem witness_StepRunsDecoded :
    (Quiet sample ∧ sample.decodeAt sample.pc = .instr .nop 1 ∧ ∃ j, sample.decodeAt (sample.pc + 1) = .instr j 1) ∧
    (let s : State := { start [0x00, 0x08, 0x20] with breqLow := true, chip := .h8520 }
     Quiet s ∧ s.decodeAt s.pc = .instr .nop 1 ∧ ∃ e, s.decodeAt (s.pc + 1) = .rejected e 2) ∧
    (Quiet (start [0x08, 0x20]) ∧
      (start [0x08, 0x20]).decodeAt (start [0x08, 0x20]).pc = .rejected (.undefinedTrapa 0x20) 2) :=
  ⟨⟨sample_quiet, by decide, .nop, by decide⟩,
    ⟨⟨by decide, by decide, by decide, by decide⟩, by decide, .undefinedTrapa 0x20, by decide⟩,
    ⟨by decide, by decide, by decide, by decide⟩, by decide⟩

theorem witness_StepAnswersTheInstruction :
    let t := sample.begin 1
    Quiet sample ∧ sample.decodeAt sample.pc = .instr .nop 1 ∧ exec .nop (sample.begin 1) = .next t ∧
      sample.storedIntoNext 1 t = false ∧ t.aerr = false ∧ (t.flagT = false ∨ t.defer = true) ∧ t.nmiRequest = false ∧
      t.presented = none :=
  ⟨sample_quiet, by decide, rfl, by decide, by decide, by decide, by decide, by decide⟩

theorem witness_StepKeepsInv : Inv sample ∧ ∃ t, step sample = .next t :=
  ⟨sample_inv, next_of_steps (p := fun _ => true) (by decide)⟩

theorem witness_ResetExit :
    let s : State := { sample with cpuState := .reset }
    let u : State := { s with modePins := .maximum }
    (s.cpuState = .reset ∧ s.resLow = false ∧ s.stbyLow = false ∧ s.modePins = .minimum) ∧
    (u.cpuState = .reset ∧ u.resLow = false ∧ u.stbyLow = false ∧ u.modePins = .maximum) := by decide

theorem witness_Pins :
    let low : State := { sample with resLow := true, stbyLow := true }
    let stby : State := { sample with stbyLow := true }
    let standby : State := { sample with cpuState := .hardwareStandby, resLow := true }
    let breq : State := { sample with breqLow := true }
    let released : State := { breq with cpuState := .busReleased }
    (low.cpuState ≠ .hardwareStandby ∧ low.resLow = true) ∧
    (stby.cpuState ≠ .hardwareStandby ∧ stby.resLow = false ∧ stby.stbyLow = true) ∧
    (standby.cpuState = .hardwareStandby ∧ standby.stbyLow = false ∧ standby.resLow = true) ∧
    ({ standby with resLow := false }.cpuState = .hardwareStandby ∧
      ¬({ standby with resLow := false }.stbyLow = false ∧ { standby with resLow := false }.resLow = true)) ∧
    (breq.resLow = false ∧ breq.stbyLow = false ∧ breq.cpuState = .executing ∧ breq.breqLow = true ∧
      breq.chip ≠ .h8520) ∧
    ({ breq with chip := .h8520 }.cpuState = .executing ∧ { breq with chip := .h8520 }.chip = .h8520) ∧
    (released.cpuState = .busReleased ∧ released.breqLow = true) ∧
    { released with breqLow := false }.breqLow = false := by decide

theorem witness_TakeException :
    (sample.mem.wf = true ∧ odd (sample.reg .r7) = false) ∧ (sampleMax.mem.wf = true ∧ odd (sampleMax.reg .r7) = false) := by
  decide

theorem witness_OddStackInSequence :
    odd ((sample.setReg .r7 0x0001).reg .r7) = true ∧ odd ((sample.setReg .r7 0xFFFF).reg .r7) = true ∧
    (let s : State := { sample with cpuState := .reset }
     s.cpuState = .reset ∧ s.resLow = false ∧ s.stbyLow = false) := by decide

theorem witness_AddressErrorAndTraceTaken :
    let s : State := { sample with aerr := true }
    let d : State := { sample with aerr := true, sr := 0x8700, defer := true }
    let u : State := { sample with sr := 0x8700 }
    let b : State := { sample with aerr := true, sr := 0x8700 }
    (∀ x ∈ [s, d, u, b], x.mem.wf = true ∧ odd (x.reg .r7) = false ∧ x.nmiRequest = false ∧ x.presented = none) ∧
    (s.aerr = true ∧ (s.flagT = false ∨ s.defer = true)) ∧ (d.aerr = true ∧ (d.flagT = false ∨ d.defer = true)) ∧
    (u.aerr = false ∧ u.flagT = true ∧ u.defer = false) ∧ (b.aerr = true ∧ b.flagT = true ∧ b.defer = false) := by decide

theorem witness_DeferHoldsOff :
    let s : State := { sample with sr := 0x8000, defer := true, nmiRequest := true, pending := [⟨7, 0⟩] }
    s.defer = true ∧ s.aerr = false := by decide

theorem witness_NmiAcceptedMaskedRequestsWait :
    (let s : State := { sample with nmiRequest := true }
     s.mem.wf = true ∧ odd (s.reg .r7) = false ∧ s.nmiRequest = true ∧ s.intMask = 7 ∧ (s.aerr = true ∨ s.defer = false)) ∧
    (let s : State := { sample with nmiRequest := true, aerr := true, defer := true }
     s.mem.wf = true ∧ odd (s.reg .r7) = false ∧ s.nmiRequest = true ∧ (s.aerr = true ∨ s.defer = false)) ∧
    (let s : State := { sample with sr := 0x0300, pending := [⟨3, 0⟩, ⟨0, 47⟩] }
     s.nmiRequest = false ∧ (∀ q ∈ s.pending, q.level.toNat ≤ s.intMask.toNat) ∧ s.aerr = false ∧ s.flagT = false) := by
  decide

theorem witness_InterruptAccepted :
    let s : State := { sample with sr := 0x0300, pending := [⟨3, 0⟩, ⟨4, 1⟩, ⟨4, 2⟩] }
    let u : State := { s with aerr := true, defer := true }
    (s.mem.wf = true ∧ odd (s.reg .r7) = false ∧ s.nmiRequest = false ∧ s.presented = some ⟨4, 1⟩ ∧
      (s.aerr = true ∨ s.defer = false)) ∧
    (u.mem.wf = true ∧ odd (u.reg .r7) = false ∧ u.nmiRequest = false ∧ u.presented = some ⟨4, 1⟩ ∧
      (u.aerr = true ∨ u.defer = false)) := by decide

theorem witness_SleepAndSoftwareStandby :
    let s : State := { sample with cpuState := .sleep, sr := 0x0300 }
    let u : State := { sample with cpuState := .softwareStandby }
    (s.resLow = false ∧ s.stbyLow = false ∧ s.cpuState = .sleep ∧ s.mem.wf = true ∧ odd (s.reg .r7) = false) ∧
    ({ s with pending := [⟨3, 0⟩] }.nmiRequest = false ∧
      ∀ q ∈ { s with pending := [⟨3, 0⟩] }.pending, q.level.toNat ≤ { s with pending := [⟨3, 0⟩] }.intMask.toNat) ∧
    { s with nmiRequest := true }.nmiRequest = true ∧
    ({ s with pending := [⟨4, 0⟩] }.nmiRequest = false ∧ { s with pending := [⟨4, 0⟩] }.presented = some ⟨4, 0⟩) ∧
    (u.resLow = false ∧ u.stbyLow = false ∧ u.cpuState = .softwareStandby ∧ u.mem.wf = true ∧
      odd (u.reg .r7) = false) ∧
    (u.nmiRequest = false ∨ u.chip = .h8570) ∧
    ({ u with nmiRequest := true, chip := .h8570 }.nmiRequest = false ∨
      { u with nmiRequest := true, chip := .h8570 }.chip = .h8570) ∧
    ({ u with nmiRequest := true }.nmiRequest = true ∧ { u with nmiRequest := true }.chip ≠ .h8570) := by decide

theorem witness_MovToRegister :
    (movesReg (.postInc .r1) .r0 = false ∧ (sample.place .word (.postInc .r1)).aligned = true) ∧
    (sample.place .word (.abs8 0xFE)).aligned = true ∧ (sample.place .byte (.abs8 0xFF)).aligned = true ∧
    (sample.place .word (.disp8 .r6 0x80)).aligned = true ∧ (sample.place .byte (.disp8 .r6 0x7F)).aligned = true := by decide

theorem witness_MovToMemory :
    (Ea.isMemory (.preDec .r1) = true ∧ sample.mem.wf = true ∧ movesReg (.preDec .r1) .r0 = false ∧
      (sample.place .word (.preDec .r1)).aligned = true) ∧
    (Ea.isMemory (.disp8 .r1 0x81) = true ∧ (sample.place .byte (.disp8 .r1 0x81)).aligned = true) ∧
    (Ea.isMemory (.ind .r1) = true ∧ (sample.place .word (.ind .r1)).aligned = true) ∧
    (sample.place .word (.abs8 0xFE)).aligned = true ∧ (sample.place .word (.disp8 .r6 0x80)).aligned = true := by decide

theorem witness_StmStores :
    sample.mem.wf = true ∧ odd (sample.reg .r7) = false ∧ (listedRegs 0xFF).reverse[0]? = some .r7 ∧
    (listedRegs 0xFF).reverse[7]? = some .r0 ∧ (listedRegs 0x00).reverse[0]? = none := by decide

theorem witness_LdmLoads :
    odd (sample.reg .r7) = false ∧ (listedRegs 0x81)[0]? = some .r0 ∧ Reg.r0 ≠ .r7 ∧ Reg.r3 ∉ listedRegs 0x81 := by decide

theorem witness_LdmRestoresStm : sample.mem.wf = true ∧ odd (sample.reg .r7) = false := by decide

theorem witness_PeripheralMoves :
    sample.chip ≠ .h8520 ∧ movesReg (.postInc .r1) .r0 = false ∧ (sample.place .byte (.postInc .r1)).aligned = true ∧
    Ea.isMemory (.postInc .r1) = true ∧ sample.mem.wf = true := by decide

theorem witness_AddAndSubtract :
    (movesReg (.ind .r1) .r1 = false ∧ (sample.place .word (.ind .r1)).aligned = true) ∧
    (movesReg (.preDec .r1) .r0 = false ∧ (sample.place .byte (.preDec .r1)).aligned = true) := by decide

theorem witness_AddQuick :
    Ea.isPlace (.reg .r7) = true ∧ sample.mem.wf = true ∧ (sample.place .word (.reg .r7)).aligned = true ∧
    Ea.isPlace (.postInc .r1) = true ∧ (sample.place .word (.postInc .r1)).aligned = true := by decide

theorem witness_AddsAndSubs :
    (movesReg (.imm8 0x80) .r7 = false ∧ (sample.place .byte (.imm8 0x80)).aligned = true) ∧
    (movesReg (.postInc .r1) .r7 = false ∧ (sample.place .word (.postInc .r1)).aligned = true) := by decide

theorem witness_CompareAndTest :
    movesReg (.postInc .r1) .r0 = false ∧ (sample.place .word (.postInc .r1)).aligned = true ∧
    (sample.place .byte (.preDec .r1)).aligned = true ∧ (sample.place .word (.abs16 0x2000)).aligned = true := by decide

theorem witness_DecimalArithmetic :
    let s := (sample.setReg .r0 0x1299).setReg .r2 0xFF00
    bcdValid (loByte (s.reg .r0)) = true ∧ bcdValid (loByte (s.reg .r2)) = true := by decide

theorem witness_Multiply :
    (movesReg (.postInc .r1) .r0 = false ∧ (sample.place .byte (.postInc .r1)).aligned = true) ∧
    (isOddReg .r6 = false ∧ movesReg (.postInc .r1) .r6 = false ∧ movesReg (.postInc .r1) (nextReg .r6) = false ∧
      (sample.place .word (.postInc .r1)).aligned = true) := by decide

theorem witness_DivideFits :
    let s := (sample.setReg .r2 0x06FF).setReg .r3 0xFFFF
    (movesReg (.imm8 7) .r2 = false ∧ (s.place .byte (.imm8 7)).aligned = true ∧
      (s.peek .byte (s.place .byte (.imm8 7))).toNat ≠ 0 ∧
      (s.reg .r2).toNat / (s.peek .byte (s.place .byte (.imm8 7))).toNat = 255) ∧
    (isOddReg .r2 = false ∧ movesReg (.imm16 0x0700) .r2 = false ∧ movesReg (.imm16 0x0700) (nextReg .r2) = false ∧
      (s.place .word (.imm16 0x0700)).aligned = true ∧ (s.peek .word (s.place .word (.imm16 0x0700))).toNat ≠ 0 ∧
      ((s.reg .r2).toNat * 65536 + (s.reg (nextReg .r2)).toNat) /
        (s.peek .word (s.place .word (.imm16 0x0700))).toNat = 65535) := by decide

theorem witness_DivideOverflowAndByZero :
    let s := (sample.setReg .r2 0x0700).setReg .r3 0x0000
    (movesReg (.imm8 7) .r2 = false ∧ (s.place .byte (.imm8 7)).aligned = true ∧
      (s.peek .byte (s.place .byte (.imm8 7))).toNat ≠ 0 ∧
      (s.reg .r2).toNat / (s.peek .byte (s.place .byte (.imm8 7))).toNat = 2 ^ 8) ∧
    (isOddReg .r2 = false ∧ movesReg (.imm16 0x0700) .r2 = false ∧ movesReg (.imm16 0x0700) (nextReg .r2) = false ∧
      (s.place .word (.imm16 0x0700)).aligned = true ∧ (s.peek .word (s.place .word (.imm16 0x0700))).toNat ≠ 0 ∧
      ((s.reg .r2).toNat * 65536 + (s.reg (nextReg .r2)).toNat) /
        (s.peek .word (s.place .word (.imm16 0x0700))).toNat = 2 ^ 16) ∧
    ((s.peek .byte (s.place .byte (.imm8 0))).toNat = 0 ∧ s.mem.wf = true ∧
      odd (s.afterEa .byte (.imm8 0) .r7) = false) ∧
    ((s.peek .word (s.place .word (.ind .r3))).toNat = 0 ∧ (s.place .word (.ind .r3)).aligned = true ∧
      odd (s.afterEa .word (.ind .r3) .r7) = false) := by decide

theorem witness_NegateClearTestAndSet :
    Ea.isPlace (.postInc .r1) = true ∧ sample.mem.wf = true ∧ (sample.place .word (.postInc .r1)).aligned = true ∧
    (sample.place .byte (.postInc .r1)).aligned = true := by decide

theorem witness_Logic :
    movesReg (.postInc .r1) .r0 = false ∧ Ea.isPlace (.postInc .r1) = true ∧ sample.mem.wf = true ∧
    (sample.place .word (.postInc .r1)).aligned = true := by decide

theorem witness_ShiftAndRotate :
    Ea.isPlace (.preDec .r1) = true ∧ sample.mem.wf = true ∧ (sample.place .word (.preDec .r1)).aligned = true ∧
    Ea.isPlace (.reg .r0) = true ∧ (sample.place .byte (.reg .r0)).aligned = true := by decide

theorem witness_Bits :
    let s := sample.setReg .r2 0xFFF7
    let u := sample.setReg .r2 0x123F
    ((s.place .byte (.preDec .r1)).aligned = true ∧ (7#4).toNat < Size.byte.bits ∧
      Ea.isPlace (.preDec .r1) = true ∧ s.mem.wf = true ∧ movesReg (.preDec .r1) .r2 = false ∧
      (s.reg .r2).toNat % 16 < Size.byte.bits ∧ (s.reg .r2).toNat % 16 = 7) ∧
    ((u.place .word (.reg .r2)).aligned = true ∧ (15#4).toNat < Size.word.bits ∧ Ea.isPlace (.reg .r2) = true ∧
      u.mem.wf = true ∧ movesReg (.reg .r2) .r2 = false ∧ (u.reg .r2).toNat % 16 < Size.word.bits ∧
      (u.reg .r2).toNat % 16 = 15) := by decide

theorem witness_BranchJumpSleep : sample.ssby = false ∧ { sample with ssby := true }.ssby = true := by decide

theorem witness_CallsAndReturns : odd (sample.reg .r7) = false ∧ sample.mem.wf = true := by decide

theorem witness_PageBranches :
    sampleMax.mode = .maximum ∧ isOddReg .r6 = false ∧ odd (sampleMax.reg .r7) = false ∧ sampleMax.mem.wf = true := by decide

theorem witness_ReturnUndoesCall :
    (sample.mem.wf = true ∧ odd (sample.reg .r7) = false) ∧
    (sampleMax.mem.wf = true ∧ odd (sampleMax.reg .r7) = false ∧ sampleMax.mode = .maximum ∧ isOddReg .r6 = false) := by
  decide

theorem witness_LoadAndStoreControl :
    ((sample.place (ControlReg.size .sr) (.postInc .r1)).aligned = true ∧ Ea.isPlace (.postInc .r1) = true ∧
      sample.mem.wf = true) ∧
    ((sample.place (ControlReg.size .dp) (.disp8 .r1 0x7F)).aligned = true ∧ Ea.isPlace (.disp8 .r1 0x7F) = true) := by
  decide

theorem witness_Traps :
    (sample.mem.wf = true ∧ odd (sample.reg .r7) = false ∧ sample.flags.v = false) ∧
    (let s := nzvc 2 sample
     s.mem.wf = true ∧ odd (s.reg .r7) = false ∧ s.flags.v = true) := by decide

theorem witness_InvalidCodes :
    (sample.mem.wf = true ∧ odd (sample.reg .r7) = false ∧ sample.mode = .minimum) ∧
    (sampleMax.mem.wf = true ∧ odd (sampleMax.reg .r7) = false) := by decide

theorem witness_ReturnFromException :
    (odd (sample.reg .r7) = false ∧ sample.mode = .minimum) ∧
    (odd (sampleMax.reg .r7) = false ∧ sampleMax.mode = .maximum) := by decide

theorem witness_RteUndoesException :
    (sample.mem.wf = true ∧ odd (sample.reg .r7) = false ∧ sample.sr &&& ~~~srMask = 0) ∧
    (sampleMax.mem.wf = true ∧ odd (sampleMax.reg .r7) = false ∧ sampleMax.sr &&& ~~~srMask = 0) := by decide

theorem witness_LinkAndUnlink :
    sample.mem.wf = true ∧ odd (sample.reg .r7) = false ∧ odd ((sample.setReg .r6 0xFEFE).reg .r6) = false := by decide

theorem witness_OverlapRefused :
    (movesReg (.preDec .r2) .r2 = true ∧ isOddReg .r2 = false ∧ sample.chip ≠ .h8520) ∧
    (movesReg (.postInc .r7) .r7 = true ∧ isOddReg .r6 = false ∧ Reg.r7 = nextReg .r6) := by decide

theorem witness_OperandsRefused :
    isOddReg .r1 = true ∧ sampleMax.mode = .maximum ∧
    9 < ((sample.setReg .r0 0x000A).reg .r0).toNat % 16 ∧ 9 < ((sample.setReg .r0 0x00A0).reg .r0).toNat % 256 / 16 ∧
    8 ≤ (8#4).toNat ∧
    (movesReg (.ind .r1) .r0 = false ∧ 8 ≤ ((sample.setReg .r0 0x0008).reg .r0).toNat % 16) ∧
    { sample with chip := .h8520 }.chip = .h8520 := by decide

theorem witness_MisalignedAccessNoted :
    let s := ((sample.setReg .r1 0xFFFF).setReg .r7 0xFF01).setReg .r6 0x0001
    (movesReg (.ind .r1) .r1 = false ∧ (s.place .word (.ind .r1)).aligned = false ∧
      (s.place .byte (.ind .r7)).aligned = true ∧ (s.place .byte (.postInc .r7)).aligned = false) ∧
    ((15#4).toNat < Size.word.bits ∧ (7#4).toNat < Size.byte.bits ∧ (s.reg .r1).toNat % 16 < Size.word.bits ∧
      movesReg (.postInc .r7) .r0 = false ∧ (s.reg .r0).toNat % 16 < Size.byte.bits) ∧
    (s.chip ≠ .h8520 ∧ isOddReg .r2 = false ∧ movesReg (.ind .r1) .r2 = false ∧
      movesReg (.ind .r1) (nextReg .r2) = false) ∧
    (s.place (ControlReg.size .sr) (.ind .r1)).aligned = false ∧
    (odd (s.reg .r7) = true ∧ (0x80 : Byte) ≠ 0 ∧ { s with mode := .maximum }.mode = .maximum) ∧
    odd (s.reg .r6) = true := by decide

theorem witness_ModeNeverChanges : ∃ t, exec (.trapa 15) sample = .next t := next_of_runs (by decide)

theorem witness_CodePageWriters :
    (∃ t, exec (.pjmpAbs 0x02 0x8000) sampleMax = .next t) ∧ (∃ t, exec .nop sampleMax = .next t) ∧
    (∃ t, exec .rte sample = .next t) ∧ sample.mode = .minimum :=
  ⟨next_of_runs (by decide), next_of_runs (by decide), next_of_runs (by decide), by decide⟩

theorem witness_SystemBitWriters :
    (∃ t, exec (.ldc (.imm16 0x8000) .sr) sample = .next t) ∧ ∃ t, exec (.addG .word (.ind .r1) .r0) sample = .next t :=
  ⟨next_of_runs (by decide), next_of_runs (by decide)⟩

theorem witness_ReservedBitsStayZero :
    (sample.sr &&& ~~~srMask = 0 ∧ ∃ t, exec (.orc 0xFFFF .sr) sample = .next t) ∧
    sample.mem.wf = true ∧ odd (sample.reg .r7) = false :=
  ⟨⟨by decide, next_of_runs (by decide)⟩, by decide, by decide⟩

theorem witness_PhysicalAddress :
    sample.mode = .minimum ∧ sampleMax.mode = .maximum ∧ Reg.r3 ∈ [Reg.r0, .r1, .r2, .r3] ∧ Reg.r4 ∈ [Reg.r4, .r5] ∧
    Reg.r6 ∈ [Reg.r6, .r7] ∧ Reg.r6 ≠ .r7 ∧ 79 < 80 := by decide

theorem witness_WordAccess :
    (∃ t, exec (.bcc8 .bra 0) sample = .next t ∧ t.aerr = false) ∧ sample.mem.wf = true ∧ odd (0xFFFFFE : Addr) = false ∧
    odd (0xFFFFFF : Addr) = true :=
  ⟨⟨_, rfl, by decide⟩, by decide, by decide, by decide⟩


end Sys2Proof.Tests
end

section
/-! SUPPORT. What an instruction can do, said once for all of them: `exec_cases`. A statement about every instruction
splits on the seven ways of `Executed` instead of on the instructions. -/

namespace Sys2Proof.Machine

/-- What an instruction can do to the state. The state `u` before the last update has taken only operand accesses, pushes
and pops, whether they were aligned or not. -/
inductive Executed (i : Instr) (s : State) : State → Prop
  /-- Operands, registers, condition codes and memory only. -/
  | ordinary {t : State} (h : Ordinary s t) : Executed i s t
  /-- A branch, jump, call or return within the page. -/
  | moved {u : State} (v : Word) (h : Ordinary s u) : Executed i s (u.jump v)
  /-- A page-crossing branch in maximum mode. -/
  | crossed {u : State} (page : Byte) (v : Word) (hi : i.crossesPages = true) (hm : s.mode = .maximum)
      (h : Ordinary s u) : Executed i s (u.pageJump page v)
  /-- An exception of the instruction's own, of a kind that leaves the mask. -/
  | raised {u t : State} (e : Exception) (p : Word)
      (hi : i.raises = true ∨ i.crossesPages = true ∧ s.mode = .minimum) (he : e.newMask = none) (h : Ordinary s u)
      (ht : u.takeException e p = .next t) : Executed i s t
  /-- LDC, ANDC, ORC and XORC: the write, then the flags or the post-increment. -/
  | wroteControl {u w : State} (cr : ControlReg) (v : Word) (hi : i.writesControl = some cr) (h : Ordinary s u)
      (hw : Ordinary (u.writeCr cr v) w) : Executed i s w.deferred
  | returned (hi : i = .rte) : Executed i s s.returnFromException
  | slept (hi : i = .sleep) : Executed i s { s with cpuState := if s.ssby then .softwareStandby else .sleep }

/-! ### Guards -/

theorem next_of_unless {c : Prop} [Decidable c] {r : Refusal} {o : Outcome} {t : State}
    (h : (if c then .refused r else o) = .next t) : o = .next t := by
  split at h
  · cases h
  · exact h

theorem next_of_if {c : Prop} [Decidable c] {r : Refusal} {o : Outcome} {t : State}
    (h : (if c then o else .refused r) = .next t) : o = .next t := by
  split at h
  · exact h
  · cases h

/-! ### Instructions that are ordinary -/

section
variable {s t u : State}

theorem ordinary_of_next (k : Ordinary s u) (h : (.next u : Outcome) = .next t) : Ordinary s t := by cases h; exact k

theorem ordinary_withBit {sz : Size} {n : Nat} (k : Ordinary s u) (h : withBit sz n u = .next t) : Ordinary s t :=
  withBit_next h ▸ k

theorem ordinary_withRegBit {sz : Size} {r : Reg} {ea : Ea} {n : Nat} (k : Ordinary s u)
    (h : withRegBit sz r ea n u = .next t) : Ordinary s t :=
  withRegBit_next h ▸ k

theorem ordinary_setReg_setFlags (s : State) (r : Reg) (v : Word) (f : Flags) :
    Ordinary s ((s.setReg r v).setFlags f) :=
  (ordinary_setReg s r v).trans (ordinary_setFlags _ f)

theorem ordinary_dadd {rs rd : Reg} (h : execDadd rs rd s = .next t) : Ordinary s t :=
  ordinary_of_next (ordinary_setReg_setFlags s rd _ _) (next_of_if h)

theorem ordinary_dsub {rs rd : Reg} (h : execDsub rs rd s = .next t) : Ordinary s t :=
  ordinary_of_next (ordinary_setReg_setFlags s rd _ _) (next_of_if h)

theorem ordinary_mulxu {sz : Size} {ea : Ea} {rd : Reg} (h : execMulxu sz ea rd s = .next t) : Ordinary s t := by
  cases sz with
  | byte =>
    exact ordinary_of_next
      (((ordinary_readEa s .byte ea).trans (ordinary_setReg_setFlags _ rd _ _)).trans (ordinary_finish _ .byte ea))
      (next_of_unless h)
  | word =>
    exact ordinary_of_next
      ((((ordinary_readEa s .word ea).trans (ordinary_setPair _ rd _ _)).trans (ordinary_setFlags _ _)).trans
        (ordinary_finish _ .word ea))
      (next_of_unless (next_of_unless h))

theorem ordinary_movGLoad {sz : Size} {ea : Ea} {rd : Reg} (h : execMovGLoad sz ea rd s = .next t) : Ordinary s t :=
  ordinary_of_next (((ordinary_readEa s sz ea).trans (ordinary_moveToReg _ sz rd _)).trans (ordinary_finish _ sz ea))
    (next_of_unless h)

theorem ordinary_movGStore {sz : Size} {rs : Reg} {ea : Ea} (h : execMovGStore sz rs ea s = .next t) : Ordinary s t :=
  ordinary_of_next (ordinary_storeEa s sz ea _ _) (next_of_unless h)

theorem ordinary_movtpe {rs : Reg} {ea : Ea} (h : execMovtpe rs ea s = .next t) : Ordinary s t :=
  ordinary_of_next (ordinary_storeEa s .byte ea _ _) (next_of_unless (next_of_if h))

theorem ordinary_movfpe {ea : Ea} {rd : Reg} (h : execMovfpe ea rd s = .next t) : Ordinary s t :=
  ordinary_of_next
    (((ordinary_readEa s .byte ea).trans (ordinary_writeReg _ .byte rd _)).trans (ordinary_finish _ .byte ea))
    (next_of_unless (next_of_if h))

/-- MOV:L and MOV:F into a register. -/
theorem ordinary_load (s : State) (sz : Size) (l : Loc) (rd : Reg) :
    Ordinary s ((s.readLoc sz l).2.moveToReg sz rd (s.readLoc sz l).1) :=
  (ordinary_readLoc s sz l).trans (ordinary_moveToReg _ sz rd _)

/-- MOV:S and MOV:F from a register. -/
theorem ordinary_store (s : State) (sz : Size) (l : Loc) (v : BitVec sz.bits) (f : Flags) :
    Ordinary s ((s.writeLoc sz l v).setFlags f) :=
  (ordinary_writeLoc s sz l v).trans (ordinary_setFlags _ f)

theorem ordinary_xch (s : State) (rs rd : Reg) : Ordinary s ((s.setReg rs (s.reg rd)).setReg rd (s.reg rs)) :=
  (ordinary_setReg s rs _).trans (ordinary_setReg _ rd _)

theorem ordinary_link (s : State) (d : Word) : Ordinary s (s.link d) :=
  ((ordinary_push16 s _).trans (ordinary_setReg _ .r6 _)).trans (ordinary_setReg _ .r7 _)

theorem ordinary_unlk (h : execUnlk s = .next t) : Ordinary s t :=
  ordinary_of_next (((ordinary_setReg s .r7 _).trans (ordinary_pop16 _)).trans (ordinary_setReg _ .r6 _)) h

end

/-! ### Instructions that move PC -/

section
variable {i : Instr} {s t : State}

theorem executed_of_next {u : State} (k : Executed i s u) (h : (.next u : Outcome) = .next t) : Executed i s t := by
  cases h; exact k

theorem executed_branchIf (b : Bool) (d : Word) : Executed i s (if b then s.branch d else s) := by
  cases b with
  | false => exact .ordinary (.refl s)
  | true => exact .moved (s.pc + d) (.refl s)

theorem executed_countAndBranch (r : Reg) (d : Byte) : Executed i s (s.countAndBranch r d) := by
  unfold State.countAndBranch
  dsimp only
  split
  · exact .ordinary (ordinary_setReg s r _)
  · exact .moved _ (ordinary_setReg s r _)

theorem executed_call (v : Word) : Executed i s (s.call v) := .moved v (ordinary_push16 s s.pc)

theorem executed_popPc : Executed i s s.popPc := .moved s.pop16.1 (ordinary_pop16 s)

theorem executed_popPc_adjustSp (d : Word) : Executed i s (s.popPc.adjustSp d) :=
  .moved s.pop16.1 ((ordinary_pop16 s).trans (ordinary_setReg _ .r7 _))

/-! ### Page-crossing branches -/

/-- An ordinary change is one whatever CP is. -/
theorem Ordinary.withCp {u t : State} (h : Ordinary u t) (c : Byte) : Ordinary { u with cp := c } { t with cp := c } :=
  { h with cp := rfl }

/-- The pops of PRTS and PRTD, with CP put back. -/
theorem ordinary_popCp_pop16 (s : State) : Ordinary s { s.popCp.pop16.2 with cp := s.cp } :=
  ((ordinary_pop16 s).withCp s.cp).trans ((ordinary_pop16 s.popCp).withCp s.cp)

theorem executed_takeInvalid {detection : Word}
    (hi : i.raises = true ∨ i.crossesPages = true ∧ s.mode = .minimum) (h : s.takeInvalid detection = .next t) :
    Executed i s t :=
  .raised .invalidInstruction _ hi rfl (.refl s) h

theorem executed_inMaximum {detection : Word} {o : Outcome} (hi : i.crossesPages = true)
    (k : s.mode = .maximum → o = .next t → Executed i s t) (h : inMaximum detection s o = .next t) :
    Executed i s t := by
  unfold inMaximum at h
  split at h
  next hm => exact executed_takeInvalid (.inr ⟨hi, hm⟩) h
  next hm => exact k hm h

theorem executed_pageJump {page : Byte} {v : Word} (hi : i.crossesPages = true) (hm : s.mode = .maximum)
    (h : (.next (s.pageJump page v) : Outcome) = .next t) : Executed i s t :=
  executed_of_next (.crossed page v hi hm (.refl s)) h

theorem executed_pageCall {page : Byte} {v : Word} (hi : i.crossesPages = true) (hm : s.mode = .maximum)
    (h : (.next (s.pageCall page v) : Outcome) = .next t) : Executed i s t :=
  executed_of_next (.crossed page v hi hm ((ordinary_push16 s s.pc).trans (ordinary_pushByte _ _))) h

theorem executed_pageReturn (hi : i.crossesPages = true) (hm : s.mode = .maximum)
    (h : (.next s.popCp.popPc : Outcome) = .next t) : Executed i s t :=
  executed_of_next (.crossed s.popCp.pop16.2.cp s.popCp.pop16.1 hi hm (ordinary_popCp_pop16 s)) h

theorem executed_pageReturn_adjustSp {d : Word} (hi : i.crossesPages = true) (hm : s.mode = .maximum)
    (h : (.next (s.popCp.popPc.adjustSp d) : Outcome) = .next t) : Executed i s t :=
  executed_of_next
    (.crossed s.popCp.pop16.2.cp s.popCp.pop16.1 hi hm ((ordinary_popCp_pop16 s).trans (ordinary_setReg _ .r7 _))) h

/-! ### Exceptions and control registers -/

theorem executed_finishDivide {sz : Size} {ea : Ea} {w : Nat} {q : Quotient w}
    {write : BitVec w → BitVec w → State → State} {u : State} (hi : i.raises = true) (h : Ordinary s u)
    (hw : ∀ q r, Ordinary u (write q r u)) (ht : finishDivide sz ea q write u = .next t) : Executed i s t := by
  cases q with
  | byZero =>
    exact .raised .zeroDivide _ (.inl hi) rfl
      ((h.trans (ordinary_setFlags _ zeroDivideFlags)).trans (ordinary_finish _ sz ea)) ht
  | overflow =>
    exact .ordinary (ordinary_of_next ((h.trans (ordinary_setFlags _ _)).trans (ordinary_finish _ sz ea)) ht)
  | ok q r =>
    exact .ordinary
      (ordinary_of_next (((h.trans (hw q r)).trans (ordinary_setFlags _ _)).trans (ordinary_finish _ sz ea)) ht)

theorem executed_divxu {sz : Size} {ea : Ea} {rd : Reg} (hi : i.raises = true) (h : execDivxu sz ea rd s = .next t) :
    Executed i s t := by
  cases sz with
  | byte =>
    exact executed_finishDivide hi (ordinary_readEa s .byte ea) (fun _ _ => ordinary_setReg _ rd _) (next_of_unless h)
  | word =>
    exact executed_finishDivide hi (ordinary_readEa s .word ea) (fun _ _ => ordinary_setPair _ rd _ _)
      (next_of_unless (next_of_unless h))

theorem executed_trapVS (hi : i.raises = true) (h : execTrapVS s = .next t) : Executed i s t := by
  unfold execTrapVS at h
  split at h
  · exact .raised .trapVS _ (.inl hi) rfl (.refl s) h
  · exact .ordinary (ordinary_of_next (.refl s) h)

theorem ordinary_controlFlags (s : State) (cr : ControlReg) (r : Word) : Ordinary s (controlFlags cr r s) := by
  unfold controlFlags
  split
  · exact ordinary_setFlags s _
  · exact .refl s

theorem executed_controlLogic {cr : ControlReg} {r : Word} (hi : i.writesControl = some cr) :
    Executed i s (s.controlLogic cr r) :=
  .wroteControl cr r hi (.refl s) (ordinary_controlFlags _ cr r)

end

/-! ### Every instruction -/

/-- Whatever an instruction does, it does in one of these ways. -/
theorem exec_cases {i : Instr} {s t : State} (h : exec i s = .next t) : Executed i s t := by
  cases i with
  | addG sz ea rd | sub sz ea rd | addx sz ea rd | subx sz ea rd | andG sz ea rd | orG sz ea rd | xorG sz ea rd =>
    exact .ordinary (ordinary_binaryToReg h)
  | adds sz ea rd | subs sz ea rd => exact .ordinary (ordinary_extendedToReg h)
  | cmpG sz ea rd => exact .ordinary (ordinary_compareReg h)
  | addQ1 sz ea | addQ2 sz ea | addQm1 sz ea | addQm2 sz ea | neg sz ea | notG sz ea | shal sz ea | shar sz ea
  | shll sz ea | shlr sz ea | rotl sz ea | rotr sz ea | rotxl sz ea | rotxr sz ea =>
    exact .ordinary (ordinary_of_next (ordinary_modifyEa s sz ea _) h)
  | tas ea => exact .ordinary (ordinary_of_next (ordinary_modifyEa s .byte ea _) h)
  | tst sz ea => exact .ordinary (ordinary_of_next (ordinary_testEa s sz ea _) h)
  | cmpGImm8 ea imm => exact .ordinary (ordinary_of_next (ordinary_testEa s .byte ea _) h)
  | cmpGImm16 ea imm => exact .ordinary (ordinary_of_next (ordinary_testEa s .word ea _) h)
  | cmpE imm rd | cmpI imm rd => exact .ordinary (ordinary_of_next (ordinary_setFlags s _) h)
  | bsetR sz rs ea | bclrR sz rs ea | bnotR sz rs ea =>
    exact .ordinary (ordinary_withRegBit (ordinary_modifyEa s sz ea _) h)
  | btstR sz rs ea => exact .ordinary (ordinary_withRegBit (ordinary_testEa s sz ea _) h)
  | bsetI sz n ea | bclrI sz n ea | bnotI sz n ea => exact .ordinary (ordinary_withBit (ordinary_modifyEa s sz ea _) h)
  | btstI sz n ea => exact .ordinary (ordinary_withBit (ordinary_testEa s sz ea _) h)
  | dadd rs rd => exact .ordinary (ordinary_dadd h)
  | dsub rs rd => exact .ordinary (ordinary_dsub h)
  | mulxu sz ea rd => exact .ordinary (ordinary_mulxu h)
  | divxu sz ea rd => exact executed_divxu rfl h
  | swap rd | exts rd | extu rd => exact .ordinary (ordinary_of_next (ordinary_setReg_setFlags s rd _ _) h)
  | xch rs rd => exact .ordinary (ordinary_of_next (ordinary_xch s rs rd) h)
  | movGLoad sz ea rd => exact .ordinary (ordinary_movGLoad h)
  | movGStore sz rs ea => exact .ordinary (ordinary_movGStore h)
  | clr sz ea => exact .ordinary (ordinary_of_next (ordinary_storeEa s sz ea _ _) h)
  | movGImm8 ea imm => exact .ordinary (ordinary_of_next (ordinary_storeEa s .byte ea _ _) h)
  | movGImm16 ea imm => exact .ordinary (ordinary_of_next (ordinary_storeEa s .word ea _ _) h)
  | stc cr ea => exact .ordinary (ordinary_of_next (ordinary_storeEa s cr.size ea _ _) h)
  | movE imm rd => exact .ordinary (ordinary_of_next (ordinary_moveToReg s .byte rd _) h)
  | movI imm rd => exact .ordinary (ordinary_of_next (ordinary_moveToReg s .word rd _) h)
  | movL sz a rd | movFLoad sz d rd => exact .ordinary (ordinary_of_next (ordinary_load s sz _ rd) h)
  | movS sz rs a | movFStore sz rs d => exact .ordinary (ordinary_of_next (ordinary_store s sz _ _ _) h)
  | movtpe rs ea => exact .ordinary (ordinary_movtpe h)
  | movfpe ea rd => exact .ordinary (ordinary_movfpe h)
  | ldm list => exact .ordinary (ordinary_of_next (ordinary_foldl ordinary_popTo _ s) h)
  | stm list => exact .ordinary (ordinary_of_next (ordinary_foldl ordinary_pushReg _ s) h)
  | link8 imm | link16 imm => exact .ordinary (ordinary_of_next (ordinary_link s _) h)
  | unlk => exact .ordinary (ordinary_unlk h)
  | nop => exact .ordinary (ordinary_of_next (.refl s) h)
  | bcc8 cc d | bcc16 cc d => exact executed_of_next (executed_branchIf _ _) h
  | scbF r d => exact executed_of_next (executed_countAndBranch r d) h
  | scbNE r d =>
    refine executed_of_next ?_ h
    split
    · exact executed_countAndBranch r d
    · exact .ordinary (.refl s)
  | scbEQ r d =>
    refine executed_of_next ?_ h
    split
    · exact .ordinary (.refl s)
    · exact executed_countAndBranch r d
  | jmpAbs a | jmpInd r | jmpDisp8 r d | jmpDisp16 r d => exact executed_of_next (.moved _ (.refl s)) h
  | jsrAbs a | jsrInd r | jsrDisp8 r d | jsrDisp16 r d => exact executed_of_next (executed_call _) h
  | bsr8 d | bsr16 d => exact executed_of_next (.moved _ (ordinary_push16 s s.pc)) h
  | rts => exact executed_of_next executed_popPc h
  | rtd8 imm | rtd16 imm => exact executed_of_next (executed_popPc_adjustSp _) h
  | pjmpAbs page a => exact executed_inMaximum rfl (executed_pageJump rfl) h
  | pjmpReg r => exact executed_inMaximum rfl (fun hm k => executed_pageJump rfl hm (next_of_unless k)) h
  | pjsrAbs page a => exact executed_inMaximum rfl (executed_pageCall rfl) h
  | pjsrReg r => exact executed_inMaximum rfl (fun hm k => executed_pageCall rfl hm (next_of_unless k)) h
  | prts => exact executed_inMaximum rfl (executed_pageReturn rfl) h
  | prtd8 imm | prtd16 imm => exact executed_inMaximum rfl (executed_pageReturn_adjustSp rfl) h
  | ldc ea cr =>
    exact executed_of_next (.wroteControl cr _ rfl (ordinary_readEa s cr.size ea) (ordinary_finish _ cr.size ea)) h
  | andc imm cr | orc imm cr | xorc imm cr => exact executed_of_next (executed_controlLogic rfl) h
  | trapa v => exact .raised (.trapA v) _ (.inl rfl) rfl (.refl s) h
  | trapVS => exact executed_trapVS rfl h
  | rte => exact executed_of_next (.returned rfl) h
  | sleep => exact executed_of_next (.slept rfl) h
  | eaRn sz r c | eaPreDec sz r c | eaPostInc sz r c | eaInd sz r c | eaDisp8 sz r d c | eaDisp16 sz r d c
  | eaAbs8 sz a c | eaAbs16 sz a c | eaImm8 v c | eaImm16 v c | invalid0B | invalid16 | invalid1B
  | invalidSecond g b => exact executed_takeInvalid (.inl rfl) h

end Sys2Proof.Machine
end

section
/-! SUPPORT. What no instruction changes (spec/00_scope.md R9, spec/10_state.md R49, R52). -/

namespace Sys2Proof.Machine

/-- The mode, the chip, the pins, the requests, SSBY and the instruction's own address are as before. -/
structure SamePlatform (s t : State) : Prop where
  mode : t.mode = s.mode
  ssby : t.ssby = s.ssby
  chip : t.chip = s.chip
  modePins : t.modePins = s.modePins
  resLow : t.resLow = s.resLow
  stbyLow : t.stbyLow = s.stbyLow
  breqLow : t.breqLow = s.breqLow
  nmiRequest : t.nmiRequest = s.nmiRequest
  pending : t.pending = s.pending
  insAddr : t.insAddr = s.insAddr

theorem SamePlatform.trans {s t u : State} (h : SamePlatform s t) (k : SamePlatform t u) : SamePlatform s u :=
  ⟨k.mode.trans h.mode, k.ssby.trans h.ssby, k.chip.trans h.chip, k.modePins.trans h.modePins, k.resLow.trans h.resLow,
    k.stbyLow.trans h.stbyLow, k.breqLow.trans h.breqLow, k.nmiRequest.trans h.nmiRequest, k.pending.trans h.pending,
    k.insAddr.trans h.insAddr⟩

theorem Ordinary.samePlatform {s t : State} (h : Ordinary s t) : SamePlatform s t := { h with }

theorem SameControl.samePlatform {s t : State} (h : SameControl s t) : SamePlatform s t := { h with }

theorem samePlatform_jump (s : State) (v : Word) : SamePlatform s (s.jump v) := by constructor <;> rfl

theorem samePlatform_pageJump (s : State) (page : Byte) (v : Word) : SamePlatform s (s.pageJump page v) := by
  constructor <;> rfl

theorem samePlatform_deferred (s : State) : SamePlatform s s.deferred := by constructor <;> rfl

theorem samePlatform_setSr (s : State) (v : Word) : SamePlatform s (s.setSr v) := by constructor <;> rfl

theorem samePlatform_writeCr (s : State) (cr : ControlReg) (v : Word) : SamePlatform s (s.writeCr cr v) := by
  cases cr <;> constructor <;> rfl

/-- The pushes are ordinary, and what follows them writes SR, PC, CP and the CPU state. -/
theorem samePlatform_takeException {s t : State} {e : Exception} {p : Word} (h : s.takeException e p = .next t) :
    SamePlatform s t := by
  cases ho : odd (s.reg .r7) with
  | true => rw [takeException_odd e p ho] at h; cases h
  | false =>
    obtain ⟨t', ht', hv⟩ := takeException_even e p ho
    obtain rfl := Host.Outcome.next.inj (ht'.symm.trans h)
    exact (ordinary_pushFrame s p).samePlatform.trans { hv.control.samePlatform with }

theorem samePlatform_popSr (s : State) : SamePlatform s s.popSr :=
  (ordinary_pop16 s).samePlatform.trans (samePlatform_setSr _ _)

theorem samePlatform_popPc (s : State) : SamePlatform s s.popPc :=
  (ordinary_pop16 s).samePlatform.trans (samePlatform_jump _ _)

theorem samePlatform_popCpInMaximum (s : State) : SamePlatform s s.popCpInMaximum := by
  unfold State.popCpInMaximum
  split
  · exact (Ordinary.refl s).samePlatform
  · exact (ordinary_pop16 s).samePlatform.trans (samePlatform_pageJump _ _ _)

theorem samePlatform_returnFromException (s : State) : SamePlatform s s.returnFromException :=
  (((samePlatform_popSr s).trans (samePlatform_popCpInMaximum _)).trans (samePlatform_popPc _)).trans
    (samePlatform_deferred _)

theorem Executed.samePlatform {i : Instr} {s t : State} (h : Executed i s t) : SamePlatform s t := by
  cases h with
  | ordinary h => exact h.samePlatform
  | moved v h => exact h.samePlatform.trans (samePlatform_jump _ v)
  | crossed page v _ _ h => exact h.samePlatform.trans (samePlatform_pageJump _ page v)
  | raised e p _ _ h ht => exact h.samePlatform.trans (samePlatform_takeException ht)
  | wroteControl cr v _ h hw =>
    exact ((h.samePlatform.trans (samePlatform_writeCr _ cr v)).trans hw.samePlatform).trans (samePlatform_deferred _)
  | returned _ => exact samePlatform_returnFromException s
  | slept _ => constructor <;> rfl

/-- Settles O55: every way in which an instruction can act keeps the platform. -/
theorem modeNeverChanges : Obligations.ModeNeverChanges := by
  intro i s t h
  obtain ⟨mode, ssby, chip, modePins, resLow, stbyLow, breqLow, nmiRequest, pending, insAddr⟩ :=
    (exec_cases h).samePlatform
  exact ⟨mode, ssby, chip, modePins, resLow, stbyLow, breqLow, nmiRequest, pending, insAddr⟩

end Sys2Proof.Machine
end

section
/-! SUPPORT. What the condition codes of an addition and a subtraction say in numbers (spec/10_state.md R40), and where the
bits of SR stand (R28). A subtraction is the addition it undoes: the flags of `d - x - b = r` are those of `x + r + b = d`. -/

namespace Sys2Proof.Machine

/-! ### The most significant bit -/

theorem top_iff_negative (v : BitVec w) : top v = true ↔ v.toInt < 0 := by
  rw [top, BitVec.msb_eq_toInt, decide_eq_true_iff]

/-- The upper half of the unsigned numbers. -/
theorem top_iff_half (v : BitVec w) : top v = true ↔ 2 ^ w ≤ 2 * v.toNat := BitVec.msb_eq_true_iff_two_mul_ge

/-! ### Exact sums -/

theorem toNat_carryIn (hw : 0 < w) (b : Bool) : (carryIn w b).toNat = b.toNat := by
  cases b with
  | false => simp [carryIn]
  | true => simp [carryIn, hw]

theorem carryIn_eq_ofInt (b : Bool) : carryIn w b = BitVec.ofInt w b.toNat := by
  rw [BitVec.ofInt_natCast]
  cases b <;> rfl

/-- The sum of two words and a carry is their exact sum, less 2^w where that does not fit. -/
theorem toNat_addFlags (hw : 0 < w) (x d : BitVec w) (b : Bool) :
    (addFlags x d b).1.toNat + (if x.toNat + d.toNat + b.toNat < 2 ^ w then 0 else 2 ^ w) =
      x.toNat + d.toNat + b.toNat := by
  have hx := x.isLt
  have hd := d.isLt
  have hb := b.toNat_le
  have hr : (addFlags x d b).1.toNat = (x.toNat + d.toNat + b.toNat) % 2 ^ w := by
    simp [addFlags, BitVec.toNat_add, toNat_carryIn hw]
  rw [hr]
  split_ifs with h
  · exact Nat.mod_eq_of_lt h
  · rw [Nat.mod_eq_sub_mod (by omega), Nat.mod_eq_of_lt (by omega)]
    omega

/-- A number enters a word unchanged exactly where it is in the signed range. -/
theorem toInt_ofInt_eq_iff (hw : 0 < w) (n : Int) :
    (BitVec.ofInt w n).toInt = n ↔ -2 ^ (w - 1) ≤ n ∧ n < 2 ^ (w - 1) := by
  constructor
  · intro h
    rw [← h]
    exact ⟨BitVec.le_toInt _, BitVec.toInt_lt⟩
  · rintro ⟨hl, hu⟩
    exact BitVec.toInt_ofInt_eq_self hw hl hu

theorem addFlags_eq_ofInt (x d : BitVec w) (b : Bool) :
    (addFlags x d b).1 = BitVec.ofInt w (x.toInt + d.toInt + b.toNat) := by
  simp only [addFlags, BitVec.ofInt_add, BitVec.ofInt_toInt, carryIn_eq_ofInt]

/-! ### Addition -/

theorem addFlags_c_iff (hw : 0 < w) (x d : BitVec w) (b : Bool) :
    (addFlags x d b).2.c = true ↔ 2 ^ w ≤ x.toNat + d.toNat + b.toNat := by
  have hr := toNat_addFlags hw x d b
  have hc : (addFlags x d b).2.c = true ↔
      top x = true ∧ top d = true ∨ top d = true ∧ ¬top (addFlags x d b).1 = true ∨
        top x = true ∧ ¬top (addFlags x d b).1 = true := by
    simp [addFlags, or_assoc]
  rw [hc]
  simp only [top_iff_half]
  have hx := x.isLt
  have hd := d.isLt
  have hb := b.toNat_le
  have hm := Nat.two_pow_pred_mul_two hw
  split_ifs at hr <;> omega

/-- V says that the sum of the signed operands is not the signed result. -/
theorem addFlags_v_iff_ne (hw : 0 < w) (x d : BitVec w) (b : Bool) :
    (addFlags x d b).2.v = true ↔ (addFlags x d b).1.toInt ≠ x.toInt + d.toInt + b.toNat := by
  have hr := toNat_addFlags hw x d b
  have hv : (addFlags x d b).2.v = true ↔
      (top x = true ∧ top d = true) ∧ ¬top (addFlags x d b).1 = true ∨
        (¬top x = true ∧ ¬top d = true) ∧ top (addFlags x d b).1 = true := by
    simp [addFlags]
  rw [hv]
  simp only [top_iff_half, BitVec.toInt_eq_toNat_cond]
  have hx := x.isLt
  have hd := d.isLt
  have hb := b.toNat_le
  have hm := Nat.two_pow_pred_mul_two hw
  split_ifs at hr ⊢ <;> omega

theorem addFlags_v_iff (hw : 0 < w) (x d : BitVec w) (b : Bool) :
    (addFlags x d b).2.v = true ↔
      ¬(-2 ^ (w - 1) ≤ x.toInt + d.toInt + b.toNat ∧ x.toInt + d.toInt + b.toNat < 2 ^ (w - 1)) := by
  rw [addFlags_v_iff_ne hw, addFlags_eq_ofInt, Ne, toInt_ofInt_eq_iff hw]

theorem addFlags_n_iff (x d : BitVec w) (b : Bool) : (addFlags x d b).2.n = true ↔ (addFlags x d b).1.toInt < 0 :=
  top_iff_negative _

theorem addFlags_z_iff (x d : BitVec w) (b : Bool) : (addFlags x d b).2.z = true ↔ (addFlags x d b).1 = 0 :=
  beq_iff_eq

/-! ### Subtraction -/

/-- The subtrahend, the difference and the borrow add up to the minuend. -/
theorem addFlags_subFlags (x d : BitVec w) (b : Bool) : (addFlags x (subFlags x d b).1 b).1 = d := by
  simp only [addFlags, subFlags]
  rw [BitVec.add_comm x, BitVec.add_assoc, BitVec.add_comm x, ← BitVec.add_assoc, BitVec.sub_add_cancel,
    BitVec.sub_add_cancel]

/-- The borrow and the overflow are the carry and the overflow of that addition. -/
theorem subFlags_c_v_eq (x d : BitVec w) (b : Bool) :
    (subFlags x d b).2.c = (addFlags x (subFlags x d b).1 b).2.c ∧
      (subFlags x d b).2.v = (addFlags x (subFlags x d b).1 b).2.v := by
  have h := addFlags_subFlags x d b
  simp only [addFlags] at h ⊢
  rw [h]
  simp only [subFlags]
  cases top x <;> cases top d <;> simp

theorem subFlags_eq_ofInt (x d : BitVec w) (b : Bool) :
    (subFlags x d b).1 = BitVec.ofInt w (d.toInt - x.toInt - b.toNat) := by
  have h : BitVec.ofInt w (d.toInt - x.toInt - b.toNat) + carryIn w b + x = d := by
    rw [carryIn_eq_ofInt, ← BitVec.ofInt_toInt (x := x), ← BitVec.ofInt_add, ← BitVec.ofInt_add, BitVec.ofInt_toInt,
      Int.sub_add_cancel, Int.sub_add_cancel, BitVec.ofInt_toInt]
  rw [subFlags, BitVec.sub_eq_iff_eq_add, BitVec.sub_eq_iff_eq_add, h]

theorem subFlags_c_iff (hw : 0 < w) (x d : BitVec w) (b : Bool) :
    (subFlags x d b).2.c = true ↔ d.toNat < x.toNat + b.toNat := by
  have hd := toNat_addFlags hw x (subFlags x d b).1 b
  rw [addFlags_subFlags] at hd
  rw [(subFlags_c_v_eq x d b).1, addFlags_c_iff hw]
  have hr := (subFlags x d b).1.isLt
  split_ifs at hd <;> omega

theorem subFlags_v_iff (hw : 0 < w) (x d : BitVec w) (b : Bool) :
    (subFlags x d b).2.v = true ↔
      ¬(-2 ^ (w - 1) ≤ d.toInt - x.toInt - b.toNat ∧ d.toInt - x.toInt - b.toNat < 2 ^ (w - 1)) := by
  have he : d.toInt ≠ x.toInt + (subFlags x d b).1.toInt + b.toNat ↔
      (subFlags x d b).1.toInt ≠ d.toInt - x.toInt - b.toNat := by omega
  rw [(subFlags_c_v_eq x d b).2, addFlags_v_iff_ne hw, addFlags_subFlags, he, subFlags_eq_ofInt, Ne, toInt_ofInt_eq_iff hw]

theorem subFlags_n_iff (x d : BitVec w) (b : Bool) : (subFlags x d b).2.n = true ↔ (subFlags x d b).1.toInt < 0 :=
  top_iff_negative _

theorem subFlags_z_iff (x d : BitVec w) (b : Bool) : (subFlags x d b).2.z = true ↔ (subFlags x d b).1 = 0 :=
  beq_iff_eq

/-! ### Moves, and the places in SR -/

theorem movFlags_n_iff (v : BitVec w) (f : Flags) : (movFlags v f).n = true ↔ v.toInt < 0 := top_iff_negative v

theorem movFlags_z_iff (v : BitVec w) (f : Flags) : (movFlags v f).z = true ↔ v.toNat = 0 := by
  rw [movFlags, beq_iff_eq, ← BitVec.toNat_inj]; simp

theorem getLsbD_intMask (s : State) {i : Nat} (hi : i < 3) : s.intMask.getLsbD i = s.sr.getLsbD (8 + i) := by
  rw [State.intMask, BitVec.getLsbD_extractLsb', decide_eq_true hi, Bool.true_and]

theorem size_bits_pos (sz : Size) : 0 < sz.bits := by cases sz <;> decide

/-- Settles O28, from the exact sums of unsigned and signed operands. -/
theorem flagMeanings : Obligations.FlagMeanings := by
  refine ⟨fun s => ?places, fun sz x d b => ?sums, fun sz v f => ?moves⟩
  case places =>
    exact ⟨rfl, getLsbD_intMask s (by decide), getLsbD_intMask s (by decide), getLsbD_intMask s (by decide), rfl, rfl, rfl,
      rfl⟩
  case sums =>
    have hw := size_bits_pos sz
    exact ⟨⟨addFlags_c_iff hw x d b, addFlags_v_iff hw x d b, addFlags_n_iff x d b, addFlags_z_iff x d b⟩,
      subFlags_c_iff hw x d b, subFlags_v_iff hw x d b, subFlags_n_iff x d b, subFlags_z_iff x d b⟩
  case moves => exact ⟨movFlags_n_iff v f, movFlags_z_iff v f, rfl, rfl⟩

end Sys2Proof.Machine
end

section
/-! SUPPORT. What the operations that write SR, CP and the hold do to them: control registers, exceptions, RTE. -/

namespace Sys2Proof.Machine

variable {s t : State}

/-! ### Control registers (spec/44_system_control.md R330) -/

theorem writeCr_cp (s : State) (cr : ControlReg) (v : Word) : (s.writeCr cr v).cp = s.cp := by cases cr <;> rfl

/-- A write to CCR: the condition codes, 0 in the rest of the byte, and the upper byte as it was. -/
theorem getLsbD_setCcr (s : State) (v : Byte) {k : Nat} (hk : k < 16) :
    (s.setCcr v).sr.getLsbD k = if k < 4 then v.getLsbD k else if k < 8 then false else s.sr.getLsbD k := by
  have hmask : ∀ k < 8, (0x0F : Byte).getLsbD k = decide (k < 4) := by decide
  rw [setCcr_sr, BitVec.getLsbD_append]
  split_ifs with h8 h4
  · rw [BitVec.getLsbD_and, hmask k h8, decide_eq_true h4, Bool.and_true]
  · rw [BitVec.getLsbD_and, hmask k h8, decide_eq_false h4, Bool.and_false]
  · omega
  · rw [hiByte, BitVec.getLsbD_extractLsb', decide_eq_true (by omega), Bool.true_and, Nat.add_sub_cancel' (by omega)]

/-! ### The upper byte of SR -/

/-- T and the mask, and the reserved bits beside them, are as before. -/
def SameUpperSr (s t : State) : Prop := ∀ k, 8 ≤ k → t.sr.getLsbD k = s.sr.getLsbD k

theorem SameUpperSr.trans {u : State} (h : SameUpperSr s t) (k : SameUpperSr t u) : SameUpperSr s u :=
  fun i hi => (k i hi).trans (h i hi)

theorem SameUpperSr.flagT (h : SameUpperSr s t) : t.flagT = s.flagT := h 15 (by decide)

theorem SameUpperSr.intMask (h : SameUpperSr s t) : t.intMask = s.intMask := by
  apply BitVec.eq_of_getLsbD_eq
  intro k hk
  rw [getLsbD_intMask t hk, getLsbD_intMask s hk, h _ (by omega)]

theorem Ordinary.sameUpperSr (h : Ordinary s t) : SameUpperSr s t := fun k hk => h.system k (by omega)

/-- Of the control registers only SR holds the upper byte. -/
theorem sameUpperSr_writeCr (s : State) {cr : ControlReg} (v : Word) (hcr : cr ≠ .sr) :
    SameUpperSr s (s.writeCr cr v) := by
  intro k hk
  cases cr with
  | sr => exact absurd rfl hcr
  | ccr =>
    by_cases h16 : k < 16
    · exact (getLsbD_setCcr s (loByte v) h16).trans (by rw [if_neg (by omega), if_neg (by omega)])
    · rw [BitVec.getLsbD_of_ge _ k (by omega), BitVec.getLsbD_of_ge _ k (by omega)]
  | br | ep | dp | tp => rfl

/-! ### The reserved bits (spec/10_state.md R30) -/

/-- The reserved bits of a word are 0, bit by bit. -/
theorem reserved_eq_zero_iff {v : Word} :
    v &&& ~~~srMask = 0 ↔ ∀ k, k < 16 → srMask.getLsbD k = false → v.getLsbD k = false := by
  constructor
  · intro h k hk hm
    have hb : (v &&& ~~~srMask).getLsbD k = (0 : Word).getLsbD k := by rw [h]
    rw [BitVec.getLsbD_and, BitVec.getLsbD_not, hm, decide_eq_true hk, Bool.not_false, Bool.and_true, Bool.and_true] at hb
    exact hb.trans BitVec.getLsbD_zero
  · intro h
    have hz : v &&& ~~~srMask = 0 &&& ~~~srMask := reserved_eq fun k hk hm => by simpa using h k hk hm
    simpa using hz

/-- The condition codes are bits that can be written. -/
theorem srMask_of_lt_four : ∀ k < 4, srMask.getLsbD k = true := by decide

theorem Ordinary.reserved (h : Ordinary s t) : t.sr &&& ~~~srMask = s.sr &&& ~~~srMask := by
  refine reserved_eq fun k _ hm => h.system k (Nat.le_of_not_lt fun h4 => ?_)
  rw [srMask_of_lt_four k h4] at hm
  cases hm

theorem reserved_writeCr (cr : ControlReg) (v : Word) (h : s.sr &&& ~~~srMask = 0) :
    (s.writeCr cr v).sr &&& ~~~srMask = 0 := by
  cases cr with
  | sr => exact reserved_setSr v
  | ccr =>
    rw [reserved_eq_zero_iff] at h ⊢
    intro k hk hm
    refine (getLsbD_setCcr s (loByte v) hk).trans ?_
    split_ifs with h4 h8
    · rw [srMask_of_lt_four k h4] at hm
      cases hm
    · rfl
    · exact h k hk hm
  | br | ep | dp | tp => exact h

/-- CCR is read with its reserved bits, and the half of the word it does not fill, as 0. -/
theorem reserved_readCr_ccr (h : s.sr &&& ~~~srMask = 0) : s.readCr .ccr &&& 0xFFF0 = 0 := by
  have hmask : ∀ k < 8, (0xFFF0 : Word).getLsbD k = true → srMask.getLsbD k = false := by decide
  rw [reserved_eq_zero_iff] at h
  apply BitVec.eq_of_getLsbD_eq
  intro k hk
  rw [State.readCr, BitVec.getLsbD_and, BitVec.getLsbD_setWidth, loByte, BitVec.getLsbD_extractLsb', Nat.zero_add]
  cases hb : (0xFFF0 : Word).getLsbD k with
  | false => simp
  | true =>
    by_cases h8 : k < 8
    · simp [h k hk (hmask k h8 hb)]
    · simp [h8]

/-! ### Taking an exception -/

/-- An exception is taken only with an even R7, so what `takeException_even` says holds of every one taken. -/
theorem vectored_of_takeException {e : Exception} {p : Word} (h : s.takeException e p = .next t) :
    Vectored (s.pushFrame p) t e := by
  cases ho : odd (s.reg .r7) with
  | true => rw [takeException_odd e p ho] at h; cases h
  | false =>
    obtain ⟨t', ht', hv⟩ := takeException_even e p ho
    exact Host.Outcome.next.inj (ht'.symm.trans h) ▸ hv

theorem takeException_cp_minimum {e : Exception} {p : Word} (h : s.takeException e p = .next t)
    (hm : s.mode = .minimum) : t.cp = s.cp := by
  have hf := ordinary_pushFrame s p
  exact ((vectored_of_takeException h).minimum (hf.mode.trans hm)).2.trans hf.cp

theorem takeException_defer {e : Exception} {p : Word} (h : s.takeException e p = .next t) : t.defer = s.defer :=
  (vectored_of_takeException h).control.defer.trans (ordinary_pushFrame s p).defer

theorem takeException_reserved {e : Exception} {p : Word} (h : s.takeException e p = .next t) :
    t.sr &&& ~~~srMask = s.sr &&& ~~~srMask := by
  rw [(vectored_of_takeException h).sr, reserved_enteredSr, (ordinary_pushFrame s p).reserved]

theorem takeException_intMask {e : Exception} {p : Word} (h : s.takeException e p = .next t) :
    t.intMask = e.newMask.getD s.intMask := by
  rw [← (ordinary_pushFrame s p).sameUpperSr.intMask, State.intMask, (vectored_of_takeException h).sr, mask_enteredSr,
    State.intMask]

/-- The word pushed last is the one at the top of the stack. -/
theorem Pushes.stackWord_zero {ws : List Word} {w : Word} (h : Pushes s t (ws ++ [w])) : t.stackWord 0 = w := by
  have hslot : t.phys t.tp (t.reg .r7 + BitVec.ofNat 16 (2 * 0)) = s.pushSlot (ws.length + 1) := by
    rw [h.regs, State.withSp, if_pos rfl, State.pushSlot, State.phys, State.phys, h.control.mode, h.control.tp]
    simp
  rw [State.stackWord, hslot]
  exact h.words ws.length w (by simp)

/-- An exception pushes SR last. -/
theorem frameOf_eq_append (s : State) (p : Word) (b : Byte) : ∃ ws, frameOf s p b = ws ++ [s.sr] := by
  unfold frameOf
  cases s.mode with
  | minimum => exact ⟨[p], rfl⟩
  | maximum => exact ⟨[p, b ++ s.cp], rfl⟩

/-- What follows the pushes leaves the stack alone. -/
theorem Vectored.stackWord {u : State} {e : Exception} (h : Vectored u t e) (k : Nat) :
    t.stackWord k = u.stackWord k := by
  have hmode : t.mode = u.mode := h.control.mode
  have htp : t.tp = u.tp := h.control.tp
  simp only [State.stackWord, State.wordAt, State.readByte, State.phys, State.reg, h.regs, h.mem, hmode, htp]

/-- The sequence of an exception leaves SR, as it was before, at the top of the stack (60_exceptions.md R380). -/
theorem takeException_stacks_sr {e : Exception} {p : Word} (hw : s.mem.wf = true) (he : odd (s.reg .r7) = false) :
    ∃ t, s.takeException e p = .next t ∧ t.stackWord 0 = s.sr := by
  obtain ⟨t, ht, hv⟩ := takeException_even e p he
  obtain ⟨b, hp⟩ := pushes_pushFrame p hw he
  obtain ⟨ws, hws⟩ := frameOf_eq_append s p b
  rw [hws] at hp
  exact ⟨t, ht, (hv.stackWord 0).trans hp.stackWord_zero⟩

/-! ### RTE (spec/44_system_control.md R333) -/

theorem popCpInMaximum_reserved (s : State) : s.popCpInMaximum.sr &&& ~~~srMask = s.sr &&& ~~~srMask := by
  unfold State.popCpInMaximum
  split
  · rfl
  · exact (ordinary_pop16 s).reserved

theorem returnFromException_reserved (s : State) : s.returnFromException.sr &&& ~~~srMask = 0 :=
  calc s.returnFromException.sr &&& ~~~srMask
    _ = s.popSr.popCpInMaximum.sr &&& ~~~srMask := (ordinary_pop16 _).reserved
    _ = s.popSr.sr &&& ~~~srMask := popCpInMaximum_reserved _
    _ = 0 := reserved_setSr _

theorem popCpInMaximum_minimum (hm : s.mode = .minimum) : s.popCpInMaximum = s := by rw [State.popCpInMaximum, hm]

theorem returnFromException_cp_minimum (hm : s.mode = .minimum) : s.returnFromException.cp = s.cp := by
  have hm' : s.popSr.mode = .minimum := (samePlatform_popSr s).mode.trans hm
  calc s.returnFromException.cp
    _ = s.popSr.popCpInMaximum.cp := (ordinary_pop16 _).cp
    _ = s.popSr.cp := by rw [popCpInMaximum_minimum hm']
    _ = s.cp := (ordinary_pop16 s).cp

/-! ### The instructions that hold trace and interrupts off (spec/10_state.md R50) -/

theorem writesControl_cases {i : Instr} (h : i.writesControl.isSome = true) :
    (∃ ea cr, i = .ldc ea cr) ∨ (∃ imm cr, i = .andc imm cr) ∨ (∃ imm cr, i = .orc imm cr) ∨
      ∃ imm cr, i = .xorc imm cr := by
  unfold Instr.writesControl at h
  split at h
  · exact .inl ⟨_, _, rfl⟩
  · exact .inr (.inl ⟨_, _, rfl⟩)
  · exact .inr (.inr (.inl ⟨_, _, rfl⟩))
  · exact .inr (.inr (.inr ⟨_, _, rfl⟩))
  · cases h

theorem exec_defer_of_writesControl {i : Instr} (hi : i.writesControl.isSome = true) (h : exec i s = .next t) :
    t.defer = true := by
  obtain ⟨ea, cr, rfl⟩ | ⟨imm, cr, rfl⟩ | ⟨imm, cr, rfl⟩ | ⟨imm, cr, rfl⟩ := writesControl_cases hi <;>
  · cases h
    rfl

theorem exec_defer_of_rte (h : exec .rte s = .next t) : t.defer = true := by
  cases h
  rfl

end Sys2Proof.Machine
end

section
/-! SUPPORT. Which instructions write CP, T, the mask and the hold, and that none writes the reserved bits of SR, each read
off the ways in which an instruction can act (`exec_cases`). -/

namespace Sys2Proof.Machine

variable {i : Instr} {s t : State}

theorem Executed.cp (h : Executed i s t) :
    t.cp = s.cp ∨ s.mode = .maximum ∧ (i.crossesPages = true ∨ i = .rte ∨ i.raises = true) := by
  cases h with
  | ordinary h => exact .inl h.cp
  | moved v h => exact .inl h.cp
  | crossed page v hi hm _ => exact .inr ⟨hm, .inl hi⟩
  | raised e p hi _ h ht =>
    cases hm : s.mode with
    | minimum => exact .inl ((takeException_cp_minimum ht (h.mode.trans hm)).trans h.cp)
    | maximum =>
      refine .inr ⟨rfl, ?_⟩
      obtain hr | ⟨_, hmin⟩ := hi
      · exact .inr (.inr hr)
      · cases hm.symm.trans hmin
  | wroteControl cr v _ h hw => exact .inl ((hw.cp.trans (writeCr_cp _ cr v)).trans h.cp)
  | returned hi =>
    cases hm : s.mode with
    | minimum => exact .inl (returnFromException_cp_minimum hm)
    | maximum => exact .inr ⟨rfl, .inr (.inl hi)⟩
  | slept _ => exact .inl rfl

/-- Settles O56: CP is written in maximum mode only, and there by three kinds of instruction. -/
theorem codePageWriters : Obligations.CodePageWriters := by
  intro i s t h
  obtain hcp | ⟨hmax, hkind⟩ := (exec_cases h).cp
  · exact ⟨.inr (.inr (.inr hcp)), fun _ => hcp⟩
  · refine ⟨?_, fun hmin => by cases hmin.symm.trans hmax⟩
    obtain hc | hr | he := hkind
    · exact .inl hc
    · exact .inr (.inl hr)
    · exact .inr (.inr (.inl he))

theorem Executed.systemBits (h : Executed i s t) :
    i.writesControl = some .sr ∨ i = .rte ∨
      t.intMask = s.intMask ∧ (i.raises = true ∨ i.crossesPages = true ∨ t.flagT = s.flagT) := by
  have kept : SameUpperSr s t → t.intMask = s.intMask ∧
      (i.raises = true ∨ i.crossesPages = true ∨ t.flagT = s.flagT) :=
    fun k => ⟨k.intMask, .inr (.inr k.flagT)⟩
  cases h with
  | ordinary h => exact .inr (.inr (kept h.sameUpperSr))
  | moved v h => exact .inr (.inr (kept h.sameUpperSr))
  | crossed page v _ _ h => exact .inr (.inr (kept h.sameUpperSr))
  | raised e p hi he h ht =>
    have hmask := takeException_intMask ht
    rw [he, Option.getD_none, h.sameUpperSr.intMask] at hmask
    exact .inr (.inr ⟨hmask, hi.elim .inl fun hc => .inr (.inl hc.1)⟩)
  | wroteControl cr v hi h hw =>
    by_cases hcr : cr = .sr
    · exact .inl (hcr ▸ hi)
    · exact .inr (.inr (kept ((h.sameUpperSr.trans (sameUpperSr_writeCr _ v hcr)).trans hw.sameUpperSr)))
  | returned hi => exact .inr (.inl hi)
  | slept _ => exact .inr (.inr (kept fun _ _ => rfl))

theorem Executed.defer (h : Executed i s t) : i.writesControl.isSome = true ∨ i = .rte ∨ t.defer = s.defer := by
  cases h with
  | ordinary h => exact .inr (.inr h.defer)
  | moved v h => exact .inr (.inr h.defer)
  | crossed page v _ _ h => exact .inr (.inr h.defer)
  | raised e p _ _ h ht => exact .inr (.inr ((takeException_defer ht).trans h.defer))
  | wroteControl cr v hi _ _ => exact .inl (by rw [hi]; rfl)
  | returned hi => exact .inr (.inl hi)
  | slept _ => exact .inr (.inr rfl)

theorem exec_defer (h : exec i s = .next t) :
    t.defer = (s.defer || i.writesControl.isSome || decide (i = .rte)) := by
  cases hw : i.writesControl.isSome with
  | true => simp [exec_defer_of_writesControl hw h]
  | false =>
    by_cases hr : i = .rte
    · subst hr
      simp [exec_defer_of_rte h]
    · obtain hw' | hr' | hd := (exec_cases h).defer
      · cases hw.symm.trans hw'
      · exact absurd hr' hr
      · simp [hd, hr]

/-- Settles O57: the bits of SR by the ways in which an instruction can act, the hold by the instructions that set it. -/
theorem systemBitWriters : Obligations.SystemBitWriters :=
  fun _ _ _ h => ⟨(exec_cases h).systemBits, exec_defer h⟩

theorem Executed.reserved (h : Executed i s t) (hs : s.sr &&& ~~~srMask = 0) : t.sr &&& ~~~srMask = 0 := by
  cases h with
  | ordinary h => exact h.reserved.trans hs
  | moved v h => exact h.reserved.trans hs
  | crossed page v _ _ h => exact h.reserved.trans hs
  | raised e p _ _ h ht => exact (takeException_reserved ht).trans (h.reserved.trans hs)
  | wroteControl cr v _ h hw => exact hw.reserved.trans (reserved_writeCr cr v (h.reserved.trans hs))
  | returned _ => exact returnFromException_reserved s
  | slept _ => exact hs

/-- Settles O58: every way in which an instruction can act keeps the reserved bits 0, and SR is read and pushed as it is. -/
theorem reservedBitsStayZero : Obligations.ReservedBitsStayZero := by
  refine ⟨fun i s t hs h => (exec_cases h).reserved hs, fun s hs => ⟨hs, reserved_readCr_ccr hs, fun hw he e p => ?_⟩⟩
  obtain ⟨t, ht, hsr⟩ := takeException_stacks_sr hw he (e := e) (p := p)
  exact ⟨t, ht, hsr ▸ hs⟩

end Sys2Proof.Machine
end

section
/-! SUPPORT. What an instruction does to memory, its stores and the CPU state, whatever the instruction is
(spec/20_memory.md R76 to R79, R104). -/

namespace Sys2Proof.Machine

variable {s t u : State}

/-- Memory keeps its canonical form, an address error stays noted, and where none was detected every byte that changes is
among the stores. -/
structure TracksStores (s t : State) : Prop where
  wf : s.mem.wf = true → t.mem.wf = true
  aerr : s.aerr = true → t.aerr = true
  keptStores : ∀ a, a ∈ s.stores → a ∈ t.stores
  noted : t.aerr = false → ∀ a, a ∉ t.stores → t.readByte a = s.readByte a

theorem Ordinary.tracksStores (h : Ordinary s t) : TracksStores s t := { h with }

theorem TracksStores.trans (h : TracksStores s t) (k : TracksStores t u) : TracksStores s u where
  wf hs := k.wf (h.wf hs)
  aerr hs := k.aerr (h.aerr hs)
  keptStores a ha := k.keptStores a (h.keptStores a ha)
  noted hu a ha :=
    have ht : t.aerr = false := Bool.eq_false_iff.mpr fun hx => by simp [k.aerr hx] at hu
    (k.noted hu a ha).trans (h.noted ht a fun hx => ha (k.keptStores a hx))

/-- An update of other fields. -/
theorem tracksStores_of_eq (hm : t.mem = s.mem) (he : t.aerr = s.aerr) (hs : t.stores = s.stores) :
    TracksStores s t where
  wf h := hm ▸ h
  aerr h := he.trans h
  keptStores _ h := hs ▸ h
  noted _ a _ := by rw [State.readByte, hm, State.readByte]

theorem tracksStores_takeException {e : Exception} {p : Word} (h : s.takeException e p = .next t) :
    TracksStores s t :=
  have hv := vectored_of_takeException h
  (ordinary_pushFrame s p).tracksStores.trans (tracksStores_of_eq hv.mem hv.control.aerr hv.stores)

theorem tracksStores_writeCr (s : State) (cr : ControlReg) (v : Word) : TracksStores s (s.writeCr cr v) := by
  cases cr <;> exact tracksStores_of_eq rfl rfl rfl

theorem tracksStores_popSr (s : State) : TracksStores s s.popSr :=
  (ordinary_pop16 s).tracksStores.trans (tracksStores_of_eq rfl rfl rfl)

theorem tracksStores_popCp (s : State) : TracksStores s s.popCp :=
  (ordinary_pop16 s).tracksStores.trans (tracksStores_of_eq rfl rfl rfl)

theorem tracksStores_popPc (s : State) : TracksStores s s.popPc :=
  (ordinary_pop16 s).tracksStores.trans (tracksStores_of_eq rfl rfl rfl)

theorem tracksStores_popCpInMaximum (s : State) : TracksStores s s.popCpInMaximum := by
  unfold State.popCpInMaximum
  split
  · exact (Ordinary.refl s).tracksStores
  · exact tracksStores_popCp s

/-- What RTE does after SR has been popped. -/
theorem tracksStores_afterPopSr (s : State) : TracksStores s.popSr s.returnFromException :=
  ((tracksStores_popCpInMaximum _).trans (tracksStores_popPc _)).trans (tracksStores_of_eq rfl rfl rfl)

theorem Executed.tracksStores {i : Instr} (h : Executed i s t) : TracksStores s t := by
  cases h with
  | ordinary h => exact h.tracksStores
  | moved v h => exact h.tracksStores.trans (tracksStores_of_eq rfl rfl rfl)
  | crossed page v _ _ h => exact h.tracksStores.trans (tracksStores_of_eq rfl rfl rfl)
  | raised e p _ _ h ht => exact h.tracksStores.trans (tracksStores_takeException ht)
  | wroteControl cr v _ h hw =>
    exact ((h.tracksStores.trans (tracksStores_writeCr _ cr v)).trans hw.tracksStores).trans
      (tracksStores_of_eq rfl rfl rfl)
  | returned _ => exact (tracksStores_popSr s).trans (tracksStores_afterPopSr s)
  | slept _ => exact tracksStores_of_eq rfl rfl rfl

/-! ### The CPU state -/

theorem takeException_cpuState {e : Exception} {p : Word} (h : s.takeException e p = .next t) :
    t.cpuState = .executing :=
  (vectored_of_takeException h).control.cpuState

theorem writeCr_cpuState (s : State) (cr : ControlReg) (v : Word) : (s.writeCr cr v).cpuState = s.cpuState := by
  cases cr <;> rfl

theorem popCpInMaximum_cpuState (s : State) : s.popCpInMaximum.cpuState = s.cpuState := by
  unfold State.popCpInMaximum
  split
  · rfl
  · exact (ordinary_pop16 s).cpuState

theorem returnFromException_cpuState (s : State) : s.returnFromException.cpuState = s.cpuState :=
  calc s.returnFromException.cpuState
    _ = s.popSr.popCpInMaximum.cpuState := (ordinary_pop16 _).cpuState
    _ = s.popSr.cpuState := popCpInMaximum_cpuState _
    _ = s.cpuState := (ordinary_pop16 s).cpuState

/-- The exception-handling state is transient: no instruction ends in it (60_exceptions.md R402). -/
theorem Executed.settled {i : Instr} (h : Executed i s t) (hs : s.cpuState ≠ .exceptionHandling) :
    t.cpuState ≠ .exceptionHandling := by
  cases h with
  | ordinary h => exact h.cpuState ▸ hs
  | moved v h => exact h.cpuState ▸ hs
  | crossed page v _ _ h => exact h.cpuState ▸ hs
  | raised e p _ _ _ ht => simp [takeException_cpuState ht]
  | wroteControl cr v _ h hw =>
    have hc : _ = s.cpuState := (hw.cpuState.trans (writeCr_cpuState _ cr v)).trans h.cpuState
    exact hc ▸ hs
  | returned _ => exact returnFromException_cpuState s ▸ hs
  | slept _ => cases hb : s.ssby <;> simp

end Sys2Proof.Machine
end

section
/-! SUPPORT. Every step keeps the invariant. An instruction leaves `Sound` states, the sequences after it keep `Calm` ones,
and forgetting the stores at the end of the step gives the invariant back. -/

namespace Sys2Proof.Machine

variable {s t : State}

/-- What an instruction leaves of the invariant: an address error and stores may be noted. -/
structure Sound (s : State) : Prop where
  memory : s.mem.wf = true
  reserved : s.sr &&& ~~~srMask = 0
  settled : s.cpuState ≠ .exceptionHandling

/-- What holds once the address error has been taken notice of: all of the invariant but that no store is noted. -/
structure Calm (s : State) : Prop extends Sound s where
  noError : s.aerr = false

theorem Inv.calm (h : Inv s) : Calm s := { h with }

theorem Calm.inv_settle (h : Calm s) : Inv s.settle := { h with noStores := rfl }

theorem Sound.calm_clearError (h : Sound s) : Calm { s with aerr := false } := { h with noError := rfl }

theorem Calm.withRequests (h : Calm s) (n : Bool) (qs : List Request) :
    Calm { s with nmiRequest := n, pending := qs } := { h with }

theorem andThen_next {o : Outcome} {k : State → Outcome} (h : andThen o k = .next t) :
    ∃ u, o = .next u ∧ k u = .next t := by
  cases o with
  | next u => exact ⟨u, rfl, h⟩
  | fault f => cases h
  | refused r => cases h

/-! ### Exceptions -/

/-- An exception is taken only with an even R7, so its pushes detect no address error. -/
theorem takeException_aerr {e : Exception} {p : Word} (hw : s.mem.wf = true) (h : s.takeException e p = .next t) :
    t.aerr = s.aerr := by
  cases ho : odd (s.reg .r7) with
  | true => rw [takeException_odd e p ho] at h; cases h
  | false =>
    obtain ⟨_, hp⟩ := pushes_pushFrame p hw ho
    exact (vectored_of_takeException h).control.aerr.trans hp.control.aerr

theorem calm_takeException {e : Exception} {p : Word} (hs : Calm s) (h : s.takeException e p = .next t) : Calm t where
  memory := (tracksStores_takeException h).wf hs.memory
  reserved := (takeException_reserved h).trans hs.reserved
  settled := by simp [takeException_cpuState h]
  noError := (takeException_aerr hs.memory h).trans hs.noError

/-! ### The end of an instruction -/

theorem calm_serveInterrupts {n : Nat} (hs : Calm s) (h : serveInterrupts n s = .next t) : Calm t := by
  induction n generalizing s with
  | zero => cases h; exact hs
  | succ n ih =>
    unfold serveInterrupts at h
    split at h
    · obtain ⟨u, hu, h⟩ := andThen_next h
      exact ih (calm_takeException (hs.withRequests false s.pending) hu) h
    · split at h
      · cases h; exact hs
      · obtain ⟨u, hu, h⟩ := andThen_next h
        exact ih (calm_takeException (hs.withRequests s.nmiRequest _) hu) h

theorem calm_checkAddressError (hs : Sound s) (h : s.checkAddressError = .next t) : Calm t := by
  unfold State.checkAddressError at h
  split at h
  · exact calm_takeException hs.calm_clearError h
  next he =>
    cases h
    exact { hs with noError := Bool.eq_false_iff.mpr he }

theorem calm_checkTrace {b : Bool} (hs : Calm s) (h : s.checkTrace b = .next t) : Calm t := by
  unfold State.checkTrace at h
  split at h
  · exact calm_takeException hs h
  · cases h; exact hs

theorem calm_checkInterrupts {b : Bool} (hs : Calm s) (h : s.checkInterrupts b = .next t) : Calm t := by
  unfold State.checkInterrupts at h
  split at h
  · exact calm_serveInterrupts hs h
  · cases h; exact hs

theorem inv_endOfInstruction (hs : Sound s) (h : s.endOfInstruction = .next t) : Inv t := by
  obtain ⟨s1, h1, h⟩ := andThen_next h
  obtain ⟨s2, h2, h⟩ := andThen_next h
  obtain ⟨s3, h3, h⟩ := andThen_next h
  cases h
  exact (calm_checkInterrupts (calm_checkTrace (calm_checkAddressError hs h1) h2) h3).inv_settle

/-! ### An instruction -/

theorem sound_exec {i : Instr} (hs : Sound s) (h : exec i s = .next t) : Sound t where
  memory := (exec_cases h).tracksStores.wf hs.memory
  reserved := (exec_cases h).reserved hs.reserved
  settled := (exec_cases h).settled hs.settled

theorem Sound.begin (hs : Sound s) (n : Nat) : Sound (s.begin n) := { hs with }

theorem inv_executeStep (hs : Sound s) (h : s.executeStep = .next t) : Inv t := by
  unfold State.executeStep at h
  split at h
  · obtain ⟨u, hu, h⟩ := andThen_next h
    exact inv_endOfInstruction (sound_exec (hs.begin _) hu) (next_of_unless h)
  · cases h

/-! ### The CPU operating states -/

/-- A change of the CPU state alone. -/
theorem inv_withCpuState {c : CpuState} (hs : Inv s) (hc : c ≠ .exceptionHandling) : Inv { s with cpuState := c } :=
  { hs with settled := hc }

theorem inv_underPins {o : Outcome} (hs : Inv s) (ho : o = .next t → Inv t) (h : s.underPins o = .next t) : Inv t := by
  unfold State.underPins at h
  split at h
  · cases h; exact inv_withCpuState hs (by decide)
  · split at h
    · cases h; exact inv_withCpuState hs (by decide)
    · exact ho h

/-- The vector is loaded into PC and CP. -/
theorem inv_loadVector (hs : Inv s) (k : Nat) : Inv (s.loadVector k) := by
  unfold State.loadVector
  split <;> exact { hs with }

theorem inv_clearForReset (hs : Inv s) : Inv s.clearForReset :=
  have hsr : (0x0700 : Word) &&& ~~~srMask = 0 := by decide
  ⟨hs.memory, hsr, rfl, rfl, CpuState.noConfusion⟩

theorem inv_stepExecuting (hs : Inv s) : s.stepExecuting = .next t → Inv t := by
  refine inv_underPins hs fun h => ?_
  split at h
  · cases h; exact inv_withCpuState hs (by decide)
  · exact inv_executeStep hs.calm.toSound h

theorem inv_stepReset (hs : Inv s) : s.stepReset = .next t → Inv t :=
  inv_underPins hs fun h => by cases h; exact inv_loadVector (inv_clearForReset hs) 0

theorem inv_stepBusReleased (hs : Inv s) : s.stepBusReleased = .next t → Inv t := by
  refine inv_underPins hs fun h => ?_
  cases h
  split
  · exact hs
  · exact inv_withCpuState hs (by decide)

theorem inv_stepSleep (hs : Inv s) : s.stepSleep = .next t → Inv t := by
  refine inv_underPins hs fun h => ?_
  split at h
  · obtain ⟨u, hu, h⟩ := andThen_next h
    cases h
    exact (calm_serveInterrupts (inv_withCpuState hs (by decide)).calm hu).inv_settle
  · cases h; exact hs

theorem inv_stepSoftwareStandby (hs : Inv s) : s.stepSoftwareStandby = .next t → Inv t := by
  refine inv_underPins hs fun h => ?_
  split at h
  · obtain ⟨u, hu, h⟩ := andThen_next h
    obtain ⟨v, hv, h⟩ := andThen_next h
    cases h
    have awake : Calm { s with cpuState := .executing, nmiRequest := false } :=
      { hs with settled := CpuState.noConfusion }
    exact (calm_serveInterrupts (calm_takeException awake hu) hv).inv_settle
  · cases h; exact hs

theorem inv_stepHardwareStandby (hs : Inv s) (h : s.stepHardwareStandby = .next t) : Inv t := by
  unfold State.stepHardwareStandby at h
  split at h
  · cases h; exact inv_withCpuState hs (by decide)
  · cases h; exact hs

/-- Settles O8: a split on the CPU operating state; the invariant itself excludes the exception-handling state. -/
theorem stepKeepsInv : Obligations.StepKeepsInv := by
  intro s t hs h
  unfold step State.cycle at h
  split at h
  next => exact inv_stepExecuting hs h
  next => exact inv_stepReset hs h
  next he => exact absurd he hs.settled
  next => exact inv_stepBusReleased hs h
  next => exact inv_stepSleep hs h
  next => exact inv_stepSoftwareStandby hs h
  next => exact inv_stepHardwareStandby hs h

end Sys2Proof.Machine
end

section
/-! SUPPORT. Words in memory (spec/20_memory.md R76 to R79, R104). -/

namespace Sys2Proof.Machine

variable {s t : State}

theorem readWord_odd_aerr (s : State) {a : Addr} (h : odd a = true) : (s.readWord a).2.aerr = true := by
  simp [State.readWord, h]

/-- A word access at an even address (20_memory.md R76, R78). -/
theorem writeWord_even_access (hw : s.mem.wf = true) {a : Addr} (v : Word) (h : odd a = false) :
    (s.writeWord a v).readWord a = (v, s.writeWord a v) ∧
      (s.writeWord a v).readByte a = hiByte v ∧ (s.writeWord a v).readByte (a + 1) = loByte v ∧
      SameMemoryBut s (s.writeWord a v) [a, a + 1] ∧ (s.writeWord a v).aerr = s.aerr ∧
      (s.writeWord a v).stores = (a + 1) :: a :: s.stores := by
  have word : (s.writeWord a v).wordAt a = v := wordAt_writeWord_self hw v h
  refine ⟨by rw [readWord_even h, word], ?_, ?_, fun x hx => ?_, (writeWord_same s v h).control.aerr, ?_⟩
  · rw [← hiByte_append ((s.writeWord a v).readByte a), ← State.wordAt, word]
  · rw [← loByte_append _ ((s.writeWord a v).readByte (a + 1)), ← State.wordAt, word]
  · simp only [List.mem_cons, List.not_mem_nil, or_false, not_or] at hx
    exact readByte_writeWord_ne hw v h hx.1 hx.2
  · rw [writeWord_even v h, writeByte_stores, writeByte_stores]

/-- Settles O60: every way in which an instruction can act notes its stores; the rest is about a write of two bytes. -/
theorem wordAccess : Obligations.WordAccess :=
  ⟨fun _ _ _ h => (exec_cases h).tracksStores.noted, fun s a v hw =>
    ⟨wf_writeWord hw a v, writeWord_even_access hw v, fun ho =>
      ⟨writeWord_odd_aerr s v ho, writeWord_odd_stores s v ho, readWord_odd_aerr s ho⟩⟩⟩

end Sys2Proof.Machine
end

section
/-! SUPPORT. Where operands lie (spec/20_memory.md R72, R84 to R90). -/

namespace Sys2Proof.Machine

/-- The vector table lies in page 0 (60_exceptions.md R385). -/
theorem vectorAddress_lt (s : State) {k : Nat} (hk : k < 80) : (s.vectorAddress k).toNat < 65536 := by
  unfold State.vectorAddress
  split <;> · rw [BitVec.toNat_ofNat]; omega

theorem place_preDec (s : State) (sz : Size) (r : Reg) :
    s.place sz (.preDec r) = .mem (s.phys (s.pageOf r) (s.reg r - stepSize r sz)) (accessSize r sz) := by
  simp [State.place, State.resolve, State.preDecrement, State.locate]

theorem step_and_access (r : Reg) (sz : Size) :
    (r ≠ .r7 → stepSize r sz = BitVec.ofNat 16 (sz.bits / 8) ∧ accessSize r sz = sz) ∧
      stepSize .r7 sz = 2 ∧ accessSize .r7 sz = .word := by
  refine ⟨fun hr => ?_, rfl, rfl⟩
  have access : accessSize r sz = sz := by
    cases r with
    | r7 => exact absurd rfl hr
    | r0 | r1 | r2 | r3 | r4 | r5 | r6 => rfl
  refine ⟨?_, access⟩
  rw [stepSize, access]
  cases sz <;> rfl

/-- Settles O59: physical addresses in numbers, and the address of each EA. -/
theorem physicalAddress : Obligations.PhysicalAddress := by
  intro s
  refine ⟨fun p off hm => by rw [toNat_phys, hm], fun p off hm => by rw [toNat_phys, hm, Nat.zero_add], fun _ => rfl,
    ?dataPage, ?extendedPage, ?stackPage, rfl, fun _ _ => rfl, fun _ _ _ => rfl, fun _ _ _ => rfl, place_preDec s,
    fun _ _ => rfl, fun _ _ => rfl, fun _ _ => rfl, fun _ => vectorAddress_lt s, step_and_access⟩
  case dataPage | extendedPage | stackPage => simp [State.pageOf]

end Sys2Proof.Machine
end

section
/-! SUPPORT. An EA that moves the register operand is refused before anything is read (spec/20_memory.md R94). -/

namespace Sys2Proof.Machine

variable {s : State} {sz : Size} {ea : Ea} {r : Reg}

theorem binaryToReg_overlap {op : BitVec sz.bits → BitVec sz.bits → Flags → BitVec sz.bits × Flags}
    (h : movesReg ea r = true) : binaryToReg sz ea r op s = .refused .eaSideEffectOnOperandRegister :=
  if_pos h

theorem extendedToReg_overlap {op : Word → Word → Word} (h : movesReg ea r = true) :
    extendedToReg sz ea r op s = .refused .eaSideEffectOnOperandRegister :=
  if_pos h

theorem withRegBit_overlap {n : Nat} {t : State} (h : movesReg ea r = true) :
    withRegBit sz r ea n t = .refused .eaSideEffectOnOperandRegister :=
  if_pos h

/-- The guards of the word forms of MULXU and DIVXU: either register of the pair counts. -/
theorem pairGuards_overlap {o : Outcome} (hr : isOddReg r = false)
    (h : (movesReg ea r || movesReg ea (nextReg r)) = true) :
    (if isOddReg r then .refused .oddRegisterPair
      else if movesReg ea r || movesReg ea (nextReg r) then .refused .eaSideEffectOnOperandRegister else o) =
      (.refused .eaSideEffectOnOperandRegister : Outcome) := by
  rw [hr, if_neg Bool.false_ne_true, if_pos h]

theorem hasEClock_of_ne {c : Chip} (h : c ≠ .h8520) : hasEClock c = true := by
  cases c with
  | h8520 => exact absurd rfl h
  | h8510 | h8532 | h8534 | h8536 | h8570 => rfl

/-- Settles O52: the guard of each form of instruction. -/
theorem overlapRefused : Obligations.OverlapRefused := by
  intro sz ea r s h
  refine ⟨?_, fun hr => ?_, ?_, fun hc => ?_⟩
  · simp only [List.forall_mem_cons]
    exact ⟨binaryToReg_overlap h, extendedToReg_overlap h, binaryToReg_overlap h, extendedToReg_overlap h,
      binaryToReg_overlap h, binaryToReg_overlap h, binaryToReg_overlap h, if_pos h, if_pos h, if_pos h,
      binaryToReg_overlap h, binaryToReg_overlap h, withRegBit_overlap h, withRegBit_overlap h, withRegBit_overlap h,
      withRegBit_overlap h, if_pos h, if_pos h, List.forall_mem_nil _⟩
  · have upper : (movesReg ea r || movesReg ea (nextReg r)) = true := by rw [h, Bool.true_or]
    exact ⟨pairGuards_overlap hr upper, pairGuards_overlap hr upper⟩
  · rintro q hq rfl
    have lower : (movesReg ea q || movesReg ea (nextReg q)) = true := by rw [h, Bool.or_true]
    exact ⟨pairGuards_overlap hq lower, pairGuards_overlap hq lower⟩
  · exact ⟨(if_pos (hasEClock_of_ne hc)).trans (if_pos h), (if_pos (hasEClock_of_ne hc)).trans (if_pos h)⟩

end Sys2Proof.Machine
end

section
/-! SUPPORT. A misaligned access notes an address error, and what the instruction does after it keeps the note
(spec/20_memory.md R79, R80, spec/60_exceptions.md R388). -/

namespace Sys2Proof.Machine

variable {s t u : State} {sz : Size} {ea : Ea} {r : Reg}

/-- The instruction runs to its end with an address error noted. -/
def NotesError (o : Outcome) : Prop := ∃ t, o = .next t ∧ t.aerr = true

theorem notesError_of_tracks (he : u.aerr = true) (h : TracksStores u t) : NotesError (.next t) := ⟨t, rfl, h.aerr he⟩

theorem notesError_of_ordinary (he : u.aerr = true) (h : Ordinary u t) : NotesError (.next t) :=
  notesError_of_tracks he h.tracksStores

theorem notesError_unless {c : Prop} [Decidable c] {e : Refusal} {o : Outcome} (hc : ¬c) (h : NotesError o) :
    NotesError (if c then .refused e else o) := by
  rwa [if_neg hc]

theorem notesError_if {c : Prop} [Decidable c] {e : Refusal} {o : Outcome} (hc : c) (h : NotesError o) :
    NotesError (if c then o else .refused e) := by
  rwa [if_pos hc]

/-! ### Operands -/

theorem writeLoc_misaligned (s : State) (sz : Size) {l : Loc} (v : BitVec sz.bits) (h : l.aligned = false) :
    (s.writeLoc sz l v).aerr = true := by
  match l, h with
  | .mem a .word, h =>
    have ha : odd a = true := by simpa [Loc.aligned] using h
    cases sz <;> exact writeWord_odd_aerr _ _ ha

theorem readWord_reg (s : State) (a : Addr) (q : Reg) : (s.readWord a).2.reg q = s.reg q := by
  unfold State.readWord
  split <;> rfl

theorem readLoc_reg (s : State) (sz : Size) (l : Loc) (q : Reg) : (s.readLoc sz l).2.reg q = s.reg q := by
  match l with
  | .reg _ | .imm _ | .mem _ .byte => rfl
  | .mem a .word => exact readWord_reg s a q

section
variable (ha : (s.place sz ea).aligned = false)
include ha

theorem notesError_storeEa (v : BitVec sz.bits) (f : Flags) : NotesError (.next (s.storeEa sz ea v f)) :=
  notesError_of_ordinary (writeLoc_misaligned _ sz v ha) ((ordinary_setFlags _ f).trans (ordinary_finish _ sz ea))

theorem notesError_modifyEa (op : BitVec sz.bits → Flags → BitVec sz.bits × Flags) :
    NotesError (.next (modifyEa sz ea op s)) :=
  notesError_of_ordinary (readEa_misaligned s ha)
    (((ordinary_writeLoc _ sz (s.place sz ea) _).trans (ordinary_setFlags _ _)).trans (ordinary_finish _ sz ea))

theorem notesError_testEa (op : BitVec sz.bits → Flags → Flags) : NotesError (.next (testEa sz ea op s)) :=
  notesError_of_ordinary (readEa_misaligned s ha) ((ordinary_setFlags _ _).trans (ordinary_finish _ sz ea))

theorem notesError_binaryToReg (op : BitVec sz.bits → BitVec sz.bits → Flags → BitVec sz.bits × Flags)
    (hm : movesReg ea r = false) : NotesError (binaryToReg sz ea r op s) :=
  notesError_unless (ne_true_of_eq_false hm) (notesError_of_ordinary (readEa_misaligned s ha)
    (((ordinary_writeReg _ sz r _).trans (ordinary_setFlags _ _)).trans (ordinary_finish _ sz ea)))

theorem notesError_compareReg (op : BitVec sz.bits → BitVec sz.bits → Flags → BitVec sz.bits × Flags)
    (hm : movesReg ea r = false) : NotesError (compareReg sz ea r op s) :=
  notesError_unless (ne_true_of_eq_false hm) (notesError_of_ordinary (readEa_misaligned s ha)
    ((ordinary_setFlags _ _).trans (ordinary_finish _ sz ea)))

theorem notesError_extendedToReg (op : Word → Word → Word) (hm : movesReg ea r = false) :
    NotesError (extendedToReg sz ea r op s) :=
  notesError_unless (ne_true_of_eq_false hm) (notesError_of_ordinary (readEa_misaligned s ha)
    ((ordinary_setReg _ r _).trans (ordinary_finish _ sz ea)))

theorem notesError_movGLoad (hm : movesReg ea r = false) : NotesError (execMovGLoad sz ea r s) :=
  notesError_unless (ne_true_of_eq_false hm) (notesError_of_ordinary (readEa_misaligned s ha)
    ((ordinary_moveToReg _ sz r _).trans (ordinary_finish _ sz ea)))

theorem notesError_movGStore (hm : movesReg ea r = false) : NotesError (execMovGStore sz r ea s) :=
  notesError_unless (ne_true_of_eq_false hm) (notesError_storeEa ha _ _)

end

/-! ### Bits -/

theorem bitNumber_eq (s : State) (r : Reg) : s.bitNumber r = (s.reg r).toNat % 16 := by
  simp [State.bitNumber, BitVec.extractLsb'_toNat]

theorem notesError_withBit {n : Nat} (hn : n < sz.bits) (h : NotesError (.next t)) : NotesError (withBit sz n t) :=
  notesError_unless (Nat.not_le_of_lt hn) h

theorem notesError_withRegBit {n : Nat} (hm : movesReg ea r = false) (hn : n < sz.bits) (h : NotesError (.next t)) :
    NotesError (withRegBit sz r ea n t) :=
  notesError_unless (ne_true_of_eq_false hm) (notesError_withBit hn h)

/-! ### E clock -/

theorem notesError_movfpe (hc : s.chip ≠ .h8520) (hm : movesReg ea r = false)
    (ha : (s.place .byte ea).aligned = false) : NotesError (execMovfpe ea r s) :=
  notesError_if (hasEClock_of_ne hc) (notesError_unless (ne_true_of_eq_false hm)
    (notesError_of_ordinary (readEa_misaligned s ha)
      ((ordinary_writeReg _ .byte r _).trans (ordinary_finish _ .byte ea))))

theorem notesError_movtpe (hc : s.chip ≠ .h8520) (hm : movesReg ea r = false)
    (ha : (s.place .byte ea).aligned = false) : NotesError (execMovtpe r ea s) :=
  notesError_if (hasEClock_of_ne hc) (notesError_unless (ne_true_of_eq_false hm) (notesError_storeEa ha _ _))

/-! ### Multiplication and division -/

/-- Neither register of the pair is moved. -/
theorem pair_not_moved (hr : movesReg ea r = false) (hn : movesReg ea (nextReg r) = false) :
    ¬(movesReg ea r || movesReg ea (nextReg r)) = true := by
  simp [hr, hn]

theorem notesError_mulxu (hp : sz = .word → isOddReg r = false ∧ movesReg ea (nextReg r) = false)
    (hm : movesReg ea r = false) (ha : (s.place sz ea).aligned = false) : NotesError (execMulxu sz ea r s) := by
  cases sz with
  | byte =>
    exact notesError_unless (ne_true_of_eq_false hm) (notesError_of_ordinary (readEa_misaligned s ha)
      ((ordinary_setReg_setFlags _ r _ _).trans (ordinary_finish _ .byte ea)))
  | word =>
    obtain ⟨hr, hn⟩ := hp rfl
    exact notesError_unless (ne_true_of_eq_false hr) (notesError_unless (pair_not_moved hm hn)
      (notesError_of_ordinary (readEa_misaligned s ha)
        (((ordinary_setPair _ r _ _).trans (ordinary_setFlags _ _)).trans (ordinary_finish _ .word ea))))

theorem notesError_takeException {e : Exception} {p : Word} (he : s.aerr = true) (ho : odd (s.reg .r7) = false) :
    NotesError (s.takeException e p) := by
  obtain ⟨t, ht, _⟩ := takeException_even e p ho
  exact ⟨t, ht, (tracksStores_takeException ht).aerr he⟩

/-- A division runs to its end, or the zero-divide exception meets an odd R7. -/
def DividesWithError (s : State) (sz : Size) (ea : Ea) (o : Outcome) : Prop :=
  NotesError o ∨ odd (s.afterEa sz ea .r7) = true ∧ o = .fault .stackErrorInSequence

theorem dividesWithError_finishDivide {q : Quotient w} {write : BitVec w → BitVec w → State → State}
    (ha : (s.place sz ea).aligned = false)
    (hw : ∀ q r, Ordinary (s.readEa sz ea).2 (write q r (s.readEa sz ea).2)) :
    DividesWithError s sz ea (finishDivide sz ea q write (s.readEa sz ea).2) := by
  have he := readEa_misaligned s ha
  have ended (f : Flags) : Ordinary (s.readEa sz ea).2 (((s.readEa sz ea).2.setFlags f).finish sz ea) :=
    (ordinary_setFlags _ f).trans (ordinary_finish _ sz ea)
  cases q with
  | byZero =>
    have h7 : (((s.readEa sz ea).2.setFlags zeroDivideFlags).finish sz ea).reg .r7 = s.afterEa sz ea .r7 :=
      reg_finish_keep (u := (s.readEa sz ea).2.setFlags zeroDivideFlags) (readLoc_reg _ sz _) .r7
    cases ho : odd (s.afterEa sz ea .r7) with
    | false => exact .inl (notesError_takeException ((ended _).aerr he) (h7 ▸ ho))
    | true => exact .inr ⟨ho, takeException_odd _ _ (h7 ▸ ho)⟩
  | overflow => exact .inl (notesError_of_ordinary he (ended _))
  | ok q r =>
    exact .inl (notesError_of_ordinary he
      (((hw q r).trans (ordinary_setFlags _ _)).trans (ordinary_finish _ sz ea)))

theorem dividesWithError_divxu (hp : sz = .word → isOddReg r = false ∧ movesReg ea (nextReg r) = false)
    (hm : movesReg ea r = false) (ha : (s.place sz ea).aligned = false) :
    DividesWithError s sz ea (execDivxu sz ea r s) := by
  cases sz with
  | byte =>
    rw [execDivxu, divxuByte, if_neg (ne_true_of_eq_false hm)]
    exact dividesWithError_finishDivide ha fun _ _ => ordinary_setReg _ r _
  | word =>
    obtain ⟨hr, hn⟩ := hp rfl
    rw [execDivxu, divxuWord, if_neg (ne_true_of_eq_false hr), if_neg (pair_not_moved hm hn)]
    exact dividesWithError_finishDivide ha fun _ _ => ordinary_setPair _ r _ _

/-! ### Control registers -/

theorem notesError_ldc {cr : ControlReg} (ha : (s.place cr.size ea).aligned = false) : NotesError (execLdc ea cr s) :=
  notesError_of_tracks (readEa_misaligned s ha)
    (((tracksStores_writeCr _ cr _).trans (ordinary_finish _ cr.size ea).tracksStores).trans
      (tracksStores_of_eq rfl rfl rfl))

/-! ### The stack -/

theorem notesError_inMaximum {d : Word} {o : Outcome} (hm : s.mode = .maximum) (h : NotesError o) :
    NotesError (inMaximum d s o) := by
  rwa [inMaximum, hm]

theorem popTo_odd_aerr (r : Reg) (h : odd (s.reg .r7) = true) : (s.popTo r).aerr = true := by
  cases r <;> exact pop16_odd_aerr h

theorem pushReg_odd_aerr (r : Reg) (h : odd (s.reg .r7) = true) : (s.pushReg r).aerr = true := by
  rw [pushReg_eq]
  exact push16_odd_aerr _ h

theorem listedRegs_ne_nil {list : Byte} (h : list ≠ 0) : listedRegs list ≠ [] := by
  intro hnil
  refine h (BitVec.eq_of_getLsbD_eq fun k hk => ?_)
  have clear := List.filter_eq_nil_iff.mp hnil
  simp only [List.forall_mem_cons, Bool.not_eq_true] at clear
  obtain ⟨h0, h1, h2, h3, h4, h5, h6, h7, _⟩ := clear
  interval_cases k <;> assumption

/-- The first access of LDM or STM notes the error, and the others keep the note. -/
theorem foldl_aerr {f : State → Reg → State} (hf : ∀ s r, Ordinary s (f s r)) (he : ∀ r, (f s r).aerr = true)
    {rs : List Reg} (hne : rs ≠ []) : (rs.foldl f s).aerr = true := by
  cases rs with
  | nil => exact absurd rfl hne
  | cons r rs => exact (ordinary_foldl hf rs (f s r)).aerr (he r)

section
variable (h : odd (s.reg .r7) = true)
include h

/-- An instruction that accesses memory for one push only. -/
theorem notesError_push16 {v : Word} (ht : t.aerr = (s.push16 v).aerr) : NotesError (.next t) :=
  ⟨t, rfl, ht.trans (push16_odd_aerr v h)⟩

/-- An instruction that accesses memory for one pop only. -/
theorem notesError_pop16 (ht : t.aerr = s.pop16.2.aerr) : NotesError (.next t) :=
  ⟨t, rfl, ht.trans (pop16_odd_aerr h)⟩

theorem notesError_returnFromException : NotesError (.next s.returnFromException) :=
  have popped : s.popSr.aerr = true := pop16_odd_aerr h
  notesError_of_tracks popped (tracksStores_afterPopSr s)

/-- PRTS, and PRTD, which moves R7 after it. -/
theorem notesError_pageReturn (ht : t.aerr = s.popCp.popPc.aerr) : NotesError (.next t) :=
  have popped : s.popCp.aerr = true := pop16_odd_aerr h
  ⟨t, rfl, ht.trans ((tracksStores_popPc s.popCp).aerr popped)⟩

theorem notesError_pageCall (page : Byte) (v : Word) : NotesError (.next (s.pageCall page v)) :=
  notesError_of_tracks (push16_odd_aerr s.pc h)
    ((ordinary_pushByte _ _).tracksStores.trans (tracksStores_of_eq rfl rfl rfl))

theorem notesError_ldm {list : Byte} (hl : list ≠ 0) : NotesError (execLdm list s) :=
  ⟨_, rfl, foldl_aerr ordinary_popTo (fun r => popTo_odd_aerr r h) (listedRegs_ne_nil hl)⟩

theorem notesError_stm {list : Byte} (hl : list ≠ 0) : NotesError (execStm list s) :=
  ⟨_, rfl, foldl_aerr ordinary_pushReg (fun r => pushReg_odd_aerr r h)
    (List.reverse_ne_nil_iff.mpr (listedRegs_ne_nil hl))⟩

end

/-- Settles O54: an odd address is met by the first access of each form of instruction, and what follows it keeps the
note. -/
theorem misalignedAccessNoted : Obligations.MisalignedAccessNoted := by
  refine ⟨?operands, ?bits, ?bytes, ?words, ?products, ?control, ?stack, ?unlk⟩
  case operands =>
    intro sz ea r s hm ha
    have binary (op) : NotesError (binaryToReg sz ea r op s) := notesError_binaryToReg ha op hm
    have extended (op) : NotesError (extendedToReg sz ea r op s) := notesError_extendedToReg ha op hm
    have modify (op) : NotesError (.next (modifyEa sz ea op s)) := notesError_modifyEa ha op
    simp only [List.forall_mem_cons]
    exact ⟨notesError_movGLoad ha hm, binary _, binary _, binary _, binary _, binary _, binary _, binary _,
      notesError_compareReg ha _ hm, extended _, extended _, notesError_movGStore ha hm, modify _, modify _, modify _,
      modify _, notesError_storeEa ha _ _, modify _, modify _, notesError_testEa ha _, modify _, modify _, modify _,
      modify _, modify _, modify _, modify _, modify _, List.forall_mem_nil _⟩
  case bits =>
    intro sz ea s ha
    have modify (op) : NotesError (.next (modifyEa sz ea op s)) := notesError_modifyEa ha op
    have test (op) : NotesError (.next (testEa sz ea op s)) := notesError_testEa ha op
    refine ⟨fun n hn => ?_, fun r hm hn => ?_⟩
    · simp only [List.forall_mem_cons]
      exact ⟨notesError_withBit hn (modify _), notesError_withBit hn (modify _), notesError_withBit hn (modify _),
        notesError_withBit hn (test _), List.forall_mem_nil _⟩
    · rw [← bitNumber_eq] at hn
      simp only [List.forall_mem_cons]
      exact ⟨notesError_withRegBit hm hn (modify _), notesError_withRegBit hm hn (modify _),
        notesError_withRegBit hm hn (modify _), notesError_withRegBit hm hn (test _), List.forall_mem_nil _⟩
  case bytes =>
    intro ea s ha
    simp only [List.forall_mem_cons]
    exact ⟨fun v => ⟨notesError_testEa ha _, notesError_storeEa ha _ _, notesError_modifyEa ha _,
      List.forall_mem_nil _⟩, fun r hm hc => ⟨notesError_movfpe hc hm ha, notesError_movtpe hc hm ha,
      List.forall_mem_nil _⟩⟩
  case words =>
    intro ea v s ha
    simp only [List.forall_mem_cons]
    exact ⟨notesError_testEa ha _, notesError_storeEa ha _ _, List.forall_mem_nil _⟩
  case products =>
    exact fun sz ea r s hp hm ha => ⟨notesError_mulxu hp hm ha, dividesWithError_divxu hp hm ha⟩
  case control =>
    intro cr ea s ha
    simp only [List.forall_mem_cons]
    exact ⟨notesError_ldc ha, notesError_storeEa ha _ _, List.forall_mem_nil _⟩
  case stack =>
    intro s h
    have pushed {t : State} (v : Word) (ht : t.aerr = (s.push16 v).aerr) : NotesError (.next t) :=
      notesError_push16 h ht
    have popped {t : State} (ht : t.aerr = s.pop16.2.aerr) : NotesError (.next t) := notesError_pop16 h ht
    simp only [List.forall_mem_cons]
    refine ⟨fun d a r => ?_, fun list hl => ⟨notesError_ldm h hl, notesError_stm h hl, List.forall_mem_nil _⟩,
      fun hm => ⟨fun p d a => ?_, fun r hr => ?_⟩⟩
    · exact ⟨pushed s.pc rfl, pushed s.pc rfl, pushed s.pc rfl, pushed s.pc rfl, pushed s.pc rfl, pushed s.pc rfl,
        popped rfl, popped rfl, popped rfl, notesError_returnFromException h, pushed (s.reg .r6) rfl,
        pushed (s.reg .r6) rfl, List.forall_mem_nil _⟩
    · have returned {t : State} (ht : t.aerr = s.popCp.popPc.aerr) : NotesError (.next t) := notesError_pageReturn h ht
      exact ⟨notesError_inMaximum hm (notesError_pageCall h p a), notesError_inMaximum hm (returned rfl),
        notesError_inMaximum hm (returned rfl), notesError_inMaximum hm (returned rfl), List.forall_mem_nil _⟩
    · exact notesError_inMaximum hm (notesError_unless (ne_true_of_eq_false hr) (notesError_pageCall h _ _))
  case unlk =>
    exact fun s h => ⟨_, rfl, pop16_odd_aerr (s := s.setReg .r7 (s.reg .r6)) (by rwa [reg_setReg_self])⟩

end Sys2Proof.Machine
end

section
/-! SUPPORT. The fields of a code, each read back from the byte it was put in (spec/30_encoding.md R123 to R128). -/

namespace Sys2Proof

/-! ### Numbers of registers and conditions -/

@[simp] theorem Reg.ofBits_toBits (r : Reg) : Reg.ofBits r.toBits = r := by cases r <;> rfl

@[simp] theorem Reg.toBits_ofBits (b : BitVec 3) : (Reg.ofBits b).toBits = b := by revert b; decide

@[simp] theorem Cond.ofBits_toBits (cc : Cond) : Cond.ofBits cc.toBits = cc := by cases cc <;> rfl

@[simp] theorem Cond.toBits_ofBits (b : BitVec 4) : (Cond.ofBits b).toBits = b := by revert b; decide

@[simp] theorem ControlReg.ofBits_toBits (cr : ControlReg) : ControlReg.ofBits cr.size cr.toBits = some cr := by
  cases cr <;> rfl

theorem ControlReg.of_ofBits {sz : Size} {b : BitVec 3} {cr : ControlReg} (h : ControlReg.ofBits sz b = some cr) :
    cr.size = sz ∧ cr.toBits = b := by
  unfold ControlReg.ofBits at h
  split at h <;> cases h
  all_goals exact ⟨rfl, (BitVec.eq_of_toNat_eq ‹_›).symm⟩

/-! ### Fields of a byte as numbers -/

theorem upper5_toNat (b : Byte) : (b.extractLsb' 3 5).toNat = b.toNat / 8 := by
  rw [BitVec.extractLsb'_toNat, Nat.shiftRight_eq_div_pow]; omega

theorem upper4_toNat (b : Byte) : (b.extractLsb' 4 4).toNat = b.toNat / 16 := by
  rw [BitVec.extractLsb'_toNat, Nat.shiftRight_eq_div_pow]; omega

theorem low4_toNat (b : Byte) : (low4 b).toNat = b.toNat % 16 := by
  rw [low4, BitVec.extractLsb'_toNat, Nat.shiftRight_zero]

theorem low3_toNat (b : Byte) : (low3 b).toNat = b.toNat % 8 := by
  rw [low3, BitVec.extractLsb'_toNat, Nat.shiftRight_zero]

theorem append_toNat {m n : Nat} (x : BitVec m) (y : BitVec n) : (x ++ y).toNat = 2 ^ n * x.toNat + y.toNat := by
  rw [BitVec.toNat_append, ← Nat.shiftLeft_add_eq_or_of_lt y.isLt, Nat.shiftLeft_eq, Nat.mul_comm]

theorem opReg_toNat (c : BitVec 5) (f : BitVec 3) : (opReg c f).toNat = 8 * c.toNat + f.toNat := append_toNat c f

theorem opNibble_toNat (c f : BitVec 4) : (opNibble c f).toNat = 16 * c.toNat + f.toNat := append_toNat c f

theorem opSizeReg_eq_opReg (c : BitVec 4) (sz : Size) (r : Reg) :
    opSizeReg c sz r = opReg (c ++ sz.toBit) r.toBits := rfl

theorem opSizeReg_toNat (c : BitVec 4) (sz : Size) (r : Reg) :
    (opSizeReg c sz r).toNat = 16 * c.toNat + 8 * sz.toBit.toNat + r.toBits.toNat := by
  rw [opSizeReg_eq_opReg, opReg_toNat, append_toNat]; omega

/-! ### The encoder's bytes, read by the decoder -/

@[simp] theorem upper5_opReg (c : BitVec 5) (f : BitVec 3) : (opReg c f).extractLsb' 3 5 = c := by
  apply BitVec.eq_of_toNat_eq
  rw [upper5_toNat, opReg_toNat]; omega

@[simp] theorem low3_opReg (c : BitVec 5) (f : BitVec 3) : low3 (opReg c f) = f := by
  apply BitVec.eq_of_toNat_eq
  rw [low3_toNat, opReg_toNat]; omega

@[simp] theorem regOf_opReg (c : BitVec 5) (r : Reg) : regOf (opReg c r.toBits) = r := by simp [regOf]

@[simp] theorem upper4_opNibble (c f : BitVec 4) : (opNibble c f).extractLsb' 4 4 = c := by
  apply BitVec.eq_of_toNat_eq
  rw [upper4_toNat, opNibble_toNat]; omega

@[simp] theorem low4_opNibble (c f : BitVec 4) : low4 (opNibble c f) = f := by
  apply BitVec.eq_of_toNat_eq
  rw [low4_toNat, opNibble_toNat]; omega

@[simp] theorem upper4_opSizeReg (c : BitVec 4) (sz : Size) (r : Reg) : (opSizeReg c sz r).extractLsb' 4 4 = c := by
  apply BitVec.eq_of_toNat_eq
  rw [upper4_toNat, opSizeReg_toNat]; omega

@[simp] theorem regOf_opSizeReg (c : BitVec 4) (sz : Size) (r : Reg) : regOf (opSizeReg c sz r) = r := by
  rw [opSizeReg_eq_opReg, regOf_opReg]

@[simp] theorem sizeOf3_opSizeReg (c : BitVec 4) (sz : Size) (r : Reg) : sizeOf3 (opSizeReg c sz r) = sz := by
  have bit : (opSizeReg c sz r).getLsbD 3 = sz.toBit.getLsbD 0 := by
    rw [BitVec.getLsbD, BitVec.getLsbD, Nat.testBit_eq_decide_div_mod_eq, Nat.testBit_eq_decide_div_mod_eq,
      opSizeReg_toNat]
    congr 2
    omega
  rw [sizeOf3, bit]
  cases sz <;> rfl

/-! ### The decoder's fields, put back into a byte -/

theorem opReg_of_upper5 {b : Byte} {c : BitVec 5} (h : b.toNat / 8 = c.toNat) : opReg c (low3 b) = b := by
  apply BitVec.eq_of_toNat_eq
  rw [opReg_toNat, low3_toNat]; omega

theorem opReg_regOf {b : Byte} {c : BitVec 5} (h : b.toNat / 8 = c.toNat) : opReg c (regOf b).toBits = b := by
  rw [regOf, Reg.toBits_ofBits, opReg_of_upper5 h]

theorem opNibble_low4 {b : Byte} {c : BitVec 4} (h : b.toNat / 16 = c.toNat) : opNibble c (low4 b) = b := by
  apply BitVec.eq_of_toNat_eq
  rw [opNibble_toNat, low4_toNat]; omega

theorem sizeOf3_toBit_toNat (b : Byte) : (sizeOf3 b).toBit.toNat = b.toNat / 8 % 2 := by
  revert b; decide

theorem opSizeReg_sizeOf3_regOf {b : Byte} {c : BitVec 4} (h : b.toNat / 16 = c.toNat) :
    opSizeReg c (sizeOf3 b) (regOf b) = b := by
  apply BitVec.eq_of_toNat_eq
  rw [opSizeReg_toNat, sizeOf3_toBit_toNat, regOf, Reg.toBits_ofBits, low3_toNat]; omega

end Sys2Proof
end

section
/-! SUPPORT. The bytes of a code: where the decoder reads them, and when it has enough of them
(spec/30_encoding.md R123, R138). -/

namespace Sys2Proof

open Machine (hiByte_append_loByte hiByte_append loByte_append)

/-! ### Reading -/

@[simp] theorem byteAt_cons_zero (b : Byte) (bs : List Byte) : byteAt (b :: bs) 0 = b := by
  rw [byteAt, List.getD_cons_zero]

@[simp] theorem byteAt_cons_succ (b : Byte) (bs : List Byte) (k : Nat) : byteAt (b :: bs) (k + 1) = byteAt bs k := by
  rw [byteAt, List.getD_cons_succ, byteAt]

@[simp] theorem byteAt_append_length_add (pre bs : List Byte) (k : Nat) :
    byteAt (pre ++ bs) (pre.length + k) = byteAt bs k := by
  rw [byteAt, List.getD_append_right _ _ _ _ (Nat.le_add_right _ _), Nat.add_sub_cancel_left, byteAt]

@[simp] theorem byteAt_append_length (pre bs : List Byte) : byteAt (pre ++ bs) pre.length = byteAt bs 0 :=
  byteAt_append_length_add pre bs 0

@[simp] theorem wordAt_append_length_add (pre bs : List Byte) (k : Nat) :
    wordAt (pre ++ bs) (pre.length + k) = wordAt bs k := by
  rw [wordAt, Nat.add_assoc, byteAt_append_length_add, byteAt_append_length_add, wordAt]

@[simp] theorem wordAt_cons_succ (b : Byte) (bs : List Byte) (k : Nat) : wordAt (b :: bs) (k + 1) = wordAt bs k := by
  rw [wordAt, byteAt_cons_succ, byteAt_cons_succ, wordAt]

@[simp] theorem wordAt_wordBytes (w : Word) (bs : List Byte) : wordAt (wordBytes w ++ bs) 0 = w :=
  hiByte_append_loByte w

@[simp] theorem wordBytes_length (w : Word) : (wordBytes w).length = 2 := rfl

theorem wordBytes_wordAt (bs : List Byte) (k : Nat) : wordBytes (wordAt bs k) = [byteAt bs k, byteAt bs (k + 1)] := by
  rw [wordBytes, wordAt, hiByte_append, loByte_append]

/-- The first `n` bytes as the decoder reads them: past the end it reads zeros. -/
def readBytes (bs : List Byte) (n : Nat) : List Byte := (List.range n).map (byteAt bs)

theorem readBytes_succ (bs : List Byte) (n : Nat) : readBytes bs (n + 1) = readBytes bs n ++ [byteAt bs n] := by
  rw [readBytes, List.range_succ, List.map_append, List.map_singleton, readBytes]

theorem readBytes_eq_take {bs : List Byte} {n : Nat} (h : n ≤ bs.length) : readBytes bs n = bs.take n := by
  apply List.ext_getElem
  · simp [readBytes, h]
  · intro k hk hk'
    have hkl : k < bs.length := lt_of_lt_of_le hk' (List.length_take_le' _ _)
    simp [readBytes, byteAt, hkl]

/-! ### Truncation -/

theorem decode_eq_instr_iff {bs : List Byte} {i : Instr} {n : Nat} :
    decode bs = .instr i n ↔ decodeBytes bs = .instr i n ∧ n ≤ bs.length := by
  constructor
  · intro h
    simp only [decode] at h
    split at h
    next hn => exact ⟨h, by rwa [h] at hn⟩
    next => cases h
  · rintro ⟨h, hn⟩
    rw [decode, h]
    exact if_pos hn

theorem decode_of_rejected {bs : List Byte} {e : DecodeError} {n : Nat} (h : decodeBytes bs = .rejected e n)
    (hn : n ≤ bs.length) : decode bs = .rejected e n := by
  rw [decode, h]
  exact if_pos hn

end Sys2Proof
end

section
/-! SUPPORT. The second byte of TRAPA, and of the codes that begin with H'01, H'06, H'07 and H'11
(spec/30_encoding.md R134, R135, R137, R142). -/

namespace Sys2Proof

/-! ### TRAPA -/

theorem decodeBytes_trapa (b2 : Byte) (rest : List Byte) :
    decodeBytes (0x08 :: b2 :: rest) =
      if b2.extractLsb' 4 4 = 1 then .instr (.trapa (low4 b2)) 2 else .rejected (.undefinedTrapa b2) 2 := by
  simp [decodeBytes, decodeFirst0, low4_toNat]

theorem upper4_eq_one_iff (b : Byte) : b.extractLsb' 4 4 = 1 ↔ b.toNat / 16 = 1 := by
  rw [← BitVec.toNat_inj, upper4_toNat]; rfl

/-- Settles O4, on the quotient by 16 that the decoder compares. -/
theorem trapaSecondByte : Obligations.TrapaSecondByte := by
  intro b2 rest
  constructor
  · intro h
    rw [decode_eq_instr_iff, decodeBytes_trapa, if_pos ((upper4_eq_one_iff b2).2 h)]
    exact ⟨rfl, by simp⟩
  · intro h
    refine decode_of_rejected ?_ (by simp)
    rw [decodeBytes_trapa, if_neg (mt (upper4_eq_one_iff b2).1 h)]

/-! ### Invalid second bytes -/

theorem inRange_iff {n lo hi : Nat} : inRange n lo hi = true ↔ lo ≤ n ∧ n ≤ hi := by simp [inRange]

theorem secondByteInvalid_iff (b : Byte) :
    secondByteInvalid b = true ↔
      b.toNat ≤ 0x13 ∨ (0x15 ≤ b.toNat ∧ b.toNat ≤ 0x18) ∨ b.toNat = 0x1A ∨ b.toNat = 0x1B ∨
        (0x1D ≤ b.toNat ∧ b.toNat ≤ 0x7F) ∨ (0x88 ≤ b.toNat ∧ b.toNat ≤ 0x8F) ∨ (0x98 ≤ b.toNat ∧ b.toNat ≤ 0x9F) ∨
        (0xA8 ≤ b.toNat ∧ b.toNat ≤ 0xAF) := by
  simp only [secondByteInvalid, Bool.or_eq_true, inRange_iff]
  omega

theorem decodeScb_eq_invalidSecond_iff {g : SecondGroup} {mk : Reg → Byte → Instr} {b1 b2 : Byte} {rest : List Byte}
    (hmk : ∀ r d, mk r d ≠ .invalidSecond g b2) :
    decodeScb g mk (b1 :: b2 :: rest) = .instr (.invalidSecond g b2) 2 ↔ secondByteInvalid b2 = true := by
  simp only [decodeScb, byteAt_cons_succ, byteAt_cons_zero]
  by_cases scb : b2.extractLsb' 3 5 = 0x17
  · have n : b2.toNat / 8 = 0x17 := by rw [← upper5_toNat, scb]; rfl
    simp only [if_pos scb, Decoded.instr.injEq, hmk, false_and, false_iff, secondByteInvalid_iff]
    omega
  · rw [if_neg scb]
    split_ifs with h <;> simp [h]

theorem decodePage_eq_invalidSecond_iff {b1 b2 : Byte} {rest : List Byte} :
    decodePage (b1 :: b2 :: rest) = .instr (.invalidSecond .page b2) 2 ↔ secondByteInvalid b2 = true := by
  simp only [decodePage, byteAt_cons_succ, byteAt_cons_zero, upper5_toNat]
  split
  case h_9 =>
    split_ifs with h14 h19 h1C h
    · simp [h14, secondByteInvalid, inRange]
    · simp [h19, secondByteInvalid, inRange]
    · simp [h1C, secondByteInvalid, inRange]
    · simp [h]
    · simp [h]
  all_goals
    simp only [Decoded.instr.injEq, reduceCtorEq, false_and, false_iff, secondByteInvalid_iff]
    omega

theorem decodeBytes_scbF (bs : List Byte) :
    decodeBytes (SecondGroup.scbF.firstByte :: bs) = decodeScb .scbF .scbF (0x01 :: bs) := by
  simp [SecondGroup.firstByte, decodeBytes, decodeFirst0, low4_toNat]

theorem decodeBytes_scbNE (bs : List Byte) :
    decodeBytes (SecondGroup.scbNE.firstByte :: bs) = decodeScb .scbNE .scbNE (0x06 :: bs) := by
  simp [SecondGroup.firstByte, decodeBytes, decodeFirst0, low4_toNat]

theorem decodeBytes_scbEQ (bs : List Byte) :
    decodeBytes (SecondGroup.scbEQ.firstByte :: bs) = decodeScb .scbEQ .scbEQ (0x07 :: bs) := by
  simp [SecondGroup.firstByte, decodeBytes, decodeFirst0, low4_toNat]

theorem decodeBytes_page (bs : List Byte) :
    decodeBytes (SecondGroup.page.firstByte :: bs) = decodePage (0x11 :: bs) := by
  simp [SecondGroup.firstByte, decodeBytes, decodeFirst1, low4_toNat]

theorem decodeBytes_eq_invalidSecond_iff (g : SecondGroup) (b2 : Byte) (rest : List Byte) :
    decodeBytes (g.firstByte :: b2 :: rest) = .instr (.invalidSecond g b2) 2 ↔ secondByteInvalid b2 = true := by
  cases g with
  | scbF => rw [decodeBytes_scbF, decodeScb_eq_invalidSecond_iff (by simp)]
  | scbNE => rw [decodeBytes_scbNE, decodeScb_eq_invalidSecond_iff (by simp)]
  | scbEQ => rw [decodeBytes_scbEQ, decodeScb_eq_invalidSecond_iff (by simp)]
  | page => rw [decodeBytes_page, decodePage_eq_invalidSecond_iff]

/-- Settles O5: each of the four first bytes leads to a table of second bytes that ends in the same list. -/
theorem invalidSecondBytes : Obligations.InvalidSecondBytes := by
  intro g b2 rest n
  rw [decode_eq_instr_iff, decodeBytes_eq_invalidSecond_iff, ← secondByteInvalid_iff]
  exact and_iff_left (by simp)

end Sys2Proof
end

section
/-! SUPPORT. Operand classes, and the operation codes that Table 2-10 (a) lists for each
(spec/30_encoding.md R133, R141). -/

namespace Sys2Proof

variable {sz : Size} {ea : Ea} {op : Byte}

/-! ### Operand classes -/

theorem Ea.isPlace_of_isMemory (h : ea.isMemory = true) : ea.isPlace = true := by
  revert h
  unfold Ea.isMemory Ea.isPlace
  cases ea.cls <;> simp

theorem Ea.fits_of_isPlace (sz : Size) (h : ea.isPlace = true) : ea.fits sz = true := by
  revert h
  cases ea <;> simp [Ea.isPlace, Ea.cls, Ea.fits]

theorem Ea.fits_of_isMemory (sz : Size) (h : ea.isMemory = true) : ea.fits sz = true :=
  Ea.fits_of_isPlace sz (Ea.isPlace_of_isMemory h)

theorem Ea.eq_reg_of_cls (h : ea.cls = .register) : ∃ r, ea = .reg r := by
  revert h
  cases ea <;> simp [Ea.cls]

/-- What is left of the EA fields where a decoder has taken the registers of either size. -/
theorem Ea.cls_ne_register (hbyte : ∀ r, ea = .reg r → sz = .byte → False)
    (hword : ∀ r, ea = .reg r → sz = .word → False) : ea.cls ≠ .register := by
  intro h
  obtain ⟨r, hr⟩ := Ea.eq_reg_of_cls h
  cases sz
  · exact hbyte r hr rfl
  · exact hword r hr rfl

theorem Ea.isMemory_eq_isPlace (h : ea.cls ≠ .register) : ea.isMemory = ea.isPlace := by
  revert h
  unfold Ea.isMemory Ea.isPlace
  cases ea.cls <;> simp

/-! ### The codes that are invalid after an EA field -/

theorem opInvalid_eq_not_isPlace
    (h : op.toNat = 0 ∨ (0x08 ≤ op.toNat ∧ op.toNat ≤ 0x09) ∨ (0x0C ≤ op.toNat ∧ op.toNat ≤ 0x0D) ∨
      (0x13 ≤ op.toNat ∧ op.toNat ≤ 0x1F) ∨ (0x78 ≤ op.toNat ∧ op.toNat ≤ 0x7F) ∨
      (0x90 ≤ op.toNat ∧ op.toNat ≤ 0x9F) ∨ 0xC0 ≤ op.toNat) :
    opInvalid ea.cls op = !ea.isPlace := by
  rw [Bool.eq_iff_iff, Ea.isPlace]
  cases ea.cls <;> simp only [opInvalid, Bool.or_eq_true, inRange_iff] <;> simp <;> omega

theorem opInvalid_eq_not_isMemory (h : 0x04 ≤ op.toNat ∧ op.toNat ≤ 0x07) :
    opInvalid ea.cls op = !ea.isMemory := by
  rw [Bool.eq_iff_iff, Ea.isMemory]
  cases ea.cls <;> simp only [opInvalid, Bool.or_eq_true, inRange_iff] <;> simp <;> omega

theorem opInvalid_eq_not_register (h : 0x10 ≤ op.toNat ∧ op.toNat ≤ 0x12) :
    opInvalid ea.cls op = decide (ea.cls ≠ .register) := by
  rw [Bool.eq_iff_iff]
  cases ea.cls <;> simp only [opInvalid, Bool.or_eq_true, inRange_iff] <;> simp <;> omega

/-- Invalid after every class. -/
theorem opInvalid_eq_true
    (h : (0x01 ≤ op.toNat ∧ op.toNat ≤ 0x03) ∨ (0x0A ≤ op.toNat ∧ op.toNat ≤ 0x0B) ∨
      (0x0E ≤ op.toNat ∧ op.toNat ≤ 0x0F)) :
    opInvalid ea.cls op = true := by
  cases ea.cls <;> simp only [opInvalid, Bool.or_eq_true, inRange_iff] <;> omega

/-- Invalid after no class. -/
theorem opInvalid_eq_false
    (h : (0x20 ≤ op.toNat ∧ op.toNat ≤ 0x77) ∨ (0x80 ≤ op.toNat ∧ op.toNat ≤ 0x8F) ∨
      (0xA0 ≤ op.toNat ∧ op.toNat ≤ 0xBF)) :
    opInvalid ea.cls op = false := by
  rw [Bool.eq_false_iff]
  cases ea.cls <;> simp only [opInvalid, ne_eq, Bool.or_eq_true, inRange_iff] <;> omega

theorem wf_prefixed_iff :
    (UndefOp.prefixed op).wf ea.cls = true ↔ ea.isPlace = true ∧ secondByteInvalid op = true := by
  unfold UndefOp.wf Ea.isPlace
  cases ea.cls <;> simp

/-! ### An EA field and an invalid code, as one instruction -/

theorem wf_undefined (sz : Size) (ea : Ea) (t : UndefOp) : (ea.undefined sz t).wf = t.wf ea.cls := by
  cases ea <;> rfl

theorem encode_undefined (sz : Size) (ea : Ea) (t : UndefOp) :
    encode (ea.undefined sz t) = encodeEa sz ea ++ t.encode := by
  cases ea <;> rfl

end Sys2Proof
end

section
/-! SUPPORT. Decoding what the encoder writes: the general format, an EA field and the operation code after it
(spec/30_encoding.md R125, R133, R136). -/

namespace Sys2Proof

variable {sz : Size} {ea : Ea} {i : Instr} {op : Byte}

/-- The decoder reads the instruction back, whatever bytes follow. -/
def Instr.RoundTrips (i : Instr) : Prop :=
  ∀ rest : List Byte, decodeBytes (encode i ++ rest) = .instr i (encode i).length

/-! ### The EA field, and the four tables of codes after it -/

theorem decodeBytes_encodeEa (hf : ea.fits sz = true) (tail : List Byte) :
    decodeBytes (encodeEa sz ea ++ tail) =
      decodeGeneral sz ea (encodeEa sz ea).length (encodeEa sz ea ++ tail) := by
  cases ea with
  | reg | preDec | postInc | ind | disp8 | disp16 => simp [encodeEa, decodeBytes]
  | abs8 | abs16 =>
    cases sz <;>
      simp [encodeEa, decodeBytes, decodeFirst0, decodeFirst1, low4_toNat, opSizeReg_toNat, Size.toBit, Reg.toBits]
  | imm8 =>
    cases sz with
    | byte => simp [encodeEa, decodeBytes, decodeFirst0, low4_toNat]
    | word => cases hf
  | imm16 =>
    cases sz with
    | byte => cases hf
    | word => simp [encodeEa, decodeBytes, decodeFirst0, low4_toNat]

theorem decodeBytes_prefixed (hp : ea.isPlace = true) (op : Byte) (rest : List Byte) :
    decodeBytes (encodeEa sz ea ++ 0x00 :: op :: rest) = decodePrefixed sz ea op ((encodeEa sz ea).length + 1) := by
  rw [decodeBytes_encodeEa (Ea.fits_of_isPlace sz hp)]
  simp [decodeGeneral, hp]

theorem decodeBytes_op0 (hf : ea.fits sz = true) (hop : op.toNat / 16 = 0) (h0 : ¬(op = 0 ∧ ea.isPlace = true))
    (rest : List Byte) :
    decodeBytes (encodeEa sz ea ++ op :: rest) =
      decodeOp0 sz ea op (encodeEa sz ea).length (encodeEa sz ea ++ op :: rest) := by
  rw [decodeBytes_encodeEa hf]
  simp only [decodeGeneral, byteAt_append_length, byteAt_cons_zero, upper4_toNat, hop, if_neg h0]

theorem decodeBytes_op1 (hf : ea.fits sz = true) (hop : op.toNat / 16 = 1) (rest : List Byte) :
    decodeBytes (encodeEa sz ea ++ op :: rest) = decodeOp1 sz ea op (encodeEa sz ea).length := by
  rw [decodeBytes_encodeEa hf]
  simp only [decodeGeneral, byteAt_append_length, byteAt_cons_zero, upper4_toNat, hop]

theorem decodeBytes_opHigh (hf : ea.fits sz = true) (hop : 0x20 ≤ op.toNat) (rest : List Byte) :
    decodeBytes (encodeEa sz ea ++ op :: rest) = decodeOpHigh sz ea op (encodeEa sz ea).length := by
  rw [decodeBytes_encodeEa hf]
  simp only [decodeGeneral, byteAt_append_length, byteAt_cons_zero, upper4_toNat]
  split
  · omega
  · omega
  · rfl

/-! ### Instructions that end with their operation code -/

theorem roundTrips_of_op0 (hp : ea.isPlace = true) (he : encode i = encodeEa sz ea ++ [op])
    (hop : op ≠ 0 ∧ op.toNat / 16 = 0) (hd : ∀ k bs, decodeOp0 sz ea op k bs = .instr i (k + 1)) : i.RoundTrips := by
  intro rest
  rw [he, List.append_assoc, List.singleton_append,
    decodeBytes_op0 (Ea.fits_of_isPlace sz hp) hop.2 (fun h => hop.1 h.1), hd, List.length_append,
    List.length_singleton]

theorem roundTrips_of_op1 (hp : ea.isPlace = true) (he : encode i = encodeEa sz ea ++ [op]) (hop : op.toNat / 16 = 1)
    (hd : ∀ k, decodeOp1 sz ea op k = .instr i (k + 1)) : i.RoundTrips := by
  intro rest
  rw [he, List.append_assoc, List.singleton_append, decodeBytes_op1 (Ea.fits_of_isPlace sz hp) hop, hd,
    List.length_append, List.length_singleton]

theorem roundTrips_of_opHigh (hf : ea.fits sz = true) (he : encode i = encodeEa sz ea ++ [op])
    (hop : 0x20 ≤ op.toNat) (hd : ∀ k, decodeOpHigh sz ea op k = .instr i (k + 1)) : i.RoundTrips := by
  intro rest
  rw [he, List.append_assoc, List.singleton_append, decodeBytes_opHigh hf hop, hd, List.length_append,
    List.length_singleton]

theorem roundTrips_of_opReg {c : BitVec 5} {f : BitVec 3} (hf : ea.fits sz = true)
    (he : encode i = encodeEa sz ea ++ [opReg c f]) (hc : 4 ≤ c.toNat)
    (hd : ∀ k, decodeOpHigh sz ea (opReg c f) k = .instr i (k + 1)) : i.RoundTrips :=
  roundTrips_of_opHigh hf he (by rw [opReg_toNat]; omega) hd

theorem roundTrips_of_opNibble {c n : BitVec 4} (hp : ea.isPlace = true)
    (he : encode i = encodeEa sz ea ++ [opNibble c n]) (hc : 2 ≤ c.toNat)
    (hd : ∀ k, decodeOpHigh sz ea (opNibble c n) k = .instr i (k + 1)) : i.RoundTrips :=
  roundTrips_of_opHigh (Ea.fits_of_isPlace sz hp) he (by rw [opNibble_toNat]; omega) hd

theorem roundTrips_of_prefixed (hp : ea.isPlace = true) (he : encode i = encodeEa sz ea ++ [0x00, op])
    (hd : ∀ k, decodePrefixed sz ea op k = .instr i (k + 1)) : i.RoundTrips := by
  intro rest
  rw [he, List.append_assoc, List.cons_append, List.singleton_append, decodeBytes_prefixed hp, hd, List.length_append]
  rfl

/-! ### Immediate data after the operation code -/

theorem roundTrips_of_imm8 {imm : Byte} (hm : ea.isMemory = true) (he : encode i = encodeEa .byte ea ++ [op, imm])
    (hop : op ≠ 0 ∧ op.toNat / 16 = 0)
    (hd : ∀ k bs, byteAt bs (k + 1) = imm → decodeOp0 .byte ea op k bs = .instr i (k + 2)) : i.RoundTrips := by
  intro rest
  rw [he, List.append_assoc, List.cons_append, List.singleton_append,
    decodeBytes_op0 (Ea.fits_of_isMemory .byte hm) hop.2 (fun h => hop.1 h.1), hd _ _ (by simp), List.length_append]
  rfl

theorem roundTrips_of_imm16 {imm : Word} (hm : ea.isMemory = true)
    (he : encode i = encodeEa .word ea ++ op :: wordBytes imm) (hop : op ≠ 0 ∧ op.toNat / 16 = 0)
    (hd : ∀ k bs, wordAt bs (k + 1) = imm → decodeOp0 .word ea op k bs = .instr i (k + 3)) : i.RoundTrips := by
  intro rest
  rw [he, List.append_assoc, List.cons_append,
    decodeBytes_op0 (Ea.fits_of_isMemory .word hm) hop.2 (fun h => hop.1 h.1), hd _ _ (by simp), List.length_append]
  rfl

/-! ### Invalid codes (R141, R143) -/

section
variable (h : opInvalid ea.cls op = true)
include h

theorem decodeOp0_of_opInvalid (hop : op.toNat / 16 = 0) (k : Nat) (bs : List Byte) :
    decodeOp0 sz ea op k bs = .instr (ea.undefined sz (.op op)) (k + 1) := by
  have notMemory (hn : 0x04 ≤ op.toNat ∧ op.toNat ≤ 0x07) : ea.isMemory = false := by
    simpa [opInvalid_eq_not_isMemory hn] using h
  have notPlace (hn : (0x08 ≤ op.toNat ∧ op.toNat ≤ 0x09) ∨ (0x0C ≤ op.toNat ∧ op.toNat ≤ 0x0D)) :
      ea.isPlace = false := by
    simpa [opInvalid_eq_not_isPlace (ea := ea) (op := op) (by omega)] using h
  simp only [decodeOp0, low4_toNat]
  split
  case h_1 | h_2 | h_3 | h_4 => rw [notMemory (by omega), if_neg Bool.false_ne_true]
  case h_5 | h_6 | h_7 | h_8 => rw [notPlace (by omega), if_neg Bool.false_ne_true]
  case h_9 => rfl

theorem decodeOp1_of_opInvalid (hop : op.toNat / 16 = 1) (k : Nat) :
    decodeOp1 sz ea op k = .instr (ea.undefined sz (.op op)) (k + 1) := by
  have notRegister (hn : 0x10 ≤ op.toNat ∧ op.toNat ≤ 0x12) : ea.cls ≠ .register := by
    simpa [opInvalid_eq_not_register hn] using h
  have notPlace (hn : 0x13 ≤ op.toNat) : ea.isPlace = false := by
    simpa [opInvalid_eq_not_isPlace (ea := ea) (op := op) (by omega)] using h
  simp only [decodeOp1, low4_toNat]
  split
  case h_1 | h_2 | h_3 =>
    have := notRegister (by omega)
    split
    · exact absurd rfl this
    · exact absurd rfl this
    · rfl
  case h_16 =>
    simp only [imp_false] at *
    simp [notPlace (by omega)]
  all_goals simp [notPlace (by omega)]

theorem decodeOpHigh_of_opInvalid (hop : 0x20 ≤ op.toNat) (k : Nat) :
    decodeOpHigh sz ea op k = .instr (ea.undefined sz (.op op)) (k + 1) := by
  have listed : (0x78 ≤ op.toNat ∧ op.toNat ≤ 0x7F) ∨ (0x90 ≤ op.toNat ∧ op.toNat ≤ 0x9F) ∨ 0xC0 ≤ op.toNat := by
    by_contra hn
    rw [opInvalid_eq_false (by omega)] at h
    cases h
  have notPlace : ea.isPlace = false := by
    simpa [opInvalid_eq_not_isPlace (ea := ea) (op := op) (by omega)] using h
  simp only [decodeOpHigh, upper5_toNat, notPlace]
  split
  case h_15 =>
    split
    · cases notPlace
    · cases notPlace
    · rfl
  case h_12 | h_16 | h_21 | h_22 | h_23 | h_24 | h_25 | h_26 | h_27 => rfl
  all_goals omega

end

theorem decodePrefixed_of_secondByteInvalid (h : secondByteInvalid op = true) (k : Nat) :
    decodePrefixed sz ea op k = .instr (ea.undefined sz (.prefixed op)) (k + 1) := by
  have listed := (secondByteInvalid_iff op).1 h
  simp only [decodePrefixed, upper5_toNat]
  split
  case h_5 => rw [if_pos h]
  all_goals omega

theorem roundTrips_undefined {t : UndefOp} (hf : ea.fits sz = true) (ht : t.wf ea.cls = true) :
    (ea.undefined sz t).RoundTrips := by
  have he := encode_undefined sz ea t
  cases t with
  | op b =>
    intro rest
    rw [he, List.append_assoc, UndefOp.encode, List.singleton_append, List.length_append, List.length_singleton]
    have rows : b.toNat / 16 = 0 ∨ b.toNat / 16 = 1 ∨ 0x20 ≤ b.toNat := by omega
    rcases rows with hb | hb | hb
    · rw [decodeBytes_op0 hf hb, decodeOp0_of_opInvalid ht hb]
      rintro ⟨rfl, hp⟩
      rw [UndefOp.wf, opInvalid_eq_not_isPlace (.inl rfl), hp] at ht
      cases ht
    · rw [decodeBytes_op1 hf hb, decodeOp1_of_opInvalid ht hb]
    · rw [decodeBytes_opHigh hf hb, decodeOpHigh_of_opInvalid ht hb]
  | prefixed b =>
    obtain ⟨hp, hb⟩ := wf_prefixed_iff.1 ht
    exact roundTrips_of_prefixed hp he (decodePrefixed_of_secondByteInvalid hb)

/-! ### Bit numbers in the operation code (R133) -/

theorem upper5_opNibble (c n : BitVec 4) : (opNibble c n).extractLsb' 3 5 = c ++ n.extractLsb' 3 1 := by
  apply BitVec.eq_of_toNat_eq
  rw [upper5_toNat, opNibble_toNat, append_toNat, BitVec.extractLsb'_toNat, Nat.shiftRight_eq_div_pow]
  omega

/-! ### Control registers (spec/44_system_control.md R338) -/

/-- The immediate EA that carries a value for a control register. -/
def ControlReg.immediateEa (cr : ControlReg) (imm : Word) : Ea :=
  match cr.size with
  | .byte => .imm8 (loByte imm)
  | .word => .imm16 imm

theorem encodeControlImm_eq (cr : ControlReg) (imm : Word) :
    encodeControlImm cr imm = encodeEa cr.size (cr.immediateEa imm) := by
  cases cr <;> rfl

theorem fits_immediateEa (cr : ControlReg) (imm : Word) : (cr.immediateEa imm).fits cr.size = true := by
  cases cr <;> rfl

theorem isPlace_immediateEa (cr : ControlReg) (imm : Word) : (cr.immediateEa imm).isPlace = false := by
  cases cr <;> rfl

theorem setWidth_loByte {w : Word} (h : w.toNat < 256) : (loByte w).setWidth 16 = w := by
  apply BitVec.eq_of_toNat_eq
  rw [BitVec.toNat_setWidth, loByte, BitVec.extractLsb'_toNat, Nat.shiftRight_zero]
  omega

theorem immediate_immediateEa {cr : ControlReg} {imm : Word} (h : cr.immFits imm = true) :
    (cr.immediateEa imm).immediate = imm := by
  revert h
  unfold ControlReg.immFits ControlReg.immediateEa
  cases cr.size with
  | byte => simpa [Ea.immediate] using setWidth_loByte
  | word => simp [Ea.immediate]

theorem loByte_setWidth (v : Byte) : loByte (v.setWidth 16) = v := by
  apply BitVec.eq_of_toNat_eq
  rw [loByte, BitVec.extractLsb'_toNat, BitVec.toNat_setWidth, Nat.shiftRight_zero]
  omega

theorem immediateEa_immediate {cr : ControlReg} (hf : ea.fits cr.size = true) (hp : ea.isPlace = false) :
    cr.immFits ea.immediate = true ∧ cr.immediateEa ea.immediate = ea := by
  unfold ControlReg.immFits ControlReg.immediateEa
  cases ea
  case imm8 v =>
    cases hs : cr.size
    · have small : (v.setWidth 16).toNat < 256 := by rw [BitVec.toNat_setWidth]; omega
      exact ⟨decide_eq_true small, congrArg Ea.imm8 (loByte_setWidth v)⟩
    · simp [hs, Ea.fits] at hf
  case imm16 w =>
    cases hs : cr.size
    · simp [hs, Ea.fits] at hf
    · exact ⟨rfl, rfl⟩
  all_goals cases hp

end Sys2Proof
end

section
/-! SUPPORT. Decoding what the encoder writes, for every instruction (spec/30_encoding.md R132 to R138). -/

namespace Sys2Proof

variable {sz : Size} {ea : Ea} {i : Instr} {op : Byte}

/-! ### Operation codes with an operand class of their own -/

theorem decodeOpHigh_movGStore (hm : ea.isMemory = true) (rs : Reg) (k : Nat) :
    decodeOpHigh sz ea (opReg 0x12 rs.toBits) k = .instr (.movGStore sz rs ea) (k + 1) := by
  have hp := Ea.isPlace_of_isMemory hm
  cases ea
  case reg | imm8 | imm16 => cases hm
  all_goals simp [decodeOpHigh, hp]

theorem decodePrefixed_memory (hm : ea.isMemory = true) (r : Reg) (k : Nat) :
    decodePrefixed .byte ea (opReg 0x10 r.toBits) k = .instr (.movfpe ea r) (k + 1) ∧
      decodePrefixed .byte ea (opReg 0x12 r.toBits) k = .instr (.movtpe r ea) (k + 1) := by
  have hc : ea.cls = .memory := by
    revert hm
    unfold Ea.isMemory
    cases ea.cls <;> simp
  simp [decodePrefixed, hc]

theorem roundTrips_controlImm {imm : Word} {cr : ControlReg} {c : BitVec 5} (h : cr.immFits imm = true)
    (he : encode i = encodeControlImm cr imm ++ [opReg c cr.toBits]) (hc : 4 ≤ c.toNat)
    (hd : ∀ (ea : Ea) (k : Nat), ea.isPlace = false → ea.immediate = imm →
      decodeOpHigh cr.size ea (opReg c cr.toBits) k = .instr i (k + 1)) : i.RoundTrips := by
  rw [encodeControlImm_eq] at he
  exact roundTrips_of_opReg (fits_immediateEa cr imm) he hc fun k =>
    hd _ k (isPlace_immediateEa cr imm) (immediate_immediateEa h)

/-! ### Every instruction -/

theorem roundTrips_of_wf (i : Instr) (h : i.wf = true) : i.RoundTrips := by
  cases i
  case eaRn sz r t => exact roundTrips_undefined (sz := sz) (ea := .reg r) rfl h
  case eaPreDec sz r t => exact roundTrips_undefined (sz := sz) (ea := .preDec r) rfl h
  case eaPostInc sz r t => exact roundTrips_undefined (sz := sz) (ea := .postInc r) rfl h
  case eaInd sz r t => exact roundTrips_undefined (sz := sz) (ea := .ind r) rfl h
  case eaDisp8 sz r d t => exact roundTrips_undefined (sz := sz) (ea := .disp8 r d) rfl h
  case eaDisp16 sz r d t => exact roundTrips_undefined (sz := sz) (ea := .disp16 r d) rfl h
  case eaAbs8 sz a t => exact roundTrips_undefined (sz := sz) (ea := .abs8 a) rfl h
  case eaAbs16 sz a t => exact roundTrips_undefined (sz := sz) (ea := .abs16 a) rfl h
  case eaImm8 v t => exact roundTrips_undefined (sz := .byte) (ea := .imm8 v) rfl h
  case eaImm16 v t => exact roundTrips_undefined (sz := .word) (ea := .imm16 v) rfl h
  case cmpGImm8 ea imm | movGImm8 ea imm =>
    have hm : ea.isMemory = true := h
    exact roundTrips_of_imm8 hm rfl (by decide) fun k bs hb => by simp [decodeOp0, low4_toNat, hm, hb]
  case cmpGImm16 ea imm | movGImm16 ea imm =>
    have hm : ea.isMemory = true := h
    exact roundTrips_of_imm16 hm rfl (by decide) fun k bs hb => by simp [decodeOp0, low4_toNat, hm, hb]
  case addQ1 sz ea | addQ2 sz ea | addQm1 sz ea | addQm2 sz ea =>
    have hp : ea.isPlace = true := h
    exact roundTrips_of_op0 hp rfl (by decide) fun k bs => by simp [decodeOp0, low4_toNat, hp]
  case swap rd | exts rd | extu rd =>
    exact roundTrips_of_op1 (ea := .reg rd) rfl rfl (by decide) fun k => by simp [decodeOp1, low4_toNat]
  case clr sz ea | neg sz ea | notG sz ea | tst sz ea | shal sz ea | shar sz ea | shll sz ea | shlr sz ea | rotl sz ea
      | rotr sz ea | rotxl sz ea | rotxr sz ea =>
    have hp : ea.isPlace = true := h
    exact roundTrips_of_op1 hp rfl (by decide) fun k => by simp [decodeOp1, low4_toNat, hp]
  case tas ea =>
    have hp : ea.isPlace = true := h
    exact roundTrips_of_op1 hp rfl (by decide) fun k => by simp [decodeOp1, low4_toNat, hp]
  case addG sz ea rd | adds sz ea rd | sub sz ea rd | subs sz ea rd | addx sz ea rd | mulxu sz ea rd | subx sz ea rd
      | divxu sz ea rd | orG sz ea rd | andG sz ea rd | xorG sz ea rd | cmpG sz ea rd | movGLoad sz ea rd =>
    exact roundTrips_of_opReg h rfl (by decide) fun k => by simp [decodeOpHigh]
  case bsetR sz rs ea | bclrR sz rs ea | bnotR sz rs ea | btstR sz rs ea =>
    have hp : ea.isPlace = true := h
    exact roundTrips_of_opReg (Ea.fits_of_isPlace sz hp) rfl (by decide) fun k => by simp [decodeOpHigh, hp]
  case orc imm cr | andc imm cr | xorc imm cr =>
    exact roundTrips_controlImm h rfl (by decide) fun ea k hp hi => by simp [decodeOpHigh, withControlReg, hp, hi]
  case ldc ea cr =>
    exact roundTrips_of_opReg h rfl (by decide) fun k => by simp [decodeOpHigh, withControlReg]
  case stc cr ea =>
    have hp : ea.isPlace = true := h
    exact roundTrips_of_opReg (Ea.fits_of_isPlace cr.size hp) rfl (by decide) fun k => by
      simp [decodeOpHigh, withControlReg, hp]
  case xch rs rd =>
    exact roundTrips_of_opReg (ea := .reg rs) rfl rfl (by decide) fun k => by simp [decodeOpHigh]
  case movGStore sz rs ea =>
    exact roundTrips_of_opReg (Ea.fits_of_isMemory sz h) rfl (by decide) (decodeOpHigh_movGStore h rs)
  case bsetI sz n ea | bclrI sz n ea | bnotI sz n ea | btstI sz n ea =>
    have hp : ea.isPlace = true := h
    exact roundTrips_of_opNibble hp rfl (by decide) fun k => by
      rcases BitVec.eq_zero_or_eq_one (n.extractLsb' 3 1) with hn | hn <;> simp [decodeOpHigh, upper5_opNibble, hn, hp]
  case movfpe ea rd =>
    exact roundTrips_of_prefixed (Ea.isPlace_of_isMemory h) rfl fun k => (decodePrefixed_memory h rd k).1
  case movtpe rs ea =>
    exact roundTrips_of_prefixed (Ea.isPlace_of_isMemory h) rfl fun k => (decodePrefixed_memory h rs k).2
  case dadd rs rd | dsub rs rd =>
    exact roundTrips_of_prefixed (ea := .reg rs) rfl rfl fun k => by simp [decodePrefixed]
  case scbF r d | scbNE r d | scbEQ r d =>
    intro rest
    simp [encode, decodeBytes, decodeFirst0, low4_toNat, decodeScb]
  case prtd8 | prtd16 | prts | pjmpReg | pjsrReg | jmpInd | jsrInd | jmpDisp8 | jsrDisp8 | jmpDisp16 | jsrDisp16 =>
    intro rest
    simp [encode, decodeBytes, decodeFirst1, low4_toNat, decodePage]
  case cmpE | cmpI | movE | movI | movL | movS | movFLoad | movFStore | bcc8 | bcc16 =>
    intro rest
    simp [encode, decodeBytes]
  case invalidSecond g b2 =>
    intro rest
    exact (decodeBytes_eq_invalidSecond_iff g b2 rest).2 h
  all_goals
    intro rest
    simp [encode, decodeBytes, decodeFirst0, decodeFirst1, low4_toNat]

/-- Settles O1: every instruction makes its round trip, and the bytes it was encoded in are enough to decode. -/
theorem decodeOfEncode : Obligations.DecodeOfEncode := by
  intro i rest h
  exact decode_eq_instr_iff.2 ⟨roundTrips_of_wf i h rest, by simp⟩

end Sys2Proof
end

section
/-! SUPPORT. Encoding what was decoded: the general format (spec/30_encoding.md R125, R133, R136, R141, R145). -/

namespace Sys2Proof

variable {bs : List Byte} {sz : Size} {ea : Ea} {i : Instr} {op : Byte} {k : Nat}

/-- What the decoder answers is an instruction that some code encodes, and its code is the bytes that were read. Reads past
the end give zeros here, so that no lemma about a part of the decoder speaks of lengths; `decode` turns those answers
down at the end. -/
def Decoded.Reencodes (bs : List Byte) : Decoded → Prop
  | .instr i n => i.wf = true ∧ encode i = readBytes bs n
  | .rejected _ _ => True

theorem reencodes_rejected (e : DecodeError) (n : Nat) : (Decoded.rejected e n).Reencodes bs := trivial

theorem readBytes_succ_succ (bs : List Byte) (n : Nat) :
    readBytes bs (n + 2) = readBytes bs n ++ [byteAt bs n, byteAt bs (n + 1)] := by
  rw [readBytes_succ, readBytes_succ, List.append_assoc, List.singleton_append]

theorem readBytes_wordAt (bs : List Byte) (n : Nat) :
    readBytes bs (n + 3) = readBytes bs n ++ byteAt bs n :: wordBytes (wordAt bs (n + 1)) := by
  rw [readBytes_succ, readBytes_succ_succ, wordBytes_wordAt, List.append_assoc]
  rfl

/-! ### Codes after an EA field -/

section
variable (hk : encodeEa sz ea = readBytes bs k)
include hk

theorem reencodes_of_op {c : Byte} (hw : i.wf = true) (he : encode i = encodeEa sz ea ++ [c]) (hc : c = op)
    (hop : op = byteAt bs k) : (Decoded.instr i (k + 1)).Reencodes bs :=
  ⟨hw, by rw [he, hk, hc, hop, readBytes_succ]⟩

theorem reencodes_of_two {c b2 : Byte} (hw : i.wf = true) (he : encode i = encodeEa sz ea ++ [c, b2]) (hc : c = op)
    (hop : op = byteAt bs k) (hb2 : b2 = byteAt bs (k + 1)) : (Decoded.instr i (k + 2)).Reencodes bs :=
  ⟨hw, by rw [he, hk, hc, hop, hb2, readBytes_succ_succ]⟩

theorem reencodes_of_imm16 {c : Byte} (hw : i.wf = true)
    (he : encode i = encodeEa sz ea ++ c :: wordBytes (wordAt bs (k + 1))) (hc : c = op) (hop : op = byteAt bs k) :
    (Decoded.instr i (k + 3)).Reencodes bs :=
  ⟨hw, by rw [he, hk, hc, hop, readBytes_wordAt]⟩

theorem reencodes_undefined (hop : op = byteAt bs k) (h : opInvalid ea.cls op = true) :
    (Decoded.instr (ea.undefined sz (.op op)) (k + 1)).Reencodes bs :=
  reencodes_of_op hk (wf_undefined sz ea (.op op) ▸ h) (encode_undefined sz ea (.op op)) rfl hop

theorem reencodes_place {c : Byte} (hw : i.wf = ea.isPlace) (he : encode i = encodeEa sz ea ++ [c]) (hc : c = op)
    (hop : op = byteAt bs k) (hv : opInvalid ea.cls op = !ea.isPlace) :
    (if ea.isPlace = true then Decoded.instr i (k + 1)
      else .instr (ea.undefined sz (.op op)) (k + 1)).Reencodes bs := by
  split_ifs with hp
  · exact reencodes_of_op hk (hw.trans hp) he hc hop
  · exact reencodes_undefined hk hop (by rw [hv]; simpa using hp)

theorem reencodes_decodePrefixed (hp : ea.isPlace = true) (h0 : byteAt bs k = 0) (hop : op = byteAt bs (k + 1)) :
    (decodePrefixed sz ea op (k + 1)).Reencodes bs := by
  have code {i : Instr} {b : Byte} (hw : i.wf = true) (he : encode i = encodeEa sz ea ++ [0x00, b]) (hb : b = op) :
      (Decoded.instr i (k + 2)).Reencodes bs :=
    reencodes_of_two hk hw he rfl h0.symm (hb.trans hop)
  have memory (hc : ea.cls = .memory) : ea.isMemory = true := by rw [Ea.isMemory, hc]
  simp only [decodePrefixed, upper5_toNat]
  split
  case h_1 h | h_2 h =>
    split
    next hc => exact code (memory hc) rfl (opReg_regOf h)
    all_goals exact reencodes_rejected _ _
  case h_3 h | h_4 h =>
    split
    · exact code rfl rfl (opReg_regOf h)
    all_goals exact reencodes_rejected _ _
  case h_5 =>
    split
    next h =>
      exact code (wf_undefined sz ea _ ▸ wf_prefixed_iff.2 ⟨hp, h⟩) (encode_undefined sz ea (.prefixed op)) rfl
    next => exact reencodes_rejected _ _

theorem reencodes_decodeOp0 (hop : op = byteAt bs k) (hn : op.toNat / 16 = 0) (h0 : ¬(op = 0 ∧ ea.isPlace = true)) :
    (decodeOp0 sz ea op k bs).Reencodes bs := by
  have code_eq {c : Byte} (hc : c.toNat / 16 = 0) (h : op.toNat % 16 = c.toNat) : c = op :=
    BitVec.eq_of_toNat_eq (by omega)
  simp only [decodeOp0, low4_toNat]
  split
  case h_1 h | h_3 h =>
    split_ifs with hm
    · split
      · exact reencodes_of_two hk hm rfl (code_eq (by decide) h) hop rfl
      · exact reencodes_rejected _ _
    · exact reencodes_undefined hk hop (by rw [opInvalid_eq_not_isMemory (by omega)]; simpa using hm)
  case h_2 h | h_4 h =>
    split_ifs with hm
    · split
      · exact reencodes_rejected _ _
      · exact reencodes_of_imm16 hk hm rfl (code_eq (by decide) h) hop
    · exact reencodes_undefined hk hop (by rw [opInvalid_eq_not_isMemory (by omega)]; simpa using hm)
  case h_5 h | h_6 h | h_7 h | h_8 h =>
    exact reencodes_place hk rfl rfl (code_eq (by decide) h) hop (opInvalid_eq_not_isPlace (by omega))
  case h_9 =>
    refine reencodes_undefined hk hop ?_
    simp only [imp_false] at *
    by_cases hz : op.toNat = 0
    · rw [opInvalid_eq_not_isPlace (.inl hz)]
      simpa [BitVec.eq_of_toNat_eq (y := 0#8) hz] using h0
    · exact opInvalid_eq_true (by omega)

theorem reencodes_decodeOp1 (hop : op = byteAt bs k) (hn : op.toNat / 16 = 1) :
    (decodeOp1 sz ea op k).Reencodes bs := by
  have code_eq {c : Byte} (hc : c.toNat / 16 = 1) (h : op.toNat % 16 = c.toNat % 16) : c = op :=
    BitVec.eq_of_toNat_eq (by omega)
  simp only [decodeOp1, low4_toNat]
  split
  case h_1 h | h_2 h | h_3 h =>
    split
    · exact reencodes_of_op hk rfl rfl (code_eq (by decide) h) hop
    · exact reencodes_rejected _ _
    next hbyte hword =>
      refine reencodes_undefined hk hop ?_
      rw [opInvalid_eq_not_register (by omega), decide_eq_true_iff]
      exact Ea.cls_ne_register hbyte hword
  case h_8 h =>
    cases hp : ea.isPlace
    · exact reencodes_undefined hk hop (by rw [opInvalid_eq_not_isPlace (by omega), hp]; rfl)
    · cases sz
      · exact reencodes_of_op hk hp rfl (code_eq (by decide) h) hop
      · exact reencodes_rejected _ _
  case h_16 =>
    simp only [imp_false] at *
    exact reencodes_place hk rfl rfl (code_eq (by decide) (by change _ = 15; omega)) hop
      (opInvalid_eq_not_isPlace (by omega))
  case h_4 h | h_5 h | h_6 h | h_7 h | h_9 h | h_10 h | h_11 h | h_12 h | h_13 h | h_14 h | h_15 h =>
    exact reencodes_place hk rfl rfl (code_eq (by decide) h) hop (opInvalid_eq_not_isPlace (by omega))

theorem reencodes_withControlReg {mk : ControlReg → Instr} {c : BitVec 5}
    (hw : ∀ cr, cr.size = sz → (mk cr).wf = true)
    (he : ∀ cr, cr.size = sz → encode (mk cr) = encodeEa sz ea ++ [opReg c cr.toBits]) (hc : op.toNat / 8 = c.toNat)
    (hop : op = byteAt bs k) :
    (withControlReg sz op (k + 1) mk).Reencodes bs := by
  unfold withControlReg
  split
  next cr h =>
    obtain ⟨hs, hb⟩ := ControlReg.of_ofBits h
    exact reencodes_of_op hk (hw cr hs) (he cr hs) (by rw [hb, opReg_of_upper5 hc]) hop
  next => exact reencodes_rejected _ _

theorem reencodes_decodeOpHigh (hf : ea.fits sz = true) (hop : op = byteAt bs k) (hn : 0x20 ≤ op.toNat) :
    (decodeOpHigh sz ea op k).Reencodes bs := by
  have reg {i : Instr} {c : BitVec 5} (hw : i.wf = true)
      (he : encode i = encodeEa sz ea ++ [opReg c (regOf op).toBits]) (h : op.toNat / 8 = c.toNat) :
      (Decoded.instr i (k + 1)).Reencodes bs :=
    reencodes_of_op hk hw he (opReg_regOf h) hop
  have controlImm (hp : ea.isPlace = false) (cr : ControlReg) (hs : cr.size = sz) :
      cr.immFits ea.immediate = true ∧ encodeControlImm cr ea.immediate = encodeEa sz ea := by
    subst hs
    obtain ⟨hi, he⟩ := immediateEa_immediate hf hp
    exact ⟨hi, by rw [encodeControlImm_eq, he]⟩
  simp only [decodeOpHigh, upper5_toNat]
  split
  case h_1 h | h_2 h | h_3 h | h_4 h | h_5 h | h_7 h | h_9 h | h_11 h | h_13 h | h_17 h | h_18 h | h_19 h | h_20 h =>
    exact reg hf rfl h
  case h_6 h | h_8 h | h_10 h =>
    split_ifs with hp
    · exact reg hp rfl h
    · have imm := controlImm (Bool.eq_false_iff.2 hp)
      exact reencodes_withControlReg hk (fun cr hs => (imm cr hs).1)
        (fun cr hs => congrArg (· ++ [opReg _ cr.toBits]) (imm cr hs).2) h hop
  case h_12 h =>
    exact reencodes_place hk rfl rfl (opReg_regOf h) hop (opInvalid_eq_not_isPlace (by omega))
  case h_14 h =>
    exact reencodes_withControlReg hk (c := 0x11) (fun cr hs => by subst hs; exact hf) (fun cr hs => by subst hs; rfl)
      h hop
  case h_15 h =>
    split
    · exact reg rfl rfl h
    · exact reencodes_rejected _ _
    next hword hbyte =>
      have hm := Ea.isMemory_eq_isPlace (Ea.cls_ne_register hbyte hword)
      exact reencodes_place hk hm rfl (opReg_regOf h) hop (opInvalid_eq_not_isPlace (by omega))
  case h_16 h =>
    split_ifs with hp
    · exact reencodes_withControlReg hk (c := 0x13) (fun _ _ => hp) (fun cr hs => by subst hs; rfl) h hop
    · exact reencodes_undefined hk hop (by rw [opInvalid_eq_not_isPlace (by omega)]; simpa using hp)
  case h_21 h | h_22 h =>
    exact reencodes_place hk rfl rfl (opNibble_low4 (by change _ = 0xC; omega)) hop
      (opInvalid_eq_not_isPlace (by omega))
  case h_23 h | h_24 h =>
    exact reencodes_place hk rfl rfl (opNibble_low4 (by change _ = 0xD; omega)) hop
      (opInvalid_eq_not_isPlace (by omega))
  case h_25 h | h_26 h =>
    exact reencodes_place hk rfl rfl (opNibble_low4 (by change _ = 0xE; omega)) hop
      (opInvalid_eq_not_isPlace (by omega))
  case h_27 =>
    simp only [imp_false] at *
    exact reencodes_place hk rfl rfl (opNibble_low4 (by change _ = 0xF; omega)) hop
      (opInvalid_eq_not_isPlace (by omega))

theorem reencodes_decodeGeneral (hf : ea.fits sz = true) : (decodeGeneral sz ea k bs).Reencodes bs := by
  simp only [decodeGeneral, upper4_toNat]
  split
  next hn =>
    split_ifs with h0
    · exact reencodes_decodePrefixed hk h0.2 h0.1 rfl
    · exact reencodes_decodeOp0 hk rfl hn h0
  next hn => exact reencodes_decodeOp1 hk rfl hn
  next =>
    simp only [imp_false] at *
    exact reencodes_decodeOpHigh hk hf rfl (by omega)

end

end Sys2Proof
end

section
/-! SUPPORT. Encoding what was decoded: the special format, and every list of bytes (spec/30_encoding.md R132 to R138,
R145). -/

namespace Sys2Proof

variable {bs : List Byte} {i : Instr} {n : Nat}

theorem readBytes_three (bs : List Byte) : byteAt bs 0 :: wordBytes (wordAt bs 1) = readBytes bs 3 := by
  rw [wordBytes_wordAt]; rfl

theorem readBytes_four (bs : List Byte) : byteAt bs 0 :: byteAt bs 1 :: wordBytes (wordAt bs 2) = readBytes bs 4 := by
  rw [wordBytes_wordAt]; rfl

theorem reencodes_of_first {c : Byte} {l : List Byte} (hw : i.wf = true) (he : encode i = c :: l)
    (hc : c = byteAt bs 0) (hl : byteAt bs 0 :: l = readBytes bs n) : (Decoded.instr i n).Reencodes bs :=
  ⟨hw, by rw [he, hc, hl]⟩

/-! ### Second bytes (R134, R135, R142) -/

section
variable {g : SecondGroup} (h0 : g.firstByte = byteAt bs 0)
include h0

theorem reencodes_of_second {c : Byte} {l : List Byte} (hw : i.wf = true) (he : encode i = g.firstByte :: c :: l)
    (hc : c = byteAt bs 1) (hl : byteAt bs 0 :: byteAt bs 1 :: l = readBytes bs n) :
    (Decoded.instr i n).Reencodes bs :=
  reencodes_of_first hw he h0 (by rw [hc, hl])

theorem reencodes_invalidSecond (h : secondByteInvalid (byteAt bs 1) = true) :
    (Decoded.instr (.invalidSecond g (byteAt bs 1)) 2).Reencodes bs :=
  reencodes_of_second h0 h rfl rfl rfl

theorem reencodes_decodeScb {mk : Reg → Byte → Instr} (hw : ∀ r d, (mk r d).wf = true)
    (he : ∀ r d, encode (mk r d) = [g.firstByte, opReg 0x17 r.toBits, d]) : (decodeScb g mk bs).Reencodes bs := by
  simp only [decodeScb]
  split_ifs with hr h
  · exact reencodes_of_second h0 (hw _ _) (he _ _) (opReg_regOf (by rw [← upper5_toNat, hr])) rfl
  · exact reencodes_invalidSecond h0 h
  · exact reencodes_rejected _ _

end

theorem reencodes_decodePage (h0 : SecondGroup.page.firstByte = byteAt bs 0) : (decodePage bs).Reencodes bs := by
  simp only [decodePage, upper5_toNat]
  split
  case h_1 h | h_2 h | h_3 h | h_4 h | h_5 h | h_6 h => exact reencodes_of_second h0 rfl rfl (opReg_regOf h) rfl
  case h_7 h | h_8 h => exact reencodes_of_second h0 rfl rfl (opReg_regOf h) (readBytes_four bs)
  case h_9 =>
    split_ifs with h14 h19 h1C h
    · exact reencodes_of_second h0 rfl rfl h14.symm rfl
    · exact reencodes_of_second h0 rfl rfl h19.symm rfl
    · exact reencodes_of_second h0 rfl rfl h1C.symm (readBytes_four bs)
    · exact reencodes_invalidSecond h0 h
    · exact reencodes_rejected _ _

/-! ### First bytes (R132) -/

theorem encodeEa_eq_readBytes {sz : Size} {ea : Ea} {c : Byte} {l : List Byte} {k : Nat} (he : encodeEa sz ea = c :: l)
    (hc : c = byteAt bs 0) (hl : byteAt bs 0 :: l = readBytes bs k) : encodeEa sz ea = readBytes bs k := by
  rw [he, hc, hl]

theorem reencodes_decodeFirst0 (hi : (byteAt bs 0).toNat / 16 = 0) :
    (decodeFirst0 (byteAt bs 0) bs).Reencodes bs := by
  have code_eq {c : Byte} (hc : c.toNat / 16 = 0) (lo : (byteAt bs 0).toNat % 16 = c.toNat) : c = byteAt bs 0 :=
    BitVec.eq_of_toNat_eq (by omega)
  simp only [decodeFirst0, low4_toNat]
  split
  case h_1 lo | h_3 lo | h_10 lo | h_11 lo | h_12 lo | h_15 lo =>
    exact reencodes_of_first rfl rfl (code_eq (by decide) lo) rfl
  case h_4 lo => exact reencodes_of_first rfl rfl (code_eq (by decide) lo) (readBytes_four bs)
  case h_2 lo | h_7 lo | h_8 lo =>
    refine reencodes_decodeScb ?_ (fun _ _ => rfl) fun _ _ => rfl
    exact code_eq (by decide) lo
  case h_5 lo | h_6 lo | h_14 lo =>
    exact reencodes_decodeGeneral (encodeEa_eq_readBytes rfl (code_eq (by decide) lo) rfl) rfl
  case h_13 lo =>
    exact reencodes_decodeGeneral (encodeEa_eq_readBytes rfl (code_eq (by decide) lo) (readBytes_three bs)) rfl
  case h_9 lo =>
    split_ifs with h
    · have hv : opNibble 1 (low4 (byteAt bs 1)) = byteAt bs 1 := opNibble_low4 ((upper4_eq_one_iff _).1 h)
      exact ⟨rfl, by rw [encode, hv, code_eq (c := 0x08) (by decide) lo]; rfl⟩
    · exact reencodes_rejected _ _
  case h_16 =>
    simp only [imp_false] at *
    exact reencodes_of_first rfl rfl (code_eq (by decide) (by change _ = 15; omega)) rfl

theorem reencodes_decodeFirst1 (hi : (byteAt bs 0).toNat / 16 = 1) :
    (decodeFirst1 (byteAt bs 0) bs).Reencodes bs := by
  have code_eq {c : Byte} (hc : c.toNat / 16 = 1) (lo : (byteAt bs 0).toNat % 16 = c.toNat % 16) : c = byteAt bs 0 :=
    BitVec.eq_of_toNat_eq (by omega)
  simp only [decodeFirst1, low4_toNat]
  split
  case h_3 lo | h_5 lo | h_7 lo | h_8 lo | h_10 lo | h_11 lo | h_12 lo =>
    exact reencodes_of_first rfl rfl (code_eq (by decide) lo) rfl
  case h_1 lo | h_9 lo | h_13 lo | h_15 lo =>
    exact reencodes_of_first rfl rfl (code_eq (by decide) lo) (readBytes_three bs)
  case h_4 lo => exact reencodes_of_first rfl rfl (code_eq (by decide) lo) (readBytes_four bs)
  case h_2 lo => exact reencodes_decodePage (code_eq (by decide) lo)
  case h_6 lo | h_14 lo =>
    exact reencodes_decodeGeneral (encodeEa_eq_readBytes rfl (code_eq (by decide) lo) (readBytes_three bs)) rfl
  case h_16 =>
    simp only [imp_false] at *
    exact reencodes_of_first rfl rfl (code_eq (by decide) (by change _ = 15; omega)) (readBytes_three bs)

theorem reencodes_decodeBytes (bs : List Byte) : (decodeBytes bs).Reencodes bs := by
  simp only [decodeBytes, upper4_toNat]
  split
  case h_1 hi => exact reencodes_decodeFirst0 hi
  case h_2 hi => exact reencodes_decodeFirst1 hi
  case h_3 hi => exact reencodes_of_first rfl rfl (by rw [Cond.toBits_ofBits]; exact opNibble_low4 hi) rfl
  case h_4 hi =>
    exact reencodes_of_first rfl rfl (by rw [Cond.toBits_ofBits]; exact opNibble_low4 hi) (readBytes_three bs)
  case h_5 hi | h_6 hi =>
    split
    next hs => exact reencodes_of_first rfl rfl (hs ▸ opSizeReg_sizeOf3_regOf hi) rfl
    next hs => exact reencodes_of_first rfl rfl (hs ▸ opSizeReg_sizeOf3_regOf hi) (readBytes_three bs)
  case h_7 hi | h_8 hi | h_9 hi | h_10 hi =>
    exact reencodes_of_first rfl rfl (opSizeReg_sizeOf3_regOf hi) rfl
  case h_11 hi | h_12 hi | h_13 hi | h_14 hi | h_15 hi =>
    exact reencodes_decodeGeneral (encodeEa_eq_readBytes rfl (opSizeReg_sizeOf3_regOf hi) rfl) rfl
  case h_16 =>
    simp only [imp_false] at *
    exact reencodes_decodeGeneral
      (encodeEa_eq_readBytes rfl (opSizeReg_sizeOf3_regOf (by change _ = 15; omega)) (readBytes_three bs)) rfl

/-- Settles O2: what is read is encoded back, and no read went past the end. -/
theorem encodeOfDecode : Obligations.EncodeOfDecode := by
  intro bs i n h
  obtain ⟨hd, hn⟩ := decode_eq_instr_iff.1 h
  have hr := reencodes_decodeBytes bs
  rw [hd] at hr
  obtain ⟨hw, he⟩ := hr
  exact ⟨hw, hn, he.trans (readBytes_eq_take hn)⟩

end Sys2Proof
end

section
/-! SUPPORT. Words the spec prints, as what the encoder writes for their instructions (spec/30_encoding.md R125 to R138). -/

namespace Sys2Proof

/-- The words an instruction is encoded as decode to it. -/
theorem decode_of_encode_eq {i : Instr} {bs : List Byte} (hw : i.wf = true) (he : encode i = bs) :
    decode bs = .instr i bs.length := by
  have h := decodeOfEncode i [] hw
  rwa [List.append_nil, he] at h

/-- Settles O3: each of the printed words is what the encoder writes for a well-formed instruction. -/
theorem printedWords : Obligations.PrintedWords :=
  ⟨decode_of_encode_eq rfl rfl, decode_of_encode_eq rfl rfl, decode_of_encode_eq rfl rfl, decode_of_encode_eq rfl rfl,
    decode_of_encode_eq rfl rfl, decode_of_encode_eq rfl rfl, decode_of_encode_eq rfl rfl, decode_of_encode_eq rfl rfl,
    decode_of_encode_eq rfl rfl⟩

end Sys2Proof
end

section
/-! SUPPORT. Immediate operands, and the short formats as the general format with the operand they imply
(spec/40_data_transfer.md R192, spec/30_encoding.md R153). -/

namespace Sys2Proof.Machine

/-! ### Immediate operands -/

@[simp] theorem readEa_imm8 (s : State) (b : Byte) : s.readEa .byte (.imm8 b) = (b, s) := by
  simp [State.readEa, State.resolve, State.preDecrement, State.locate, State.readLoc]

@[simp] theorem readEa_imm16 (s : State) (v : Word) : s.readEa .word (.imm16 v) = (v, s) := by
  simp [State.readEa, State.resolve, State.preDecrement, State.locate, State.readLoc]

theorem movGLoad_imm8 (b : Byte) (rd : Reg) (s : State) :
    exec (.movGLoad .byte (.imm8 b) rd) s = .next (s.moveToReg .byte rd b) := by
  rw [exec, execMovGLoad, movesReg, if_neg Bool.false_ne_true, readEa_imm8]
  rfl

theorem movGLoad_imm16 (v : Word) (rd : Reg) (s : State) :
    exec (.movGLoad .word (.imm16 v) rd) s = .next (s.moveToReg .word rd v) := by
  rw [exec, execMovGLoad, movesReg, if_neg Bool.false_ne_true, readEa_imm16]
  rfl

theorem binaryToReg_imm8 (b : Byte) (rd : Reg) (op : Byte → Byte → Flags → Byte × Flags) (s : State) :
    binaryToReg .byte (.imm8 b) rd op s = .next (modifyEa .byte (.reg rd) (op b) s) := by
  rw [binaryToReg, movesReg, if_neg Bool.false_ne_true, readEa_imm8]
  rfl

theorem compareReg_imm8 (b : Byte) (rd : Reg) (op : Byte → Byte → Flags → Byte × Flags) (s : State) :
    compareReg .byte (.imm8 b) rd op s = .next (s.setFlags (op b (s.readReg .byte rd) s.flags).2) := by
  rw [compareReg, movesReg, if_neg Bool.false_ne_true, readEa_imm8]
  rfl

theorem compareReg_imm16 (v : Word) (rd : Reg) (op : Word → Word → Flags → Word × Flags) (s : State) :
    compareReg .word (.imm16 v) rd op s = .next (s.setFlags (op v (s.readReg .word rd) s.flags).2) := by
  rw [compareReg, movesReg, if_neg Bool.false_ne_true, readEa_imm16]
  rfl

/-! ### Short formats -/

/-- Settles O21: the formats with an immediate by what reading it gives, those with a memory operand by the address they
imply, and ADD:Q by the number it adds at the byte width. -/
theorem shortFormats : Obligations.ShortFormats := by
  refine ⟨?movE, ?movI, ?movL, ?movS, ?movFLoad, ?movFStore, ?cmpE, ?cmpI, ?addQ1, ?addQ2, ?addQm1, ?addQm2⟩
  case movE => exact fun imm rd s => (movGLoad_imm8 imm rd s).symm
  case movI => exact fun imm rd s => (movGLoad_imm16 imm rd s).symm
  case movL | movS | movFLoad | movFStore => exact fun _ _ _ _ => rfl
  case cmpE => exact fun imm rd s => (compareReg_imm8 imm rd aluSub s).symm
  case cmpI => exact fun imm rd s => (compareReg_imm16 imm rd aluSub s).symm
  case addQ1 | addQ2 | addQm1 | addQm2 => exact fun rd s => (binaryToReg_imm8 _ rd aluAdd s).symm

end Sys2Proof.Machine
end

section
/-! SUPPORT. Moves into a register and into memory (spec/40_data_transfer.md R170 to R179, R190, R191). -/

namespace Sys2Proof.Machine

variable {s : State} {sz : Size} {ea : Ea} {rd rs : Reg}

theorem isPlace_of_isMemory (h : ea.isMemory = true) : ea.isPlace = true := by
  unfold Ea.isMemory at h
  unfold Ea.isPlace
  cases hc : ea.cls with
  | memory => rfl
  | register | immediate => simp [hc] at h

/-! ### MOV -/

theorem movesIn_movGLoad (hm : movesReg ea rd = false) (ha : (s.place sz ea).aligned = true) :
    MovesIn (.movGLoad sz ea rd) s sz ea rd := by
  refine ⟨_, if_neg (ne_true_of_eq_false hm), ?_⟩
  simp only [readEa_aligned s ha, State.moveToReg, preDecrement_flags]
  exact effect_writeReg_finish _ _ hm

/-- Settles O19: `movesIn_movGLoad`, and O21 for the short formats. -/
theorem movToRegister : Obligations.MovToRegister := by
  obtain ⟨movE, movI, movL, -, movFLoad, -⟩ := shortFormats
  refine ⟨fun _ _ _ _ => movesIn_movGLoad, fun imm rd s => ?_, fun imm rd s => ?_, fun sz a rd s ha => ?_,
    fun sz d rd s ha => ?_⟩
  · rw [MovesIn, movE]
    exact movesIn_movGLoad rfl rfl
  · rw [MovesIn, movI]
    exact movesIn_movGLoad rfl rfl
  · rw [MovesIn, movL]
    exact movesIn_movGLoad rfl ha
  · rw [MovesIn, movFLoad]
    exact movesIn_movGLoad rfl ha

theorem storesValue_storeEa {i : Instr} {v : BitVec sz.bits} {f : Flags} (hi : exec i s = .next (s.storeEa sz ea v f))
    (hp : ea.isMemory = true) (hw : s.mem.wf = true) (ha : (s.place sz ea).aligned = true) :
    StoresValue i s sz ea v f :=
  ⟨_, hi, stored_storeEa v f (isPlace_of_isMemory hp) hw ha⟩

theorem exec_movGStore (hm : movesReg ea rs = false) :
    exec (.movGStore sz rs ea) s =
      .next (s.storeEa sz ea (s.readReg sz rs) (movFlags (s.readReg sz rs) s.flags)) :=
  if_neg (ne_true_of_eq_false hm)

/-- Settles O20: every format is a pure store, the short ones by O21. -/
theorem movToMemory : Obligations.MovToMemory := by
  obtain ⟨-, -, -, movS, -, movFStore, -⟩ := shortFormats
  exact ⟨fun _ _ _ _ hp hw hm => storesValue_storeEa (exec_movGStore hm) hp hw,
    fun _ _ _ => storesValue_storeEa rfl, fun _ _ _ => storesValue_storeEa rfl,
    fun _ _ _ _ => storesValue_storeEa ((movS _ _ _ _).trans (exec_movGStore rfl)) rfl,
    fun _ _ _ _ => storesValue_storeEa ((movFStore _ _ _ _).trans (exec_movGStore rfl)) rfl⟩

/-! ### MOVFPE and MOVTPE -/

theorem movfpe_effect (hc : s.chip ≠ .h8520) (hm : movesReg ea rd = false) (ha : (s.place .byte ea).aligned = true) :
    ∃ t, exec (.movfpe ea rd) s = .next t ∧
      Effect s t (s.afterWrite .byte ea rd (hiByte (s.reg rd) ++ s.peek .byte (s.place .byte ea))) s.flags [] := by
  refine ⟨_, (if_pos (hasEClock_of_ne hc)).trans (if_neg (ne_true_of_eq_false hm)), ?_⟩
  simp only [readEa_aligned s ha, State.writeReg, preDecrement_reg_ne s .byte hm]
  exact effect_finish_flags (fun r => reg_finish_write hm (fun q => reg_setReg _ rd q _) r) (by simp) (by simp)
    (fun a ha => sameMemory_preDecrement s .byte ea a ha)
    ((sameControl_preDecrement s .byte ea).trans (sameControl_setReg _ _ _))

theorem exec_movtpe (hc : s.chip ≠ .h8520) (hm : movesReg ea rs = false) :
    exec (.movtpe rs ea) s = .next (s.storeEa .byte ea (loByte (s.reg rs)) s.flags) :=
  (if_pos (hasEClock_of_ne hc)).trans (if_neg (ne_true_of_eq_false hm))

/-- Settles O26: a byte load and a pure byte store that put back the condition codes they found. -/
theorem peripheralMoves : Obligations.PeripheralMoves := fun _ _ _ hc hm ha =>
  ⟨movfpe_effect hc hm ha, fun hp hw => storesValue_storeEa (exec_movtpe hc hm) hp hw ha⟩

end Sys2Proof.Machine
end

section
/-! SUPPORT. Instructions on registers alone (spec/40_data_transfer.md R182, R183, spec/41_arithmetic.md R225, R226). -/

namespace Sys2Proof.Machine

/-- A register takes a word, and the condition codes are written. -/
theorem effect_setReg_setFlags (s : State) (rd : Reg) (w : Word) (f : Flags) :
    Effect s ((s.setReg rd w).setFlags f) (fun r => if r = rd then w else s.reg r) f [] :=
  ⟨fun r => reg_setReg s rd r w, flagsBecome_of_sr rfl, rfl, fun _ _ => rfl,
    (sameControl_setReg s rd w).trans (sameControl_setFlags _ f)⟩

theorem xch_effect (s : State) (rs rd : Reg) :
    Effect s ((s.setReg rs (s.reg rd)).setReg rd (s.reg rs))
      (fun r => if r = rd then s.reg rs else if r = rs then s.reg rd else s.reg r) s.flags [] :=
  ⟨fun r => by rw [reg_setReg, reg_setReg], flagsBecome_same rfl, rfl, fun _ _ => rfl,
    (sameControl_setReg s rs _).trans (sameControl_setReg _ rd _)⟩

/-- The byte SWAP may take N and Z from is the old upper one (spec/40_data_transfer.md R183). -/
theorem swapFlags_swapBytes (w : Word) (f : Flags) :
    swapFlags (swapBytes w) f = movFlags (hiByte w) f ∨ swapFlags (swapBytes w) f = movFlags (swapBytes w) f := by
  unfold swapFlags
  split
  · left
    rw [swapBytes, loByte_append]
  · right
    rfl

theorem swapFlags_v_c (w : Word) (f : Flags) : (swapFlags w f).v = false ∧ (swapFlags w f).c = f.c := by
  unfold swapFlags
  split <;> exact ⟨rfl, rfl⟩

theorem toInt_signExtend8 (b : Byte) : (signExtend8 b).toInt = b.toInt :=
  BitVec.toInt_signExtend_of_le (by decide)

theorem toNat_zeroExtend8 (b : Byte) : (b.setWidth 16).toNat = b.toNat :=
  BitVec.toNat_setWidth_of_le (by decide)

/-- Settles O25: each writes its registers and its condition codes and nothing else. -/
theorem registerOnly : Obligations.RegisterOnly := by
  refine ⟨fun rs rd s => ⟨_, rfl, xch_effect s rs rd⟩, fun rd s => ?swap, fun rd s => ?exts, fun rd s => ?extu⟩
  case swap =>
    obtain ⟨v, c⟩ := swapFlags_v_c (swapBytes (s.reg rd)) s.flags
    exact ⟨_, _, rfl, effect_setReg_setFlags s rd _ _, v, c, swapFlags_swapBytes _ _⟩
  case exts => exact ⟨_, _, rfl, toInt_signExtend8 _, effect_setReg_setFlags s rd _ _⟩
  case extu => exact ⟨_, _, rfl, toNat_zeroExtend8 _, effect_setReg_setFlags s rd _ _⟩

end Sys2Proof.Machine
end

section
/-! SUPPORT. Register lists: STM as a row of pushes, LDM as a row of pops, and LDM after STM (spec/40_data_transfer.md R180,
R181, spec/30_encoding.md R129). -/

namespace Sys2Proof.Machine

variable {s t u : State} {rs : List Reg}

/-! ### Register lists -/

theorem mem_listedRegs (list : Byte) (r : Reg) : r ∈ listedRegs list ↔ list.getLsbD r.toBits.toNat = true := by
  have every : r ∈ [Reg.r0, .r1, .r2, .r3, .r4, .r5, .r6, .r7] := by cases r <;> decide
  rw [listedRegs, List.mem_filter, and_iff_right every]

theorem registerList_listedRegs (list : Byte) : RegisterList list (listedRegs list) := by
  refine ⟨List.filter_sublist, fun i r h => ?_⟩
  have number : r.toBits.toNat = i := by
    obtain ⟨hi, rfl⟩ := List.getElem?_eq_some_iff.mp h
    simp only [List.length_cons, List.length_nil] at hi
    interval_cases i <;> rfl
  rw [mem_listedRegs, number]

theorem nodup_listedRegs (list : Byte) : (listedRegs list).Nodup :=
  (registerList_listedRegs list).rising.nodup (by decide)

theorem length_listedRegs_le (list : Byte) : (listedRegs list).length ≤ 8 :=
  (registerList_listedRegs list).rising.length_le

/-- R7 is the first register STM stores, if it is listed. -/
theorem r7_not_mem_tail_reverse (list : Byte) : Reg.r7 ∉ (listedRegs list).reverse.tail := fun h =>
  absurd ((registerList_listedRegs list).rising.reverse.tail.subset h) (by decide)

/-! ### STM -/

/-- The word STM stores for a register: R7 as decremented by its own push, which is the first. -/
def State.stmWord (s : State) (r : Reg) : Word := if r = .r7 then s.reg .r7 - 2 else s.reg r

/-- Registers other than R7, pushed after a row of pushes. -/
theorem Pushes.foldl_pushReg {ws : List Word} (h : Pushes s t ws) (he : odd (s.reg .r7) = false) (h7 : .r7 ∉ rs)
    (hn : ws.length + rs.length ≤ 32000) : Pushes s (rs.foldl State.pushReg t) (ws ++ rs.map s.stmWord) := by
  induction rs generalizing t ws with
  | nil => simpa using h
  | cons r rs ih =>
    simp only [List.mem_cons, not_or, List.length_cons] at h7 hn
    have word : (if r = .r7 then t.reg .r7 - 2 else t.reg r) = s.stmWord r := by
      rw [State.stmWord, if_neg (Ne.symm h7.1), if_neg (Ne.symm h7.1), h.regs, State.withSp, if_neg (Ne.symm h7.1)]
    have pushed := h.push16 (s.stmWord r) he (by omega)
    rw [List.foldl_cons, pushReg_eq, word, List.map_cons, List.append_cons]
    exact ih pushed h7.2 (by rw [List.length_append, List.length_singleton]; omega)

/-- STM as a row of pushes, R7 first if it is among the registers. -/
theorem pushes_foldl_pushReg (hw : s.mem.wf = true) (he : odd (s.reg .r7) = false) (h7 : .r7 ∉ rs.tail)
    (hn : rs.length ≤ 32000) : Pushes s (rs.foldl State.pushReg s) (rs.map s.stmWord) := by
  cases rs with
  | nil => exact pushes_nil hw
  | cons r rs =>
    have first : Pushes s (s.push16 (s.stmWord r)) [s.stmWord r] := (pushes_nil hw).push16 _ he (by decide)
    rw [List.foldl_cons, pushReg_eq]
    exact first.foldl_pushReg he h7 (by simpa [Nat.add_comm] using hn)

theorem exec_stm (hw : s.mem.wf = true) (he : odd (s.reg .r7) = false) (list : Byte) :
    ∃ t, exec (.stm list) s = .next t ∧ Pushes s t ((listedRegs list).reverse.map s.stmWord) :=
  ⟨_, rfl, pushes_foldl_pushReg hw he (r7_not_mem_tail_reverse list)
    (by rw [List.length_reverse]; exact (length_listedRegs_le list).trans (by decide))⟩

/-- A row of pushes is the whole effect of an instruction that leaves PC and SR alone. -/
theorem Pushes.effect {ws : List Word} (h : Pushes s t ws) :
    Effect s t (s.withSp (s.reg .r7 - BitVec.ofNat 16 (2 * ws.length))) s.flags (s.pushBytes ws.length) :=
  ⟨h.regs, flagsBecome_same h.sr, h.pc, h.bytes, h.control⟩

/-- Settles O22: STM is a row of pushes, and no register but R7 has changed when its word is stored. -/
theorem stmStores : Obligations.StmStores := by
  intro list s hw he
  obtain ⟨t, hx, pushed⟩ := exec_stm hw he list
  refine ⟨registerList_listedRegs list, t, hx, ?_, fun k r hk => pushed.words k _ (by rw [List.getElem?_map, hk]; rfl)⟩
  have effect := pushed.effect
  rwa [List.length_map] at effect

/-! ### LDM -/

/-- What a row of pops into registers leaves: each register but R7 has the word at its place, R7 is past them all. -/
structure Pops (s t : State) (rs : List Reg) : Prop where
  sp : t.reg .r7 = s.reg .r7 + BitVec.ofNat 16 (2 * rs.length)
  loaded : ∀ k r, rs[k]? = some r → r ≠ .r7 → t.reg r = s.stackWord k
  kept : ∀ r, r ∉ rs → r ≠ .r7 → t.reg r = s.reg r
  pc : t.pc = s.pc
  sr : t.sr = s.sr
  mem : t.mem = s.mem
  control : SameControl s t

theorem pops_nil (s : State) : Pops s s [] :=
  ⟨(BitVec.add_zero _).symm, fun _ _ h => by simp at h, fun _ _ _ => rfl, rfl, rfl, rfl, SameControl.refl s⟩

/-- One word of LDM. -/
theorem popTo_even (he : odd (s.reg .r7) = false) (r : Reg) :
    s.popTo r = if r = .r7 then s.setReg .r7 (s.reg .r7 + 2)
      else (s.setReg .r7 (s.reg .r7 + 2)).setReg r (s.stackWord 0) := by
  cases r <;> simp [State.popTo, pop16_stackWord he]

theorem pops_popTo (he : odd (s.reg .r7) = false) (r : Reg) : Pops s (s.popTo r) [r] := by
  rw [popTo_even he]
  split
  next h7 =>
    refine ⟨reg_setReg_self s _ _, fun k q hk hq => ?_, fun q _ hq => reg_setReg_ne s _ hq, rfl, rfl, rfl,
      sameControl_setReg s _ _⟩
    have same : q = r := List.mem_singleton.mp (List.mem_of_getElem? hk)
    exact absurd (same.trans h7) hq
  next h7 =>
    refine ⟨(reg_setReg_ne _ _ (Ne.symm h7)).trans (reg_setReg_self s _ _), fun k q hk _ => ?_, fun q hq hq7 => ?_,
      rfl, rfl, rfl, (sameControl_setReg s _ _).trans (sameControl_setReg _ _ _)⟩
    · cases k with
      | zero =>
        obtain rfl : r = q := by simpa using hk
        exact reg_setReg_self _ _ _
      | succ k => simp at hk
    · rw [reg_setReg_ne _ _ (List.mem_singleton.not.mp hq), reg_setReg_ne _ _ hq7]

theorem Pops.even (h : Pops s t rs) (he : odd (s.reg .r7) = false) : odd (t.reg .r7) = false := by
  rw [h.sp, even_iff, BitVec.toNat_add, BitVec.toNat_ofNat]
  rw [even_iff] at he
  omega

/-- One pop, and more pops into other registers. -/
theorem Pops.cons {r : Reg} (h : Pops s t [r]) (k : Pops t u rs) (hr : r ∉ rs) : Pops s u (r :: rs) := by
  refine ⟨?_, fun j q hj hq => ?_, fun q hq h7 => ?_, k.pc.trans h.pc, k.sr.trans h.sr, k.mem.trans h.mem,
    h.control.trans k.control⟩
  · have count : 2 * (r :: rs).length = 2 * [r].length + 2 * rs.length := by
      simp only [List.length_cons, List.length_nil]
      omega
    rw [count, BitVec.ofNat_add, ← BitVec.add_assoc, k.sp, h.sp]
  · cases j with
    | zero =>
      obtain rfl : r = q := by simpa using hj
      rw [k.kept r hr hq, h.loaded 0 r rfl hq]
    | succ j => rw [k.loaded j q hj hq, stackWord_succ h.mem h.control.tp h.control.mode h.sp]
  · simp only [List.mem_cons, not_or] at hq
    rw [k.kept q hq.2 h7, h.kept q (List.mem_singleton.not.mpr hq.1) h7]

theorem pops_foldl_popTo (he : odd (s.reg .r7) = false) (hd : rs.Nodup) : Pops s (rs.foldl State.popTo s) rs := by
  induction rs generalizing s with
  | nil => exact pops_nil s
  | cons r rs ih =>
    obtain ⟨hr, hd⟩ := List.nodup_cons.mp hd
    have first := pops_popTo he r
    exact first.cons (ih (first.even he) hd) hr

theorem exec_ldm (he : odd (s.reg .r7) = false) (list : Byte) :
    ∃ t, exec (.ldm list) s = .next t ∧ Pops s t (listedRegs list) :=
  ⟨_, rfl, pops_foldl_popTo he (nodup_listedRegs list)⟩

/-- Settles O23: LDM is a row of pops into different registers. -/
theorem ldmLoads : Obligations.LdmLoads := by
  intro list s he
  obtain ⟨t, hx, popped⟩ := exec_ldm he list
  exact ⟨registerList_listedRegs list, t, hx, popped.sp, popped.loaded, popped.kept, popped.sr, popped.pc,
    fun a _ => by rw [State.readByte, popped.mem, State.readByte], popped.control⟩

/-! ### LDM after STM -/

/-- The words of a row of pushes lie on the stack, the last pushed at the top. -/
theorem Pushes.stackWord {ws : List Word} (h : Pushes s t ws) {k : Nat} {w : Word} (hk : ws.reverse[k]? = some w) :
    t.stackWord k = w := by
  have hl : k < ws.length := by simpa using (List.getElem?_eq_some_iff.mp hk).1
  have slot : t.reg .r7 + BitVec.ofNat 16 (2 * k) = s.reg .r7 - BitVec.ofNat 16 (2 * (ws.length - 1 - k + 1)) := by
    rw [h.regs, State.withSp, if_pos rfl,
      show 2 * ws.length = 2 * (ws.length - 1 - k + 1) + 2 * k by omega, BitVec.ofNat_add, ← word_sub_sub,
      BitVec.sub_add_cancel]
  rw [List.getElem?_reverse hl] at hk
  rw [← h.words _ w hk, State.stackWord, slot, State.pushSlot, State.phys, State.phys, h.control.mode, h.control.tp]

/-- Pops into the registers whose words were pushed, the last pushed first, give every register back. -/
theorem Pops.reg_of_pushes (h : Pushes s t (rs.reverse.map s.stmWord)) (k : Pops t u rs) (r : Reg) :
    u.reg r = s.reg r := by
  by_cases h7 : r = .r7
  · rw [h7, k.sp, h.regs, State.withSp, if_pos rfl, List.length_map, List.length_reverse, BitVec.sub_add_cancel]
  · by_cases hr : r ∈ rs
    · obtain ⟨j, hj⟩ := List.getElem?_of_mem hr
      have word : (rs.reverse.map s.stmWord).reverse[j]? = some (s.reg r) := by
        rw [← List.map_reverse, List.reverse_reverse, List.getElem?_map, hj, Option.map_some, State.stmWord, if_neg h7]
      rw [k.loaded j r hj h7, h.stackWord word]
    · rw [k.kept r hr h7, h.regs, State.withSp, if_neg h7]

/-- Settles O24: STM pushes the highest register first, so LDM pops each word into the register it came from. -/
theorem ldmRestoresStm : Obligations.LdmRestoresStm := by
  intro list s hw he
  obtain ⟨t, stored, pushed⟩ := exec_stm hw he list
  obtain ⟨u, loaded, popped⟩ := exec_ldm (pushed.even he) list
  exact ⟨registerList_listedRegs list, t, u, stored, loaded, popped.reg_of_pushes pushed⟩

end Sys2Proof.Machine
end

section
/-! SUPPORT. Addition, subtraction and comparison (spec/41_arithmetic.md R200 to R208, R220 to R231): the model's operations
on operands as the statements write them, and the forms of instruction they go into. -/

namespace Sys2Proof.Machine

variable {s : State} {sz : Size} {ea : Ea}

/-! ### The operations -/

theorem addFlags_no_carry (x d : BitVec w) : (addFlags x d false).1 = d + x := by
  simp [addFlags, carryIn, BitVec.add_comm]

theorem subFlags_no_borrow (x d : BitVec w) : (subFlags x d false).1 = d - x := by simp [subFlags, carryIn]

theorem aluAdd_eq (x d : BitVec w) (f : Flags) : aluAdd x d f = (d + x, (addFlags x d false).2) :=
  Prod.ext (addFlags_no_carry x d) rfl

theorem aluSub_eq (x d : BitVec w) (f : Flags) : aluSub x d f = (d - x, (subFlags x d false).2) :=
  Prod.ext (subFlags_no_borrow x d) rfl

theorem aluAddx_eq (x d : BitVec w) (f : Flags) :
    aluAddx x d f =
      (d + x + (if f.c then 1 else 0), { (addFlags x d f.c).2 with z := f.z && (addFlags x d f.c).2.z }) :=
  Prod.ext (congrArg (· + carryIn w f.c) (BitVec.add_comm x d)) rfl

theorem aluSubx_eq (x d : BitVec w) (f : Flags) :
    aluSubx x d f =
      (d - x - (if f.c then 1 else 0), { (subFlags x d f.c).2 with z := f.z && (subFlags x d f.c).2.z }) := rfl

theorem quick_eq (q : Int) (d : BitVec w) (f : Flags) :
    quick q d f = (d + BitVec.ofInt w q, (addFlags (BitVec.ofInt w q) d false).2) :=
  Prod.ext (addFlags_no_carry _ d) rfl

theorem quick_neg_eq (q : Int) (d : BitVec w) (f : Flags) :
    quick (-q) d f = (d - BitVec.ofInt w q, (addFlags (-BitVec.ofInt w q) d false).2) := by
  rw [quick_eq, BitVec.ofInt_neg, BitVec.sub_eq_add_neg]

/-- 0 less the operand borrows unless the operand is 0, and overflows where operand and negative are both negative. -/
theorem aluNeg_eq (hw : 0 < w) (d : BitVec w) (f : Flags) :
    aluNeg d f = (-d, { n := (-d).msb, z := d == 0, v := d.msb && (-d).msb, c := d != 0 }) := by
  have result : (subFlags d 0 false).1 = -d := (subFlags_no_borrow d 0).trans (BitVec.zero_sub d)
  have zero : (subFlags d 0 false).2.z = (d == 0) := by
    rw [Bool.eq_iff_iff, subFlags_z_iff, result, beq_iff_eq]
    exact BitVec.neg_eq_zero_iff
  have borrow : (subFlags d 0 false).2.c = (d != 0) := by
    rw [Bool.eq_iff_iff, subFlags_c_iff hw, bne_iff_ne, Ne, ← BitVec.toNat_inj]
    simp [Nat.pos_iff_ne_zero]
  have overflow : (subFlags d 0 false).2.v = (d.msb && (-d).msb) := by
    rw [← result]
    simp [subFlags, top]
  rw [aluNeg, ← zero, ← borrow, ← overflow, ← result]
  rfl

/-! ### The forms -/

theorem combines_of_exec {i : Size → Ea → Reg → Instr}
    {op op' : (sz : Size) → BitVec sz.bits → BitVec sz.bits → Flags → BitVec sz.bits × Flags}
    (hi : ∀ sz ea rd s, exec (i sz ea rd) s = binaryToReg sz ea rd (op sz) s)
    (ho : ∀ sz x d f, op sz x d f = op' sz x d f) : Combines i op' := by
  intro sz ea rd s hm ha
  rw [hi, ← ho]
  exact binaryToReg_aligned (op sz) hm ha

theorem modifies_of_exec {i : Size → Ea → Instr}
    {op op' : (sz : Size) → BitVec sz.bits → Flags → BitVec sz.bits × Flags}
    (hi : ∀ sz ea s, exec (i sz ea) s = .next (modifyEa sz ea (op sz) s)) (ho : ∀ sz d f, op sz d f = op' sz d f) :
    Modifies i op' := by
  intro sz ea s hp hw ha
  rw [← ho]
  exact ⟨_, hi sz ea s, stored_modifyEa (op sz) hp hw ha⟩

theorem tests_of_testEa {i : Instr} {op : BitVec sz.bits → Flags → Flags} (hi : exec i s = .next (testEa sz ea op s))
    (ha : (s.place sz ea).aligned = true) : Tests i s sz ea (op (s.peek sz (s.place sz ea)) s.flags) :=
  ⟨_, hi, effect_testEa op ha⟩

theorem tests_of_compare {i : Instr} (imm : BitVec sz.bits)
    (hi : exec i s = .next (testEa sz ea (fun d f => (aluSub imm d f).2) s)) (ha : (s.place sz ea).aligned = true) :
    Tests i s sz ea (subFlags imm (s.peek sz (s.place sz ea)) false).2 :=
  tests_of_testEa hi ha

/-- Settles O27: each is `OP <EAs>,Rd`, with the operation as the model computes it. -/
theorem addAndSubtract : Obligations.AddAndSubtract :=
  ⟨combines_of_exec (fun _ _ _ _ => rfl) fun _ => aluAdd_eq, combines_of_exec (fun _ _ _ _ => rfl) fun _ => aluSub_eq,
    combines_of_exec (fun _ _ _ _ => rfl) fun _ => aluAddx_eq,
    combines_of_exec (fun _ _ _ _ => rfl) fun _ => aluSubx_eq⟩

/-- Settles O29: each is a read-modify-write that adds a number, and adding a negative one is a subtraction. -/
theorem addQuick : Obligations.AddQuick :=
  ⟨modifies_of_exec (fun _ _ _ => rfl) fun _ => quick_eq 1, modifies_of_exec (fun _ _ _ => rfl) fun _ => quick_eq 2,
    modifies_of_exec (fun _ _ _ => rfl) fun _ => quick_neg_eq 1,
    modifies_of_exec (fun _ _ _ => rfl) fun _ => quick_neg_eq 2⟩

/-- Settles O30, each by `extendedToReg_aligned`. -/
theorem addsAndSubs : Obligations.AddsAndSubs := fun _ _ _ _ hm ha =>
  ⟨extendedToReg_aligned (fun d x => d + x) hm ha, extendedToReg_aligned (fun d x => d - x) hm ha⟩

theorem tests_tst (ha : (s.place sz ea).aligned = true) :
    Tests (.tst sz ea) s sz ea (testFlags (s.peek sz (s.place sz ea))) :=
  tests_of_testEa (op := fun d _ => testFlags d) rfl ha

/-- Settles O31: the formats with a register operand alone are those with an EA that is the register. -/
theorem compareAndTest : Obligations.CompareAndTest :=
  ⟨fun _ _ _ _ hm ha => compareReg_aligned aluSub hm ha, fun _ imm _ => tests_of_compare (sz := .byte) imm rfl,
    fun _ imm _ => tests_of_compare (sz := .word) imm rfl,
    fun imm rd _ => tests_of_compare (sz := .byte) (ea := .reg rd) imm rfl rfl,
    fun imm rd _ => tests_of_compare (sz := .word) (ea := .reg rd) imm rfl rfl, fun _ _ _ => tests_tst⟩

/-- Settles O37: NEG and TAS are read-modify-writes, CLR is a pure store. -/
theorem negateClearTestAndSet : Obligations.NegateClearTestAndSet :=
  ⟨modifies_of_exec (fun _ _ _ => rfl) fun sz => aluNeg_eq (size_bits_pos sz),
    fun _ _ _ hp hw ha => ⟨_, rfl, stored_storeEa _ _ hp hw ha⟩,
    fun _ _ hp hw ha => ⟨_, rfl, stored_modifyEa aluTas hp hw ha⟩⟩

end Sys2Proof.Machine
end

section
/-! SUPPORT. Decimal arithmetic (spec/41_arithmetic.md R209 to R211). -/

namespace Sys2Proof.Machine

/-! ### Digit pairs -/

theorem bcdValid_iff (b : Byte) : bcdValid b = true ↔ b.toNat / 16 ≤ 9 ∧ b.toNat % 16 ≤ 9 := by simp [bcdValid]

theorem bcd_lt {b : Byte} (h : bcdValid b = true) : bcd b < 100 := by
  obtain ⟨tens, ones⟩ := (bcdValid_iff b).mp h
  rw [bcd]
  omega

theorem toNat_bcdEncode {n : Nat} (h : n < 100) : (bcdEncode n).toNat = 16 * (n / 10) + n % 10 := by
  rw [bcdEncode, BitVec.toNat_ofNat]
  omega

theorem bcdValid_bcdEncode {n : Nat} (h : n < 100) : bcdValid (bcdEncode n) = true := by
  rw [bcdValid_iff, toNat_bcdEncode h]
  omega

theorem bcd_bcdEncode {n : Nat} (h : n < 100) : bcd (bcdEncode n) = n := by
  rw [bcd, toNat_bcdEncode h]
  omega

/-! ### Exact results -/

/-- What DADD and DSUB say of their digit pair and condition codes, apart from the carry. -/
structure DecimalResult (p : Byte × Flags) (f : Flags) : Prop where
  valid : bcdValid p.1 = true
  n : p.2.n = f.n
  v : p.2.v = f.v
  z : p.2.z = (f.z && p.1 == 0)

theorem decimalResult_decimalAdd (x d : Byte) (f : Flags) : DecimalResult (decimalAdd x d f) f :=
  ⟨bcdValid_bcdEncode (Nat.mod_lt _ (by decide)), rfl, rfl, rfl⟩

theorem decimalResult_decimalSub (x d : Byte) (f : Flags) : DecimalResult (decimalSub x d f) f :=
  ⟨bcdValid_bcdEncode (by omega), rfl, rfl, rfl⟩

/-- The sum of two digit pairs and a carry is below 200, so the carry makes up for the hundred that the result leaves out. -/
theorem decimalAdd_exact {x d : Byte} (hx : bcdValid x = true) (hd : bcdValid d = true) (f : Flags) :
    bcd (decimalAdd x d f).1 + 100 * (decimalAdd x d f).2.c.toNat = bcd d + bcd x + f.c.toNat := by
  have hx := bcd_lt hx
  have hd := bcd_lt hd
  have hc := f.c.toNat_le
  simp only [decimalAdd]
  rw [bcd_bcdEncode (Nat.mod_lt _ (by decide))]
  by_cases h : 100 ≤ bcd d + bcd x + f.c.toNat
  · rw [decide_eq_true h, Bool.toNat_true]
    omega
  · rw [decide_eq_false h, Bool.toNat_false]
    omega

/-- The difference is at least -100, so the borrow makes up for the hundred that the result has too much. -/
theorem decimalSub_exact {x d : Byte} (hx : bcdValid x = true) (hd : bcdValid d = true) (f : Flags) :
    bcd (decimalSub x d f).1 + bcd x + f.c.toNat = bcd d + 100 * (decimalSub x d f).2.c.toNat := by
  have hx := bcd_lt hx
  have hd := bcd_lt hd
  have hc := f.c.toNat_le
  simp only [decimalSub]
  rw [bcd_bcdEncode (by omega)]
  by_cases h : (bcd d : Int) - bcd x - f.c.toNat < 0
  · rw [decide_eq_true h, Bool.toNat_true]
    omega
  · rw [decide_eq_false h, Bool.toNat_false]
    omega

/-! ### The instructions -/

/-- The lower byte of a register is written, and the condition codes. -/
theorem effect_writeReg_byte (s : State) (rd : Reg) (r : Byte) (f : Flags) :
    Effect s ((s.writeReg .byte rd r).setFlags f) (fun q => if q = rd then hiByte (s.reg rd) ++ r else s.reg q) f [] :=
  effect_setReg_setFlags s rd _ f

theorem digits_valid {x d : Byte} (hx : bcdValid x = true) (hd : bcdValid d = true) :
    (bcdValid x && bcdValid d) = true := by
  rw [hx, hd, Bool.and_true]

/-- Settles O33, from the exact sum and difference. -/
theorem decimalArithmetic : Obligations.DecimalArithmetic := by
  intro rs rd s hx hd
  obtain ⟨addValid, addN, addV, addZ⟩ := decimalResult_decimalAdd (loByte (s.reg rs)) (loByte (s.reg rd)) s.flags
  obtain ⟨subValid, subN, subV, subZ⟩ := decimalResult_decimalSub (loByte (s.reg rs)) (loByte (s.reg rd)) s.flags
  exact ⟨⟨_, _, _, if_pos (digits_valid hx hd), effect_writeReg_byte s rd _ _, addValid, decimalAdd_exact hx hd _,
      addN, addV, addZ⟩,
    _, _, _, if_pos (digits_valid hx hd), effect_writeReg_byte s rd _ _, subValid, decimalSub_exact hx hd _,
      subN, subV, subZ⟩

end Sys2Proof.Machine
end

section
/-! SUPPORT. What the exception-handling sequence leaves, field by field (spec/60_exceptions.md R380 to R383, R385). -/

namespace Sys2Proof.Machine

variable {s t u : State} {e : Exception}

/-! ### The words pushed -/

theorem length_frameOf (s : State) (p : Word) (b : Byte) : (frameOf s p b).length = frameWords s.mode := by
  unfold frameOf
  cases s.mode <;> rfl

theorem frameOf_pc (s : State) (p : Word) (b : Byte) : (frameOf s p b)[0]? = some p := by
  unfold frameOf
  cases s.mode <;> rfl

theorem frameOf_cp (p : Word) (b : Byte) (hm : s.mode = .maximum) : (frameOf s p b)[1]? = some (b ++ s.cp) := by
  rw [frameOf, hm]
  rfl

theorem frameOf_sr (s : State) (p : Word) (b : Byte) :
    ∃ k, k + 1 = frameWords s.mode ∧ (frameOf s p b)[k]? = some s.sr := by
  unfold frameOf
  cases s.mode with
  | minimum => exact ⟨1, rfl, rfl⟩
  | maximum => exact ⟨2, rfl, rfl⟩

/-! ### The state after the pushes -/

theorem Vectored.readByte (h : Vectored u t e) (a : Addr) : t.readByte a = u.readByte a := by
  rw [State.readByte, h.mem, State.readByte]

theorem Vectored.wordAt (h : Vectored u t e) (a : Addr) : t.wordAt a = u.wordAt a := by
  rw [State.wordAt, h.readByte, h.readByte, State.wordAt]

theorem Vectored.reg (h : Vectored u t e) (r : Reg) : t.reg r = u.reg r := by rw [State.reg, h.regs, State.reg]

theorem Vectored.flagT (h : Vectored u t e) : t.flagT = false := by
  rw [State.flagT, h.sr, getLsbD_enteredSr, if_pos rfl]

theorem flags_enteredSr {i : Nat} (hi : i < 4) (sr : Word) (m : Option (BitVec 3)) :
    (enteredSr sr m).getLsbD i = sr.getLsbD i := by
  rw [getLsbD_enteredSr, if_neg (by omega)]
  cases m with
  | none => rfl
  | some l => exact (if_neg (by omega)).trans ((if_neg (by omega)).trans (if_neg (by omega)))

theorem Vectored.flags (h : Vectored u t e) : t.flags = u.flags := by
  simp only [State.flags, h.sr, flags_enteredSr (by decide : 0 < 4), flags_enteredSr (by decide : 1 < 4),
    flags_enteredSr (by decide : 2 < 4), flags_enteredSr (by decide : 3 < 4)]

theorem SameControl.after_sequence (h : SameControl s u) (c : Byte) (x : CpuState) :
    SameControl { s with cp := c, cpuState := x } { u with cp := c, cpuState := x } :=
  { h with cp := rfl, cpuState := rfl }

/-- Every exception taken with an even R7: the pushes by `pushes_pushFrame`, the rest by `takeException_even`. -/
theorem entered_takeException (e : Exception) (p : Word) (hw : s.mem.wf = true) (he : odd (s.reg .r7) = false) :
    ∃ t, s.takeException e p = .next t ∧ Entered s t e p := by
  obtain ⟨t, ht, vectored⟩ := takeException_even e p he
  obtain ⟨b, pushed⟩ := pushes_pushFrame p hw he
  have length := length_frameOf s p b
  have saved {k : Nat} {w : Word} (hk : (frameOf s p b)[k]? = some w) : t.wordAt (s.pushSlot (k + 1)) = w :=
    (vectored.wordAt _).trans (pushed.words k w hk)
  refine ⟨t, ht, ?_⟩
  constructor
  case regs => exact fun r => (vectored.reg r).trans (length ▸ pushed.regs r)
  case pcSaved => exact saved (frameOf_pc s p b)
  case cpSaved => exact fun hm => by rw [saved (frameOf_cp p b hm), loByte_append]
  case srSaved =>
    obtain ⟨k, last, hk⟩ := frameOf_sr s p b
    exact last ▸ saved hk
  case flagT => exact vectored.flagT
  case mask => exact takeException_intMask ht
  case flags => rw [vectored.flags, State.flags, pushed.sr, State.flags]
  case reserved => exact takeException_reserved ht
  case vectorMinimum =>
    intro hm
    obtain ⟨pc, cp⟩ := vectored.minimum (pushed.control.mode.trans hm)
    exact ⟨pc.trans (vectored.wordAt _).symm, cp.trans pushed.control.cp⟩
  case vectorMaximum =>
    intro hm
    obtain ⟨pc, cp⟩ := vectored.maximum (pushed.control.mode.trans hm)
    exact ⟨pc.trans (vectored.wordAt _).symm, by rw [cp, vectored.wordAt]⟩
  case memory => exact fun a ha => (vectored.readByte a).trans (pushed.bytes a (length ▸ ha))
  case control => exact (pushed.control.after_sequence t.cp .executing).trans vectored.control

end Sys2Proof.Machine
end

section
/-! SUPPORT. MULXU and DIVXU: products, quotients and register pairs in numbers (spec/41_arithmetic.md R212 to R215). -/

namespace Sys2Proof.Machine

variable {s : State} {sz : Size} {ea : Ea} {rd : Reg}

/-! ### Register pairs -/

theorem nextReg_ne (r : Reg) : nextReg r ≠ r := by cases r <;> decide

theorem reg_setPair (s : State) (rd : Reg) (hi lo : Word) (r : Reg) :
    (s.setPair rd hi lo).reg r = if r = rd then hi else if r = nextReg rd then lo else s.reg r := by
  rw [State.setPair, reg_setReg, reg_setReg]
  split_ifs with hn hr
  · exact absurd (hn.symm.trans hr) (nextReg_ne rd)
  all_goals rfl

/-- The post-increment of a register depends on that register alone. -/
theorem reg_finish_congr {u v : State} {r : Reg} (h : u.reg r = v.reg r) :
    (u.finish sz ea).reg r = (v.finish sz ea).reg r := by
  cases ea with
  | postInc q =>
    simp only [State.finish, reg_setReg]
    split_ifs with hq
    · rw [← hq, h]
    · exact h
  | reg | ind | disp8 | disp16 | preDec | abs8 | abs16 | imm8 | imm16 => exact h

theorem reg_finish_ne (u : State) {r : Reg} (hm : movesReg ea r = false) : (u.finish sz ea).reg r = u.reg r := by
  cases ea with
  | postInc q => exact reg_setReg_ne u _ (Ne.symm (of_decide_eq_false hm))
  | reg | ind | disp8 | disp16 | preDec | abs8 | abs16 | imm8 | imm16 => rfl

/-- The registers at the end of an instruction that wrote a pair between resolving an EA and finishing it. -/
theorem reg_finish_setPair {hi lo : Word} (hm : movesReg ea rd = false) (hn : movesReg ea (nextReg rd) = false) (r : Reg) :
    (((s.preDecrement sz ea).setPair rd hi lo).finish sz ea).reg r = s.afterPair sz ea rd hi lo r := by
  have written := reg_setPair (s.preDecrement sz ea) rd hi lo r
  unfold State.afterPair
  split_ifs at written ⊢ with hr hnext
  · rw [reg_finish_ne _ (hr ▸ hm), written]
  · rw [reg_finish_ne _ (hnext ▸ hn), written]
  · rw [reg_finish_congr written]
    exact reg_finish_keep (fun _ => rfl) r

/-- A register pair takes two words between resolving an EA and finishing it. -/
theorem effect_setPair_finish (hi lo : Word) (f : Flags) (hm : movesReg ea rd = false)
    (hn : movesReg ea (nextReg rd) = false) :
    Effect s ((((s.preDecrement sz ea).setPair rd hi lo).setFlags f).finish sz ea) (s.afterPair sz ea rd hi lo) f [] :=
  effect_finish
    (fun r => (reg_finish_congr (setFlags_reg _ f r)).trans (reg_finish_setPair hm hn r))
    (by simp [State.setPair]) (by simp [State.setPair]) (fun a ha => sameMemory_preDecrement s sz ea a ha)
    ((((sameControl_preDecrement s sz ea).trans (sameControl_setReg _ _ _)).trans (sameControl_setReg _ _ _)).trans
      (sameControl_setFlags _ _))

/-! ### Products -/

/-- The product of two numbers of `w` bits fits into twice as many. -/
theorem toNat_product (x y : BitVec w) : (x.setWidth (w + w) * y.setWidth (w + w)).toNat = x.toNat * y.toNat := by
  have fits : x.toNat * y.toNat < 2 ^ (w + w) := by
    rw [Nat.pow_add]
    exact Nat.mul_lt_mul'' x.isLt y.isLt
  have wide (v : BitVec w) : (v.setWidth (w + w)).toNat = v.toNat := BitVec.toNat_setWidth_of_le (Nat.le_add_left w w)
  rw [BitVec.toNat_mul, wide, wide, Nat.mod_eq_of_lt fits]

theorem toNat_halves (p : BitVec 32) :
    (p.extractLsb' 16 16).toNat * 65536 + (p.extractLsb' 0 16).toNat = p.toNat := by
  simp only [BitVec.extractLsb'_toNat, Nat.shiftRight_eq_div_pow]
  omega

/-- N and Z of a 32-bit value, from its halves. -/
theorem testFlags_halves (p : BitVec 32) :
    testFlags p =
      { n := (p.extractLsb' 16 16).msb, z := p.extractLsb' 16 16 == 0 && p.extractLsb' 0 16 == 0,
        v := false, c := false } := by
  have sign : top p = (p.extractLsb' 16 16).msb := by
    rw [top, BitVec.msb_eq_getLsbD_last, BitVec.msb_eq_getLsbD_last, BitVec.getLsbD_extractLsb']
    rfl
  have zero : (p == 0) = (p.extractLsb' 16 16 == 0 && p.extractLsb' 0 16 == 0) := by
    have halves := toNat_halves p
    rw [Bool.eq_iff_iff, Bool.and_eq_true, beq_iff_eq, beq_iff_eq, beq_iff_eq, ← BitVec.toNat_inj, ← BitVec.toNat_inj,
      ← BitVec.toNat_inj]
    simp only [BitVec.ofNat_eq_ofNat, BitVec.toNat_ofNat, Nat.zero_mod]
    omega
  rw [testFlags, sign, zero]

theorem exec_mulxu_byte (hm : movesReg ea rd = false) (ha : (s.place .byte ea).aligned = true) :
    exec (.mulxu .byte ea rd) s =
      let p : Word := (loByte (s.reg rd)).setWidth 16 * (s.peek .byte (s.place .byte ea)).setWidth 16
      .next ((((s.preDecrement .byte ea).setReg rd p).setFlags (testFlags p)).finish .byte ea) := by
  rw [exec, execMulxu, mulxuByte, if_neg (ne_true_of_eq_false hm), readEa_aligned s ha]
  simp only [State.readReg, preDecrement_reg_ne s .byte hm]
  rfl

theorem exec_mulxu_word (hr : isOddReg rd = false) (hm : movesReg ea rd = false) (hn : movesReg ea (nextReg rd) = false)
    (ha : (s.place .word ea).aligned = true) :
    exec (.mulxu .word ea rd) s =
      let p : BitVec 32 := (s.reg rd).setWidth 32 * (s.peek .word (s.place .word ea)).setWidth 32
      .next ((((s.preDecrement .word ea).setPair rd (p.extractLsb' 16 16) (p.extractLsb' 0 16)).setFlags
        (testFlags p)).finish .word ea) := by
  rw [exec, execMulxu, mulxuWord, if_neg (ne_true_of_eq_false hr), if_neg (pair_not_moved hm hn), readEa_aligned s ha]
  simp only [preDecrement_reg_ne s .word hm]

/-- Settles O34: the whole product, by `toNat_product`, and its halves in the word form. -/
theorem multiply : Obligations.Multiply := by
  refine ⟨fun ea rd s hm ha => ?byte, fun ea rd s hr hm hn ha => ?word⟩
  case byte => exact ⟨_, _, exec_mulxu_byte hm ha, toNat_product (w := 8) _ _, effect_setReg_finish _ _ hm⟩
  case word =>
    refine ⟨_, _, _, exec_mulxu_word hr hm hn ha, (toNat_halves _).trans (toNat_product (w := 16) _ _), ?_⟩
    rw [← testFlags_halves]
    exact effect_setPair_finish _ _ _ hm hn

/-! ### Quotients -/

theorem divide_zero (w n : Nat) : divide w n 0 = .byZero := if_pos rfl

theorem divide_overflow {w n x : Nat} (hx : x ≠ 0) (h : 2 ^ w ≤ n / x) : divide w n x = .overflow :=
  (if_neg hx).trans (if_pos h)

/-- A quotient that fits, and its remainder, are exact. -/
theorem divide_fits {w n : Nat} {x : BitVec w} (hx : x.toNat ≠ 0) (h : n / x.toNat < 2 ^ w) :
    ∃ q r : BitVec w, divide w n x.toNat = .ok q r ∧ n = q.toNat * x.toNat + r.toNat ∧ r.toNat < x.toNat := by
  have remainder : n % x.toNat < x.toNat := Nat.mod_lt n (Nat.pos_of_ne_zero hx)
  refine ⟨_, _, (if_neg hx).trans (if_neg (Nat.not_le_of_lt h)), ?_⟩
  rw [BitVec.toNat_ofNat, BitVec.toNat_ofNat, Nat.mod_eq_of_lt h, Nat.mod_eq_of_lt (remainder.trans x.isLt)]
  exact ⟨(Nat.div_add_mod' n x.toNat).symm, remainder⟩

/-- The number DIVXU divides (R215): Rd, or the pair. -/
def State.dividend (s : State) (rd : Reg) : Size → Nat
  | .byte => (s.reg rd).toNat
  | .word => (s.reg rd).toNat * 65536 + (s.reg (nextReg rd)).toNat

/-- Where DIVXU puts quotient and remainder (R215): the halves of Rd, or the pair. -/
def writeQuotient (rd : Reg) : (sz : Size) → BitVec sz.bits → BitVec sz.bits → State → State
  | .byte, q, r, t => t.setReg rd (r ++ q)
  | .word, q, r, t => t.setPair rd r q

section
variable (hp : sz = .word → isOddReg rd = false ∧ movesReg ea (nextReg rd) = false) (hm : movesReg ea rd = false)
  (ha : (s.place sz ea).aligned = true)
include hp hm ha

/-- Both forms of DIVXU, once no guard refuses them and the source is read. -/
theorem exec_divxu :
    exec (.divxu sz ea rd) s =
      finishDivide sz ea (divide sz.bits (s.dividend rd sz) (s.peek sz (s.place sz ea)).toNat) (writeQuotient rd sz)
        (s.preDecrement sz ea) := by
  cases sz with
  | byte =>
    rw [exec, execDivxu, divxuByte, if_neg (ne_true_of_eq_false hm), readEa_aligned s ha]
    simp only [preDecrement_reg_ne s .byte hm]
    rfl
  | word =>
    obtain ⟨hr, hn⟩ := hp rfl
    rw [exec, execDivxu, divxuWord, if_neg (ne_true_of_eq_false hr), if_neg (pair_not_moved hm hn), readEa_aligned s ha]
    simp only [preDecrement_reg_ne s .word hm, preDecrement_reg_ne s .word hn]
    rfl

theorem divxu_fits (hx : (s.peek sz (s.place sz ea)).toNat ≠ 0)
    (hq : s.dividend rd sz / (s.peek sz (s.place sz ea)).toNat < 2 ^ sz.bits) :
    ∃ q r : BitVec sz.bits,
      exec (.divxu sz ea rd) s =
        .next (((writeQuotient rd sz q r (s.preDecrement sz ea)).setFlags (testFlags q)).finish sz ea) ∧
      s.dividend rd sz = q.toNat * (s.peek sz (s.place sz ea)).toNat + r.toNat ∧
      r.toNat < (s.peek sz (s.place sz ea)).toNat := by
  obtain ⟨q, r, ok, divides, remainder⟩ := divide_fits hx hq
  exact ⟨q, r, by rw [exec_divxu hp hm ha, ok, finishDivide], divides, remainder⟩

theorem divxu_overflow (hx : (s.peek sz (s.place sz ea)).toNat ≠ 0)
    (hq : 2 ^ sz.bits ≤ s.dividend rd sz / (s.peek sz (s.place sz ea)).toNat) :
    Tests (.divxu sz ea rd) s sz ea divideOverflowFlags :=
  ⟨_, by rw [exec_divxu hp hm ha, divide_overflow hx hq, finishDivide], effect_setFlags_finish s sz ea _⟩

theorem divxu_byZero (hx : (s.peek sz (s.place sz ea)).toNat = 0)
    (hw : s.mem.wf = true) (he : odd (s.afterEa sz ea .r7) = false) :
    ∃ u t, Effect s u (s.afterEa sz ea) zeroDivideFlags [] ∧
      exec (.divxu sz ea rd) s = .next t ∧ Entered u t .zeroDivide u.zeroDividePc := by
  have effect := effect_setFlags_finish s sz ea zeroDivideFlags
  obtain ⟨t, ht, entered⟩ := entered_takeException
    (s := ((s.preDecrement sz ea).setFlags zeroDivideFlags).finish sz ea) .zeroDivide (State.zeroDividePc _)
    (by simpa using hw) (by rwa [effect.regs])
  exact ⟨_, t, effect, by rwa [exec_divxu hp hm ha, hx, divide_zero, finishDivide], entered⟩

end

/-- Settles O35, from the exact quotient and remainder. -/
theorem divideFits : Obligations.DivideFits := by
  refine ⟨fun ea rd s hm ha hx hq => ?byte, fun ea rd s hr hm hn ha hx hq => ?word⟩
  case byte =>
    obtain ⟨q, r, ht, divides, remainder⟩ := divxu_fits (sz := .byte) (by simp) hm ha hx hq
    exact ⟨_, q, r, ht, divides, remainder, effect_setReg_finish _ _ hm⟩
  case word =>
    obtain ⟨q, r, ht, divides, remainder⟩ := divxu_fits (sz := .word) (fun _ => ⟨hr, hn⟩) hm ha hx hq
    exact ⟨_, q, r, ht, divides, remainder, effect_setPair_finish _ _ _ hm hn⟩

/-- Settles O36: `finishDivide` in its two cases without a quotient. -/
theorem divideOverflowAndByZero : Obligations.DivideOverflowAndByZero := by
  intro sz ea rd s hp hm ha n x
  have dividend : n = s.dividend rd sz := by cases sz <;> rfl
  exact ⟨fun hx hq => divxu_overflow hp hm ha hx (dividend ▸ hq), divxu_byZero hp hm ha⟩

end Sys2Proof.Machine
end

section
/-! SUPPORT. Operands the spec refuses: odd register pairs, digits above 9, bit numbers beyond a byte, and the E clock
instructions on the H8/520 (spec/41_arithmetic.md R209, R212, spec/42_logic_shift_bit.md R270, spec/43_branch.md R302, R303,
spec/40_data_transfer.md R190, R191). -/

namespace Sys2Proof.Machine

variable {s : State} {ea : Ea} {r : Reg}

theorem withPair_odd {o : Outcome} (hr : isOddReg r = true) : withPair r o = .refused .oddRegisterPair := if_pos hr

theorem inMaximum_eq {d : Word} {o : Outcome} (hm : s.mode = .maximum) : inMaximum d s o = o := by rw [inMaximum, hm]

/-- The digits of a register's lower byte. -/
theorem toNat_readReg_byte (s : State) (q : Reg) : (s.readReg .byte q).toNat = (s.reg q).toNat % 256 :=
  BitVec.toNat_setWidth 8 (s.reg q)

theorem bcdValid_readReg_iff (s : State) (q : Reg) :
    bcdValid (s.readReg .byte q) = true ↔ (s.reg q).toNat % 256 / 16 ≤ 9 ∧ (s.reg q).toNat % 16 ≤ 9 := by
  rw [bcdValid_iff, toNat_readReg_byte, Nat.mod_mod_of_dvd _ (by decide : 16 ∣ 256)]

theorem digits_invalid {rs rd : Reg}
    (h : 9 < (s.reg rs).toNat % 256 / 16 ∨ 9 < (s.reg rs).toNat % 16 ∨
      9 < (s.reg rd).toNat % 256 / 16 ∨ 9 < (s.reg rd).toNat % 16) :
    ¬(bcdValid (s.readReg .byte rs) && bcdValid (s.readReg .byte rd)) = true := by
  rw [Bool.and_eq_true, bcdValid_readReg_iff, bcdValid_readReg_iff]
  omega

theorem withBit_byte {n : Nat} {t : State} (h : 8 ≤ n) :
    withBit .byte n t = .refused .bitNumberExceedsOperandSize := if_pos h

theorem withRegBit_byte {t : State} (hm : movesReg ea r = false) (h : 8 ≤ (s.reg r).toNat % 16) :
    withRegBit .byte r ea (s.bitNumber r) t = .refused .bitNumberExceedsOperandSize := by
  rw [withRegBit, if_neg (ne_true_of_eq_false hm), withBit_byte (by rwa [bitNumber_eq])]

theorem hasEClock_h8520 {c : Chip} (hc : c = .h8520) : ¬hasEClock c = true := by
  rw [hc]
  exact Bool.false_ne_true

/-- Settles O53: the guard of each form of instruction. -/
theorem operandsRefused : Obligations.OperandsRefused := by
  refine ⟨fun ea r s hr => ?pairs, fun rs rd s h => ?digits, fun ea n s hn => ?bits, fun ea r s hm hn => ?regBits,
    fun ea r s hc => ?clock⟩
  case pairs =>
    exact ⟨if_pos hr, if_pos hr, fun hm =>
      ⟨(inMaximum_eq hm).trans (withPair_odd hr), (inMaximum_eq hm).trans (withPair_odd hr)⟩⟩
  case digits => exact ⟨if_neg (digits_invalid h), if_neg (digits_invalid h)⟩
  case bits =>
    simp only [List.forall_mem_cons]
    exact ⟨withBit_byte hn, withBit_byte hn, withBit_byte hn, withBit_byte hn, List.forall_mem_nil _⟩
  case regBits =>
    simp only [List.forall_mem_cons]
    exact ⟨withRegBit_byte hm hn, withRegBit_byte hm hn, withRegBit_byte hm hn, withRegBit_byte hm hn,
      List.forall_mem_nil _⟩
  case clock => exact ⟨if_neg (hasEClock_h8520 hc), if_neg (hasEClock_h8520 hc)⟩

end Sys2Proof.Machine
end

section
/-! SUPPORT. Logic, and shifts and rotates by one bit (spec/42_logic_shift_bit.md R250 to R268): a shift is fixed by the bit
it takes in at one end, and the library's shifts, rotates and numbers are read bit by bit. -/

namespace Sys2Proof.Machine

/-! ### Logic -/

/-- Settles O38: the model's operations are those of the statement as they stand. -/
theorem logic : Obligations.Logic :=
  ⟨combines_of_exec (op := fun _ => aluAnd) (fun _ _ _ _ => rfl) fun _ _ _ _ => rfl,
    combines_of_exec (op := fun _ => aluOr) (fun _ _ _ _ => rfl) fun _ _ _ _ => rfl,
    combines_of_exec (op := fun _ => aluXor) (fun _ _ _ _ => rfl) fun _ _ _ _ => rfl,
    modifies_of_exec (op := fun _ => aluNot) (fun _ _ _ => rfl) fun _ _ _ => rfl⟩

/-! ### Shifts -/

theorem getLsbD_lowBit (b : Bool) {i : Nat} (hi : i < w) : (lowBit w b).getLsbD i = (decide (i = 0) && b) := by
  cases b with
  | false => simp [lowBit]
  | true => simp [lowBit, Nat.zero_lt_of_lt hi]

theorem getLsbD_highBit (b : Bool) {i : Nat} (hi : i < w) :
    (highBit w b).getLsbD i = (decide (i + 1 = w) && b) := by
  have top_place : w - 1 = i ↔ i + 1 = w := by omega
  have top_exists : w - 1 < w := by omega
  cases b with
  | false => simp [highBit]
  | true => simp [highBit, BitVec.getLsbD_twoPow, top_place, top_exists]

/-- A shift to the left is known by its bits: the one taken in, and each other from the place below. -/
theorem shiftLeft_eq {d r : BitVec w} {b : Bool} (v : Bool)
    (h : ∀ i, i < w → r.getLsbD i = if i = 0 then b else d.getLsbD (i - 1)) :
    shiftLeft d b v = (r, { n := r.msb, z := r == 0, v := v, c := d.msb }) := by
  have result : d <<< 1 ||| lowBit w b = r := by
    apply BitVec.eq_of_getLsbD_eq
    intro i hi
    rw [BitVec.getLsbD_or, BitVec.getLsbD_shiftLeft, getLsbD_lowBit b hi, h i hi]
    by_cases hz : i = 0 <;> simp [hz, hi]
  subst result
  rfl

/-- A shift to the right is known by its bits: the one taken in, and each other from the place above. -/
theorem shiftRight_eq {d r : BitVec w} {b : Bool}
    (h : ∀ i, i < w → r.getLsbD i = if i + 1 = w then b else d.getLsbD (i + 1)) :
    shiftRight d b = (r, { n := r.msb, z := r == 0, v := false, c := d.getLsbD 0 }) := by
  have result : d >>> 1 ||| highBit w b = r := by
    apply BitVec.eq_of_getLsbD_eq
    intro i hi
    rw [BitVec.getLsbD_or, BitVec.getLsbD_ushiftRight, getLsbD_highBit b hi, h i hi, Nat.add_comm 1 i]
    by_cases ht : i + 1 = w <;> simp [ht]
  subst result
  rfl

/-! ### The bits of the library's shifts and rotates -/

theorem getLsbD_shiftLeft_one (d : BitVec w) (i : Nat) (hi : i < w) :
    (d <<< 1).getLsbD i = if i = 0 then false else d.getLsbD (i - 1) := by
  rw [BitVec.getLsbD_shiftLeft]
  by_cases hz : i = 0 <;> simp [hz, hi]

theorem getLsbD_ushiftRight_one (d : BitVec w) (i : Nat) :
    (d >>> 1).getLsbD i = if i + 1 = w then false else d.getLsbD (i + 1) := by
  by_cases ht : i + 1 = w <;> simp [ht, Nat.add_comm 1 i]

theorem getLsbD_sshiftRight_one (d : BitVec w) (i : Nat) (hi : i < w) :
    (d.sshiftRight 1).getLsbD i = if i + 1 = w then d.msb else d.getLsbD (i + 1) := by
  have inside : i + 1 < w ↔ ¬i + 1 = w := by omega
  rw [BitVec.getLsbD_sshiftRight, decide_eq_false (Nat.not_le_of_lt hi), Bool.not_false, Bool.true_and, Nat.add_comm 1 i]
  simp only [inside, ite_not]

theorem getLsbD_rotateLeft_one (hw : 1 < w) (d : BitVec w) (i : Nat) (hi : i < w) :
    (d.rotateLeft 1).getLsbD i = if i = 0 then d.msb else d.getLsbD (i - 1) := by
  rw [BitVec.getLsbD_rotateLeft_of_le hw, BitVec.msb_eq_getLsbD_last]
  by_cases hz : i = 0 <;> simp [hz, hi]

theorem getLsbD_rotateRight_one (hw : 1 < w) (d : BitVec w) (i : Nat) (hi : i < w) :
    (d.rotateRight 1).getLsbD i = if i + 1 = w then d.getLsbD 0 else d.getLsbD (i + 1) := by
  rw [BitVec.getLsbD_rotateRight, Nat.mod_eq_of_lt hw]
  by_cases ht : i + 1 = w
  · simp [← ht]
  · have below : i < w - 1 := by omega
    simp [ht, below, Nat.add_comm 1 i]

/-- The operand with the carry below it, cut to the operand's width. -/
theorem getLsbD_double_add (d : BitVec w) (b : Bool) (i : Nat) (hi : i < w) :
    (BitVec.ofNat w (2 * d.toNat + b.toNat)).getLsbD i = if i = 0 then b else d.getLsbD (i - 1) := by
  rw [Nat.mul_comm, ← BitVec.toNat_concat, BitVec.ofNat_toNat, BitVec.getLsbD_setWidth, decide_eq_true hi, Bool.true_and,
    BitVec.getLsbD_concat]

/-- The operand with the carry above it, less its lowest bit. -/
theorem getLsbD_half_add (d : BitVec w) (b : Bool) (i : Nat) (hi : i < w) :
    (BitVec.ofNat w ((d.toNat + 2 ^ w * b.toNat) / 2)).getLsbD i = if i + 1 = w then b else d.getLsbD (i + 1) := by
  have joined : d.toNat + 2 ^ w * b.toNat = (BitVec.cons b d).toNat := by
    rw [BitVec.toNat_cons', Nat.shiftLeft_eq, Nat.add_comm, Nat.mul_comm]
  have halved : (BitVec.cons b d).toNat / 2 = (BitVec.cons b d >>> 1).toNat := (BitVec.toNat_ushiftRight _ 1).symm
  rw [joined, halved, BitVec.ofNat_toNat, BitVec.getLsbD_setWidth, decide_eq_true hi, Bool.true_and,
    BitVec.getLsbD_ushiftRight, BitVec.getLsbD_cons, Nat.add_comm 1 i]

/-- The sign after a shift to the left is the bit below the sign before it. -/
theorem msb_shiftLeft_one (hw : 1 < w) (d : BitVec w) : (d <<< 1).msb = d.getLsbD (w - 2) := by
  rw [BitVec.msb_shiftLeft, BitVec.getMsbD_eq_getLsbD, decide_eq_true hw, Bool.true_and, Nat.sub_sub]

theorem one_lt_size_bits (sz : Size) : 1 < sz.bits := by cases sz <;> decide

theorem aluShal_eq (hw : 1 < w) (d : BitVec w) (f : Flags) :
    aluShal d f = (d <<< 1, { n := (d <<< 1).msb, z := d <<< 1 == 0, v := d.msb ^^ (d <<< 1).msb, c := d.msb }) := by
  rw [aluShal, ← msb_shiftLeft_one hw]
  exact shiftLeft_eq _ (getLsbD_shiftLeft_one d)

/-- Settles O39: each is a read-modify-write, and its shift takes in the bit the statement's function has at that end. -/
theorem shiftAndRotate : Obligations.ShiftAndRotate := by
  refine ⟨?shal, ?shar, ?shll, ?shlr, ?rotl, ?rotr, ?rotxl, ?rotxr⟩
  case shal => exact modifies_of_exec (fun _ _ _ => rfl) fun sz => aluShal_eq (one_lt_size_bits sz)
  case shar => exact modifies_of_exec (fun _ _ _ => rfl) fun _ d _ => shiftRight_eq (getLsbD_sshiftRight_one d)
  case shll => exact modifies_of_exec (fun _ _ _ => rfl) fun _ d _ => shiftLeft_eq false (getLsbD_shiftLeft_one d)
  case shlr => exact modifies_of_exec (fun _ _ _ => rfl) fun _ d _ => shiftRight_eq fun i _ => getLsbD_ushiftRight_one d i
  case rotl =>
    exact modifies_of_exec (fun _ _ _ => rfl) fun sz d _ =>
      shiftLeft_eq false (getLsbD_rotateLeft_one (one_lt_size_bits sz) d)
  case rotr =>
    exact modifies_of_exec (fun _ _ _ => rfl) fun sz d _ =>
      shiftRight_eq (getLsbD_rotateRight_one (one_lt_size_bits sz) d)
  case rotxl => exact modifies_of_exec (fun _ _ _ => rfl) fun _ d f => shiftLeft_eq false (getLsbD_double_add d f.c)
  case rotxr => exact modifies_of_exec (fun _ _ _ => rfl) fun _ d f => shiftRight_eq (getLsbD_half_add d f.c)

end Sys2Proof.Machine
end

section
/-! SUPPORT. Bit manipulation (spec/42_logic_shift_bit.md R270 to R274): BSET, BCLR and BNOT put one bit of the operand, and
the forms with the number in a register are those with an immediate number once their guard passes. -/

namespace Sys2Proof.Machine

variable {s t : State} {sz : Size} {ea : Ea} {n : Nat}

/-- The instruction puts bit n of its operand to a value, keeps the other bits, and sets Z from the bit before. -/
def PutsBit (i : Instr) (s : State) (sz : Size) (ea : Ea) (n : Nat) (new : Bool) : Prop :=
  ∃ v, StoresValue i s sz ea v (bitFlags (s.peek sz (s.place sz ea)) n s.flags) ∧
    ∀ k, k < sz.bits → v.getLsbD k = if k = n then new else (s.peek sz (s.place sz ea)).getLsbD k

/-- What the four instructions of one form do with bit n of their operand. -/
def BitForms (btst bset bclr bnot : Instr) (s : State) (sz : Size) (ea : Ea) (n : Nat) : Prop :=
  Tests btst s sz ea (bitFlags (s.peek sz (s.place sz ea)) n s.flags) ∧
    (ea.isPlace = true → s.mem.wf = true →
      PutsBit bset s sz ea n true ∧ PutsBit bclr s sz ea n false ∧
        PutsBit bnot s sz ea n (!(s.peek sz (s.place sz ea)).getLsbD n))

theorem withBit_of_lt (hn : n < sz.bits) : withBit sz n t = .next t := if_neg (Nat.not_le_of_lt hn)

theorem withRegBit_of_lt {rs : Reg} (hm : movesReg ea rs = false) (hn : n < sz.bits) :
    withRegBit sz rs ea n t = .next t := (if_neg (ne_true_of_eq_false hm)).trans (withBit_of_lt hn)

/-- A read-modify-write that puts bit n to a value, which may depend on the operand. -/
theorem putsBit_of_modifyEa {i : Instr} {new : BitVec sz.bits → Bool} (hn : n < sz.bits)
    (hi : exec i s = .next (modifyEa sz ea (fun d f => (putBit d n (new d), bitFlags d n f)) s))
    (ha : (s.place sz ea).aligned = true) (hp : ea.isPlace = true) (hw : s.mem.wf = true) :
    PutsBit i s sz ea n (new (s.peek sz (s.place sz ea))) := by
  refine ⟨_, ⟨_, hi, stored_modifyEa _ hp hw ha⟩, fun k _ => ?_⟩
  rw [getLsbD_putBit]
  simp only [hn, and_true]

/-- The four instructions of one form, once their guard has passed. -/
theorem bitForms_of_exec {btst bset bclr bnot : Instr} (hn : n < sz.bits) (ha : (s.place sz ea).aligned = true)
    (htst : exec btst s = .next (testEa sz ea (fun d f => bitFlags d n f) s))
    (hset : exec bset s = .next (modifyEa sz ea (aluBset n) s))
    (hclr : exec bclr s = .next (modifyEa sz ea (aluBclr n) s))
    (hnot : exec bnot s = .next (modifyEa sz ea (aluBnot n) s)) : BitForms btst bset bclr bnot s sz ea n :=
  ⟨tests_of_testEa htst ha, fun hp hw =>
    ⟨putsBit_of_modifyEa (new := fun _ => true) hn hset ha hp hw,
      putsBit_of_modifyEa (new := fun _ => false) hn hclr ha hp hw,
      putsBit_of_modifyEa (new := fun d => !d.getLsbD n) hn hnot ha hp hw⟩⟩

/-- Settles O40: both forms pass their guard, the register form with the low four bits of Rs (`bitNumber_eq`). -/
theorem bits : Obligations.Bits := by
  intro sz ea s ha
  refine ⟨fun n hn => ?immediate, fun rs hm hn => ?register⟩
  case immediate =>
    exact bitForms_of_exec hn ha (withBit_of_lt hn) (withBit_of_lt hn) (withBit_of_lt hn) (withBit_of_lt hn)
  case register =>
    rw [← bitNumber_eq] at hn ⊢
    exact bitForms_of_exec hn ha (withRegBit_of_lt hm hn) (withRegBit_of_lt hm hn) (withRegBit_of_lt hm hn)
      (withRegBit_of_lt hm hn)

end Sys2Proof.Machine
end

section
/-! SUPPORT. The conditions of Bcc after a comparison (spec/43_branch.md R291): C says that the minuend is the lower one as
an unsigned number, N against V that it is as a signed one. -/

namespace Sys2Proof.Machine

/-! ### Codes -/

theorem decode_bcc8 (cc : BitVec 4) (d : Byte) (rest : List Byte) :
    decode (opNibble 0x2 cc :: d :: rest) = .instr (.bcc8 (Cond.ofBits cc) d) 2 := by
  have h := decodeOfEncode (.bcc8 (Cond.ofBits cc) d) rest rfl
  rwa [encode, Cond.toBits_ofBits] at h

theorem decode_bcc16 (cc : BitVec 4) (hi lo : Byte) (rest : List Byte) :
    decode (opNibble 0x3 cc :: hi :: lo :: rest) = .instr (.bcc16 (Cond.ofBits cc) (hi ++ lo)) 3 := by
  have h := decodeOfEncode (.bcc16 (Cond.ofBits cc) (hi ++ lo)) rest rfl
  rwa [encode, Cond.toBits_ofBits, wordBytes, hiByte_append, loByte_append] at h

/-! ### Comparison -/

/-- What the condition codes of a comparison say of the source and the register. -/
structure Compared (f : Flags) (x d : BitVec w) : Prop where
  equal : f.z = true ↔ x = d
  below : f.c = true ↔ d.toNat < x.toNat
  less : (f.n ^^ f.v) = true ↔ d.toInt < x.toInt

/-- The order of signed numbers is that of unsigned ones, but for operands of different signs. -/
theorem subFlags_n_xor_v (hw : 0 < w) (x d : BitVec w) :
    ((subFlags x d false).2.n ^^ (subFlags x d false).2.v) = d.slt x := by
  have borrow : (subFlags x d false).2.c = d.ult x := by
    rw [Bool.eq_iff_iff, subFlags_c_iff hw, BitVec.ult_iff_lt]
    exact Iff.rfl
  rw [BitVec.slt_eq_ult, ← borrow]
  simp only [subFlags, top]
  cases x.msb <;> cases d.msb <;> simp

theorem compared_subFlags (hw : 0 < w) (x d : BitVec w) : Compared (subFlags x d false).2 x d where
  equal := by rw [subFlags_z_iff, subFlags_no_borrow, sub_eq_zero, eq_comm]
  below := subFlags_c_iff hw x d false
  less := by rw [subFlags_n_xor_v hw, BitVec.slt_iff_toInt_lt]

/-- What a flag that says "lower" and one that says "equal" make of an order: higher, not higher, and not lower. -/
theorem order_of_flags {α : Type} [LinearOrder α] {a b : α} {lower equal : Bool} (hl : lower = true ↔ b < a)
    (he : equal = true ↔ a = b) :
    ((!(lower || equal)) = true ↔ a < b) ∧ ((lower || equal) = true ↔ b ≤ a) ∧ ((!lower) = true ↔ a ≤ b) := by
  refine ⟨?higher, ?notHigher, ?notLower⟩
  case higher =>
    rw [Bool.not_eq_true', ← Bool.not_eq_true, Bool.or_eq_true, hl, he, not_or, not_lt, lt_iff_le_and_ne]
  case notHigher => rw [Bool.or_eq_true, hl, he, le_iff_lt_or_eq, eq_comm (a := a)]
  case notLower => rw [Bool.not_eq_true', ← Bool.not_eq_true, hl, not_lt]

/-- Settles O32: the codes by the round trip of the decoder, the orders from the flags of the comparison. -/
theorem bccConditions : Obligations.BccConditions := by
  refine ⟨decode_bcc8, decode_bcc16, fun f => ?conditions, fun sz x d => ?compared⟩
  case conditions => exact ⟨rfl, rfl, rfl, rfl, rfl, rfl, rfl, rfl, rfl, rfl, rfl, rfl, rfl, rfl, rfl, rfl⟩
  case compared =>
    have compared := compared_subFlags (size_bits_pos sz) x d
    obtain ⟨bhi, bls, bcc⟩ := order_of_flags compared.below (compared.equal.trans BitVec.toNat_inj.symm)
    obtain ⟨bgt, ble, bge⟩ := order_of_flags compared.less (compared.equal.trans BitVec.toInt_inj.symm)
    rw [Bool.or_comm] at bgt ble
    exact ⟨bhi, bls, bcc, compared.below, bge, compared.less, bgt, ble⟩

end Sys2Proof.Machine
end

section
/-! SUPPORT. Branches within the page: Bcc, SCB, jumps, calls and returns (spec/43_branch.md R290 to R299). A call is one
push and a jump, a return moves R7 past the word it takes. -/

namespace Sys2Proof.Machine

variable {s t u : State}

theorem next_congr (h : t = u) : (.next t : Outcome) = .next u := by rw [h]

/-! ### Branches -/

theorem branchIf_eq (s : State) (b : Bool) (d : Word) :
    (if b then s.branch d else s) = { s with pc := if b then s.pc + d else s.pc } := by
  cases b with
  | false => rfl
  | true => rfl

/-- The counter becomes -1 where it was 0. -/
theorem countAndBranch_eq (s : State) (r : Reg) (d : Byte) :
    s.countAndBranch r d =
      { s.setReg r (s.reg r - 1) with pc := if s.reg r = 0 then s.pc else s.pc + d.signExtend 16 } := by
  have ended : s.reg r - 1 = 0xFFFF ↔ s.reg r = 0 := by bv_omega
  simp only [State.countAndBranch, reg_setReg_self, ended]
  split
  next => rfl
  next => rfl

theorem exec_scbNE (r : Reg) (d : Byte) (s : State) :
    exec (.scbNE r d) s = .next (if s.flags.z then s.countAndBranch r d else s) := rfl

theorem exec_scbEQ (r : Reg) (d : Byte) (s : State) :
    exec (.scbEQ r d) s = .next (if s.flags.z then s else s.countAndBranch r d) := rfl

theorem exec_sleep (s : State) :
    exec .sleep s = .next { s with cpuState := if s.ssby then .softwareStandby else .sleep } := rfl

/-- Settles O41: Bcc by `branchIf_eq`, SCB by `countAndBranch_eq`, SLEEP by the value of SSBY. -/
theorem branchJumpSleep : Obligations.BranchJumpSleep := by
  refine ⟨fun cc d s => ?bcc8, fun cc d s => ?bcc16, fun r d s => ⟨?scbF, ?scbNE, ?scbEQ⟩, fun _ _ => rfl, fun _ _ => rfl,
    fun _ _ _ => rfl, fun _ _ _ => rfl, fun _ => rfl, fun s hs => ?sleep, fun s hs => ?standby⟩
  case bcc8 => exact next_congr (branchIf_eq s (s.flags.holds cc) _)
  case bcc16 => exact next_congr (branchIf_eq s (s.flags.holds cc) d)
  case scbF => exact next_congr (countAndBranch_eq s r d)
  case scbNE =>
    rw [exec_scbNE, countAndBranch_eq]
    cases s.flags.z with
    | false => rfl
    | true => rfl
  case scbEQ => rw [exec_scbEQ, countAndBranch_eq]
  case sleep => rw [exec_sleep, hs, if_neg Bool.false_ne_true]
  case standby => rw [exec_sleep, hs, if_pos rfl]

/-! ### Calls -/

/-- A row of pushes and a jump, in the page or out of it. -/
theorem Pushes.transferred {ws : List Word} (h : Pushes s t ws) (c : Byte) (v : Word) :
    Transferred s (t.pageJump c v) (s.withSp (s.reg .r7 - BitVec.ofNat 16 (2 * ws.length))) c v
      (s.pushBytes ws.length) :=
  ⟨h.regs, rfl, h.sr, h.bytes, { h.control with cp := rfl }⟩

theorem called_call (hw : s.mem.wf = true) (he : odd (s.reg .r7) = false) (v : Word) : Called s (s.call v) v := by
  have pushed : Pushes s (s.push16 s.pc) [s.pc] := (pushes_nil hw).push16 s.pc he (by decide)
  have samePage : s.call v = (s.push16 s.pc).pageJump s.cp v := by
    rw [← pushed.control.cp]
    rfl
  rw [samePage]
  exact ⟨pushed.transferred s.cp v, pushed.words 0 s.pc rfl⟩

/-- BSR adds its displacement to the PC it pushed, so its target too is known before the push. -/
theorem push16_branch_eq_call (s : State) (d : Word) : (s.push16 s.pc).branch d = s.call (s.pc + d) := by
  rw [State.branch, (ordinary_push16 s s.pc).pc, State.call, State.jump]

/-! ### Returns -/

/-- R7 moved, and a jump, in the page or out of it. -/
theorem transferred_setReg_r7 (s : State) (c : Byte) (v w : Word) :
    Transferred s ((s.pageJump c v).setReg .r7 w) (s.withSp w) c v [] :=
  ⟨fun r => reg_setReg (s.pageJump c v) .r7 r w, rfl, rfl, fun _ _ => rfl, by constructor <;> rfl⟩

theorem popPc_even (he : odd (s.reg .r7) = false) :
    s.popPc = (s.pageJump s.cp (s.stackWord 0)).setReg .r7 (s.reg .r7 + 2) := by
  rw [State.popPc, pop16_stackWord he]
  rfl

theorem adjustSp_setReg_r7 (s : State) (w d : Word) : (s.setReg .r7 w).adjustSp d = s.setReg .r7 (w + d) := rfl

/-- RTS, and RTD, which moves R7 by its immediate as well. -/
theorem transferred_popPc (he : odd (s.reg .r7) = false) :
    Transferred s s.popPc (s.withSp (s.reg .r7 + 2)) s.cp (s.stackWord 0) [] ∧
      ∀ d, Transferred s (s.popPc.adjustSp d) (s.withSp (s.reg .r7 + 2 + d)) s.cp (s.stackWord 0) [] := by
  rw [popPc_even he]
  exact ⟨transferred_setReg_r7 s _ _ _, fun d => transferred_setReg_r7 s _ _ _⟩

/-- Settles O42: each call is `called_call` with its own target, each return `transferred_popPc`. -/
theorem callsAndReturns : Obligations.CallsAndReturns := by
  intro s he
  obtain ⟨rts, rtd⟩ := transferred_popPc he
  refine ⟨fun hw => ?calls, ⟨_, rfl, rts⟩, fun d => ⟨_, rfl, rtd _⟩, fun d => ⟨_, rfl, rtd d⟩⟩
  case calls =>
    have called := called_call hw he
    exact ⟨fun d => ⟨_, next_congr (push16_branch_eq_call s _), called _⟩,
      fun d => ⟨_, next_congr (push16_branch_eq_call s d), called _⟩, fun a => ⟨_, rfl, called a⟩,
      fun r => ⟨_, rfl, called _⟩, fun r d => ⟨_, rfl, called _⟩, fun r d => ⟨_, rfl, called _⟩⟩

end Sys2Proof.Machine
end

section
/-! SUPPORT. Page-crossing branches in maximum mode (spec/43_branch.md R301 to R305), and returns after the calls they
belong to (R310). -/

namespace Sys2Proof.Machine

variable {s t u : State}

/-! ### Page-crossing branches -/

theorem withPair_even {o : Outcome} {r : Reg} (hr : isOddReg r = false) : withPair r o = o :=
  if_neg (ne_true_of_eq_false hr)

theorem pageCalled_pageCall (hw : s.mem.wf = true) (he : odd (s.reg .r7) = false) (c : Byte) (v : Word) :
    PageCalled s (s.pageCall c v) c v := by
  have pcPushed : Pushes s (s.push16 s.pc) [s.pc] := (pushes_nil hw).push16 s.pc he (by decide)
  have pushed := pcPushed.pushByte (s.push16 s.pc).cp he (by simp)
  refine ⟨pushed.transferred c v, pushed.words 0 s.pc rfl, ?_⟩
  calc loByte ((s.pageCall c v).wordAt (s.pushSlot 2))
      = loByte (Config.freeByte (s.push16 s.pc).draws ++ (s.push16 s.pc).cp) :=
        congrArg loByte (pushed.words 1 _ rfl)
    _ = s.cp := by rw [loByte_append, pcPushed.control.cp]

theorem popCp_even (he : odd (s.reg .r7) = false) :
    s.popCp = (s.pageJump (loByte (s.stackWord 0)) s.pc).setReg .r7 (s.reg .r7 + 2) := by
  rw [State.popCp, pop16_stackWord he]
  rfl

/-- The words on the stack below one that has been popped, wherever execution goes on. -/
theorem stackWord_popped (s : State) (c : Byte) (v : Word) (k : Nat) :
    ((s.pageJump c v).setReg .r7 (s.reg .r7 + 2)).stackWord k = s.stackWord (k + 1) :=
  stackWord_succ (s := s) (t := (s.pageJump c v).setReg .r7 (s.reg .r7 + 2)) rfl rfl rfl (reg_setReg_self _ _ _) k

theorem popCp_popPc_even (he : odd (s.reg .r7) = false) :
    s.popCp.popPc = (s.pageJump (loByte (s.stackWord 0)) (s.stackWord 1)).setReg .r7 (s.reg .r7 + 4) := by
  have even : odd (s.popCp.reg .r7) = false := by
    rw [popCp_even he, reg_setReg_self]
    exact even_add_two he
  rw [popPc_even even, popCp_even he, stackWord_popped, reg_setReg_self, BitVec.add_assoc]
  rfl

/-- PRTS, and PRTD, which moves R7 by its immediate as well. -/
theorem transferred_popCp_popPc (he : odd (s.reg .r7) = false) :
    Transferred s s.popCp.popPc (s.withSp (s.reg .r7 + 4)) (loByte (s.stackWord 0)) (s.stackWord 1) [] ∧
      ∀ d, Transferred s (s.popCp.popPc.adjustSp d) (s.withSp (s.reg .r7 + 4 + d)) (loByte (s.stackWord 0))
        (s.stackWord 1) [] := by
  rw [popCp_popPc_even he]
  exact ⟨transferred_setReg_r7 s _ _ _, fun d => transferred_setReg_r7 s _ _ _⟩

/-- Settles O43: in maximum mode the guards pass, and what is left is a jump, `pageCalled_pageCall` or
`transferred_popCp_popPc`. -/
theorem pageBranches : Obligations.PageBranches := by
  intro s hm
  refine ⟨fun p a => inMaximum_eq hm, fun r hr => (inMaximum_eq hm).trans (withPair_even hr), fun he => ?stack⟩
  case stack =>
    obtain ⟨prts, prtd⟩ := transferred_popCp_popPc he
    exact ⟨fun hw p a => ⟨_, inMaximum_eq hm, pageCalled_pageCall hw he p a⟩,
      fun hw r hr => ⟨_, (inMaximum_eq hm).trans (withPair_even hr), pageCalled_pageCall hw he _ _⟩,
      ⟨_, inMaximum_eq hm, prts⟩, fun d => ⟨_, inMaximum_eq hm, prtd _⟩, fun d => ⟨_, inMaximum_eq hm, prtd d⟩⟩

/-! ### A return after its call -/

/-- The second instruction undoes the first, but for the bytes of memory the first stored to. -/
def Undoes (s : State) (call ret : Instr) : Prop :=
  ∃ t u, exec call s = .next t ∧ exec ret t = .next u ∧ u.pc = s.pc ∧ u.cp = s.cp ∧ u.sr = s.sr ∧
    ∀ r, u.reg r = s.reg r

/-- After the words pushed by a call, word k of the stack is the one pushed j-th, k words having been pushed after it. -/
theorem Transferred.stackWord {c : Byte} {v : Word} {bytes : List Addr} {j k : Nat}
    (h : Transferred s t (s.withSp (s.reg .r7 - BitVec.ofNat 16 (2 * (j + k)))) c v bytes) :
    t.stackWord k = t.wordAt (s.pushSlot j) := by
  have slot : t.reg .r7 + BitVec.ofNat 16 (2 * k) = s.reg .r7 - BitVec.ofNat 16 (2 * j) := by
    rw [h.regs, State.withSp, if_pos rfl, Nat.mul_add, BitVec.ofNat_add, ← word_sub_sub, BitVec.sub_add_cancel]
  rw [State.stackWord, slot, State.pushSlot, State.phys, State.phys, h.control.mode, h.control.tp]

/-- A return to the PC and CP of a call that moves R7 back up as far as the call moved it down. -/
theorem undoes_of_transferred {call ret : Instr} {n v : Word} {c : Byte} {bytes bytes' : List Addr}
    (hc : exec call s = .next t) (hr : exec ret t = .next u)
    (called : Transferred s t (s.withSp (s.reg .r7 - n)) c v bytes)
    (returned : Transferred t u (t.withSp (t.reg .r7 + n)) s.cp s.pc bytes') : Undoes s call ret := by
  refine ⟨t, u, hc, hr, returned.pc, returned.control.cp, returned.sr.trans called.sr, fun r => ?_⟩
  rw [returned.regs, State.withSp]
  split
  next h7 => rw [called.regs, State.withSp, if_pos rfl, BitVec.sub_add_cancel, h7]
  next h7 => rw [called.regs, State.withSp, if_neg h7]

/-- R7 stays even through a call. -/
theorem Transferred.even {c : Byte} {v n : Word} {bytes : List Addr}
    (h : Transferred s t (s.withSp (s.reg .r7 - n)) c v bytes) (he : odd (s.reg .r7) = false) (hn : odd n = false) :
    odd (t.reg .r7) = false := by
  rw [h.regs, State.withSp, if_pos rfl]
  rw [even_iff] at he hn ⊢
  bv_omega

theorem undoes_of_called {call : Instr} {v : Word} (he : odd (s.reg .r7) = false)
    (h : ∃ t, exec call s = .next t ∧ Called s t v) : Undoes s call .rts := by
  obtain ⟨t, hc, called⟩ := h
  obtain ⟨returned, _⟩ := transferred_popPc (called.transferred.even he rfl)
  rw [called.transferred.stackWord (j := 1) (k := 0), called.saved, called.transferred.control.cp] at returned
  exact undoes_of_transferred hc rfl called.transferred returned

theorem undoes_of_pageCalled {call : Instr} {c : Byte} {v : Word} (hm : s.mode = .maximum)
    (he : odd (s.reg .r7) = false) (h : ∃ t, exec call s = .next t ∧ PageCalled s t c v) : Undoes s call .prts := by
  obtain ⟨t, hc, called⟩ := h
  obtain ⟨returned, _⟩ := transferred_popCp_popPc (called.transferred.even he rfl)
  rw [called.transferred.stackWord (j := 2) (k := 0), called.cpSaved,
    called.transferred.stackWord (j := 1) (k := 1), called.pcSaved] at returned
  exact undoes_of_transferred hc (inMaximum_eq (called.transferred.control.mode.trans hm)) called.transferred returned

/-- Settles O44, from what O42 and O43 say of the calls. -/
theorem returnUndoesCall : Obligations.ReturnUndoesCall := by
  intro s hw he
  obtain ⟨calls, _⟩ := callsAndReturns s he
  obtain ⟨bsr8, bsr16, jsrAbs, jsrInd, jsrDisp8, jsrDisp16⟩ := calls hw
  refine ⟨fun d => undoes_of_called he (bsr8 d), fun d => undoes_of_called he (bsr16 d),
    fun a => undoes_of_called he (jsrAbs a), fun r => undoes_of_called he (jsrInd r),
    fun r d => undoes_of_called he (jsrDisp8 r d), fun r d => undoes_of_called he (jsrDisp16 r d), fun hm => ?pages⟩
  case pages =>
    obtain ⟨_, _, onStack⟩ := pageBranches s hm
    obtain ⟨pjsrAbs, pjsrReg, _⟩ := onStack he
    exact ⟨fun p a => undoes_of_pageCalled hm he (pjsrAbs hw p a),
      fun r hr => undoes_of_pageCalled hm he (pjsrReg hw r hr)⟩

end Sys2Proof.Machine
end

section
/-! SUPPORT. LDC, STC, ANDC, ORC and XORC (spec/44_system_control.md R330, R336 to R341): a write to a control register, said
once for the six registers. -/

namespace Sys2Proof.Machine

variable {s t u : State} {sz : Size} {ea : Ea} {cr : ControlReg} {v sr : Word}

theorem readsControl_readCr (s : State) : ReadsControl s := ⟨rfl, rfl, rfl, rfl, rfl, rfl⟩

/-! ### Writes -/

/-- A write to CCR as two masks on words. -/
theorem setCcr_sr_masks (s : State) (v : Word) :
    (s.setCcr (loByte v)).sr = (s.sr &&& 0xFF00) ||| (v &&& 0x000F) := by
  have upper : ∀ k < 16, (0xFF00 : Word).getLsbD k = decide (8 ≤ k) := by decide
  have lower : ∀ k < 16, (0x000F : Word).getLsbD k = decide (k < 4) := by decide
  apply BitVec.eq_of_getLsbD_eq
  intro k hk
  rw [getLsbD_setCcr s (loByte v) hk, BitVec.getLsbD_or, BitVec.getLsbD_and, BitVec.getLsbD_and, upper k hk, lower k hk]
  split_ifs with h4 h8
  · have low : (loByte v).getLsbD k = v.getLsbD k := by
      rw [loByte, BitVec.getLsbD_extractLsb', decide_eq_true (by omega), Bool.true_and, Nat.zero_add]
    simp [low, h4, show ¬8 ≤ k by omega]
  · simp [h4, show ¬8 ≤ k by omega]
  · simp [h4, show 8 ≤ k by omega]

theorem writeCr_sr (s : State) (cr : ControlReg) (v : Word) : (s.writeCr cr v).sr = s.srAfter cr v := by
  cases cr with
  | ccr => exact setCcr_sr_masks s v
  | sr | br | ep | dp | tp => rfl

theorem controlWritten_writeCr (s : State) (cr : ControlReg) (v : Word) :
    ControlWritten s (s.writeCr cr v).deferred cr v (s.srAfter cr v) s.reg := by
  refine ⟨writeCr_sr s cr v, fun r => ?regs, ?pc, fun a _ => ?memory, ?control⟩
  case regs | pc | memory => cases cr <;> rfl
  case control => cases cr <;> constructor <;> rfl

/-! ### LDC and STC -/

theorem SameControl.withControl (h : SameControl s t) (cr : ControlReg) (b : Byte) :
    SameControl (s.withControl cr b) (t.withControl cr b) :=
  { h with
    br := by simp only [State.withControl, h.br]
    ep := by simp only [State.withControl, h.ep]
    dp := by simp only [State.withControl, h.dp]
    tp := by simp only [State.withControl, h.tp]
    defer := rfl }

/-- A control register written between resolving an EA and finishing it. -/
theorem ControlWritten.finish
    (h : ControlWritten (s.preDecrement sz ea) u cr v sr (s.preDecrement sz ea).reg) :
    ControlWritten s (u.finish sz ea) cr v sr (s.afterEa sz ea) := by
  refine ⟨?sr, fun r => reg_finish_keep h.regs r, ?pc, fun a ha => ?memory, ?control⟩
  case sr => rw [finish_sr, h.sr]
  case pc => rw [finish_pc, h.pc, preDecrement_pc]
  case memory =>
    calc (u.finish sz ea).readByte a
      _ = u.readByte a := by rw [State.readByte, finish_mem, State.readByte]
      _ = (s.preDecrement sz ea).readByte a := h.memory a ha
      _ = s.readByte a := sameMemory_preDecrement s sz ea a ha
  case control =>
    exact (((sameControl_preDecrement s sz ea).withControl cr _).trans h.control).trans (sameControl_finish u sz ea)

theorem finish_deferred (s : State) (sz : Size) (ea : Ea) : (s.finish sz ea).deferred = s.deferred.finish sz ea := by
  cases ea <;> rfl

theorem srAfter_preDecrement (s : State) (sz : Size) (ea : Ea) (cr : ControlReg) (v : Word) :
    (s.preDecrement sz ea).srAfter cr v = s.srAfter cr v := by
  simp only [State.srAfter, preDecrement_sr]

theorem exec_ldc_aligned (ha : (s.place cr.size ea).aligned = true) :
    exec (.ldc ea cr) s =
      .next ((((s.preDecrement cr.size ea).writeCr cr
        ((s.peek cr.size (s.place cr.size ea)).setWidth 16)).deferred).finish cr.size ea) := by
  rw [exec, execLdc, readEa_aligned s ha, finish_deferred]

/-- Settles O45: LDC is `controlWritten_writeCr` inside its EA, STC a pure store that puts back the condition codes it
found. -/
theorem loadAndStoreControl : Obligations.LoadAndStoreControl := by
  refine ⟨readsControl_readCr, fun ea cr s ha => ⟨⟨_, exec_ldc_aligned ha, ?ldc⟩, fun hp hw => ?stc⟩⟩
  case ldc =>
    have written := (controlWritten_writeCr (s.preDecrement cr.size ea) cr
      ((s.peek cr.size (s.place cr.size ea)).setWidth 16)).finish
    rwa [srAfter_preDecrement] at written
  case stc => exact ⟨_, rfl, stored_storeEa _ _ hp hw ha⟩

/-! ### ANDC, ORC and XORC -/

theorem ControlWritten.setFlags {regs : Reg → Word} (h : ControlWritten s t cr v sr regs) (f : Flags) :
    ControlWritten s (t.setFlags f) cr v (srWithFlags sr f) regs :=
  ⟨by rw [setFlags_sr, h.sr], h.regs, h.pc, h.memory, h.control.trans (sameControl_setFlags t f)⟩

/-- A logic operation on SR or CCR writes the condition codes with the rest of it; on the others they follow the result. -/
theorem controlWritten_controlLogic (s : State) (cr : ControlReg) (v : Word) :
    ControlWritten s (s.controlLogic cr v) cr v
      (if cr = .sr ∨ cr = .ccr then s.srAfter cr v else srWithFlags s.sr (movFlags (loByte v) s.flags)) s.reg := by
  have written := controlWritten_writeCr s cr v
  cases cr with
  | sr | ccr => exact written
  | br | ep | dp | tp => exact written.setFlags _

/-- Settles O46: the three differ only in the word they write. -/
theorem controlLogic : Obligations.ControlLogic := by
  refine ⟨readsControl_readCr, fun cr imm s => ⟨?andc, ?orc, ?xorc⟩⟩
  case andc | orc | xorc => exact ⟨_, rfl, controlWritten_controlLogic s cr _⟩

end Sys2Proof.Machine
end

section
/-! SUPPORT. TRAPA, TRAP/VS and RTE (spec/44_system_control.md R331 to R333): the sequence of an exception, and the way back
from one. -/

namespace Sys2Proof.Machine

theorem exec_trapVS (s : State) :
    exec .trapVS s = if s.flags.v then s.takeException .trapVS s.pc else .next s := rfl

/-- Settles O47: both traps are `entered_takeException`. -/
theorem traps : Obligations.Traps := by
  intro s hw he
  refine ⟨fun v => entered_takeException (.trapA v) s.pc hw he, fun hv => ?set, fun hv => ?clear⟩
  case set =>
    rw [exec_trapVS, if_pos hv]
    exact entered_takeException .trapVS s.pc hw he
  case clear => rw [exec_trapVS, if_neg (ne_true_of_eq_false hv)]

theorem returnFromException_minimum {s : State} (hm : s.mode = .minimum) (he : odd (s.reg .r7) = false) :
    s.returnFromException =
      { s.setReg .r7 (s.reg .r7 + 4) with sr := s.stackWord 0 &&& srMask, pc := s.stackWord 1, defer := true } := by
  rw [returnFromException_even he, hm]

theorem returnFromException_maximum {s : State} (hm : s.mode = .maximum) (he : odd (s.reg .r7) = false) :
    s.returnFromException =
      { s.setReg .r7 (s.reg .r7 + 6) with
        sr := s.stackWord 0 &&& srMask, cp := loByte (s.stackWord 1), pc := s.stackWord 2, defer := true } := by
  rw [returnFromException_even he, hm]

theorem minimum_or_maximum (m : Mode) : m = .minimum ∨ m = .maximum := by
  cases m with
  | minimum => exact .inl rfl
  | maximum => exact .inr rfl

/-- Settles O49, one mode at a time: R7 is past the words taken, and nothing else but SR, CP, PC and the hold is written. -/
theorem returnFromException : Obligations.ReturnFromException := by
  intro s he
  refine ⟨_, rfl, ?_⟩
  obtain hm | hm := minimum_or_maximum s.mode
  · have other : s.mode ≠ .maximum := by rw [hm]; decide
    rw [returnFromException_minimum hm he]
    refine ⟨rfl, fun _ _ => rfl, fun r => ?regs, fun _ => ⟨rfl, by constructor <;> rfl⟩, fun h => absurd h other⟩
    case regs => rw [hm]; exact reg_setReg s .r7 r _
  · have other : s.mode ≠ .minimum := by rw [hm]; decide
    rw [returnFromException_maximum hm he]
    refine ⟨rfl, fun _ _ => rfl, fun r => ?regs, fun h => absurd h other, fun _ => ⟨rfl, by constructor <;> rfl⟩⟩
    case regs => rw [hm]; exact reg_setReg s .r7 r _

end Sys2Proof.Machine
end

section
/-! SUPPORT. LINK and UNLK (spec/44_system_control.md R343, R344): LINK is one push and two moves of registers, UNLK one pop
from where R6 points. -/

namespace Sys2Proof.Machine

variable {s t u : State}

/-! ### LINK -/

/-- The registers after LINK: R6 at the word pushed, R7 the immediate away from it. -/
def State.linkedRegs (s : State) (d : Word) (r : Reg) : Word :=
  if r = .r7 then s.reg .r7 - 2 + d else if r = .r6 then s.reg .r7 - 2 else s.reg r

theorem reg_link (pushed : Pushes s (s.push16 (s.reg .r6)) [s.reg .r6]) (d : Word) (r : Reg) :
    (s.link d).reg r = s.linkedRegs d r := by
  have sp : (s.push16 (s.reg .r6)).reg .r7 = s.reg .r7 - 2 := pushed.regs .r7
  have fp : ((s.push16 (s.reg .r6)).setReg .r6 (s.reg .r7 - 2)).reg .r7 = s.reg .r7 - 2 :=
    (reg_setReg_ne _ _ (by decide)).trans sp
  rw [State.link, State.linkedRegs, sp, fp, reg_setReg, reg_setReg]
  split_ifs with h7 h6
  · rfl
  · rfl
  · rw [pushed.regs, State.withSp, if_neg h7]

/-- The effect of LINK: R6 is saved where R6 points afterwards. -/
structure Linked (s t : State) (d : Word) : Prop where
  effect : Effect s t (s.linkedRegs d) s.flags (s.pushBytes 1)
  saved : t.wordAt (s.pushSlot 1) = s.reg .r6

theorem linked_link (hw : s.mem.wf = true) (he : odd (s.reg .r7) = false) (d : Word) : Linked s (s.link d) d := by
  have pushed : Pushes s (s.push16 (s.reg .r6)) [s.reg .r6] := (pushes_nil hw).push16 _ he (by decide)
  have moved : SameControl (s.push16 (s.reg .r6)) (s.link d) :=
    (sameControl_setReg _ _ _).trans (sameControl_setReg _ _ _)
  exact ⟨⟨reg_link pushed d, flagsBecome_same pushed.sr, pushed.pc, pushed.bytes, pushed.control.trans moved⟩,
    pushed.words 0 _ rfl⟩

/-! ### UNLK -/

/-- The registers after UNLK: R6 the word it pointed to, R7 past that word. -/
def State.unlinkedRegs (s : State) (r : Reg) : Word :=
  if r = .r7 then s.reg .r6 + 2 else if r = .r6 then s.wordAt (s.phys s.tp (s.reg .r6)) else s.reg r

theorem exec_unlk_even (he : odd (s.reg .r6) = false) :
    exec .unlk s = .next ((s.setReg .r7 (s.reg .r6 + 2)).setReg .r6 (s.wordAt (s.phys s.tp (s.reg .r6)))) := by
  have even : odd ((s.setReg .r7 (s.reg .r6)).reg .r7) = false := by rwa [reg_setReg_self]
  rw [exec, execUnlk, pop16_even even, State.stackTop, reg_setReg_self]
  rfl

theorem exec_unlk_effect (he : odd (s.reg .r6) = false) :
    ∃ t, exec .unlk s = .next t ∧ Effect s t s.unlinkedRegs s.flags [] := by
  refine ⟨_, exec_unlk_even he, fun r => ?regs, flagsBecome_same rfl, rfl, fun _ _ => rfl,
    (sameControl_setReg s _ _).trans (sameControl_setReg _ _ _)⟩
  case regs =>
    rw [reg_setReg, reg_setReg, State.unlinkedRegs]
    split_ifs with h6 h7 h7
    · rw [h6] at h7
      cases h7
    · rfl
    · rfl
    · rfl

/-! ### UNLK after LINK -/

/-- UNLK finds in R6 the slot that LINK pushed to, whatever the immediate moved R7 by. -/
theorem Linked.unlinkedRegs {d : Word} (h : Linked s t d) (r : Reg) : t.unlinkedRegs r = s.reg r := by
  have fp : t.reg .r6 = s.reg .r7 - 2 := h.effect.regs .r6
  have slot : t.phys t.tp (s.reg .r7 - 2) = s.pushSlot 1 := by
    rw [State.pushSlot, State.phys, State.phys, h.effect.control.mode, h.effect.control.tp]
    rfl
  rw [State.unlinkedRegs, fp, slot, h.saved]
  split_ifs with h7 h6
  · rw [h7, BitVec.sub_add_cancel]
  · rw [h6]
  · rw [h.effect.regs, State.linkedRegs, if_neg h7, if_neg h6]

theorem Linked.unlk {d : Word} (h : Linked s t d) (he : odd (s.reg .r7) = false) :
    ∃ u, exec .unlk t = .next u ∧ ∀ r, u.reg r = s.reg r := by
  have even : odd (t.reg .r6) = false := by
    have fp : t.reg .r6 = s.reg .r7 - 2 := h.effect.regs .r6
    rw [fp]
    exact even_sub_two he
  obtain ⟨u, hu, unlinked⟩ := exec_unlk_effect even
  exact ⟨u, hu, fun r => (unlinked.regs r).trans (h.unlinkedRegs r)⟩

/-- Settles O51: both forms of LINK are `linked_link` with their own immediate, and `Linked.unlk` undoes either. -/
theorem linkAndUnlink : Obligations.LinkAndUnlink := by
  refine fun s => ⟨fun hw he => ?link, exec_unlk_effect⟩
  case link =>
    have linked := linked_link hw he
    have undone (d : Word) : ∃ u, exec .unlk (s.link d) = .next u ∧ ∀ r, u.reg r = s.reg r := (linked d).unlk he
    exact ⟨fun d => ⟨_, rfl, (linked _).effect, (linked _).saved⟩,
      fun d => ⟨_, rfl, (linked d).effect, (linked d).saved⟩,
      fun d => ⟨_, (undone (signExtend8 d)).imp fun _ hu => ⟨rfl, hu⟩⟩,
      fun d => ⟨_, (undone d).imp fun _ hu => ⟨rfl, hu⟩⟩⟩

end Sys2Proof.Machine
end

section
/-! SUPPORT. Which CPU operating state a step goes to, by the pins (spec/60_exceptions.md R400 to R407), and the way out of
the reset state (spec/70_reset_and_hazards.md R420 to R422). -/

namespace Sys2Proof.Machine

variable {s t : State}

/-! ### The pins -/

theorem underPins_resLow (o : Outcome) (hr : s.resLow = true) : s.underPins o = .next { s with cpuState := .reset } :=
  if_pos hr

theorem underPins_stbyLow (o : Outcome) (hr : s.resLow = false) (hs : s.stbyLow = true) :
    s.underPins o = .next { s with cpuState := .hardwareStandby } :=
  (if_neg (ne_true_of_eq_false hr)).trans (if_pos hs)

theorem underPins_high (o : Outcome) (hr : s.resLow = false) (hs : s.stbyLow = false) : s.underPins o = o :=
  (if_neg (ne_true_of_eq_false hr)).trans (if_neg (ne_true_of_eq_false hs))

/-- In every CPU operating state but hardware standby the pins come first (60_exceptions.md R407). -/
theorem step_eq_underPins (h : s.cpuState ≠ .hardwareStandby) : ∃ o, step s = s.underPins o := by
  unfold step State.cycle
  cases hc : s.cpuState with
  | hardwareStandby => exact absurd hc h
  | executing | reset | exceptionHandling | busReleased | sleep | softwareStandby => exact ⟨_, rfl⟩

theorem hasBreq_eq_false_iff {c : Chip} : hasBreq c = false ↔ c = .h8520 := by
  cases c <;> decide

/-! ### One step in each state -/

theorem step_hardwareStandby (hc : s.cpuState = .hardwareStandby) :
    step s = if !s.stbyLow && s.resLow then .next { s with cpuState := .reset } else .next s := by
  rw [step, State.cycle, hc]
  rfl

section
variable (hr : s.resLow = false) (hs : s.stbyLow = false)
include hr hs

theorem step_executing (hc : s.cpuState = .executing) :
    step s = if s.breqLow && hasBreq s.chip then .next { s with cpuState := .busReleased } else s.executeStep := by
  rw [step, State.cycle, hc]
  exact underPins_high _ hr hs

theorem step_reset (hc : s.cpuState = .reset) : step s = .next s.resetExit := by
  rw [step, State.cycle, hc]
  exact underPins_high _ hr hs

theorem step_busReleased (hc : s.cpuState = .busReleased) :
    step s = .next (if s.breqLow then s else { s with cpuState := .executing }) := by
  rw [step, State.cycle, hc]
  exact underPins_high _ hr hs

theorem step_sleep (hc : s.cpuState = .sleep) :
    step s = if s.wakes then andThen { s with cpuState := .executing }.interruptCheck fun t => .next t.settle
      else .next s := by
  rw [step, State.cycle, hc]
  exact underPins_high _ hr hs

theorem step_softwareStandby (hc : s.cpuState = .softwareStandby) :
    step s = if s.nmiRequest && nmiWakes s.chip then
      andThen ({ s with cpuState := .executing, nmiRequest := false }.takeException .nmi s.pc) fun t =>
        andThen t.interruptCheck fun u => .next u.settle
    else .next s := by
  rw [step, State.cycle, hc]
  exact underPins_high _ hr hs

end

/-- Settles O11: the pins by `step_eq_underPins`, BREQ by the step of the two states that look at it. -/
theorem pins : Obligations.Pins := by
  refine fun s => ⟨fun hc => ⟨fun hr => ?res, fun hr hs => ?stby⟩, fun hc => ⟨fun ⟨hs, hr⟩ => ?left, fun h => ?kept⟩,
    fun hr hs => ⟨fun hc hb hchip => ?released, fun hc hchip => ?noPin, fun hc hb => ?away, fun hc hb => ?back⟩⟩
  case res =>
    obtain ⟨o, ho⟩ := step_eq_underPins hc
    exact ho.trans (underPins_resLow o hr)
  case stby =>
    obtain ⟨o, ho⟩ := step_eq_underPins hc
    exact ho.trans (underPins_stbyLow o hr hs)
  case left => rw [step_hardwareStandby hc, hs, hr, Bool.not_false, Bool.true_and, if_pos rfl]
  case kept =>
    rw [step_hardwareStandby hc, if_neg]
    simpa using h
  case released =>
    have pin : hasBreq s.chip = true := by
      rwa [← Bool.not_eq_false, hasBreq_eq_false_iff]
    rw [step_executing hr hs hc, hb, pin, Bool.and_self, if_pos rfl]
  case noPin => rw [step_executing hr hs hc, hasBreq_eq_false_iff.mpr hchip, Bool.and_false, if_neg Bool.false_ne_true]
  case away => rw [step_busReleased hr hs hc, hb, if_pos rfl]
  case back => rw [step_busReleased hr hs hc, hb, if_neg Bool.false_ne_true]

/-! ### Leaving the reset state -/

theorem loadVector_minimum (k : Nat) (hm : s.mode = .minimum) :
    s.loadVector k = { s with pc := s.wordAt (BitVec.ofNat 24 (2 * k)) } := by
  rw [State.loadVector, State.vectorAddress, hm]

theorem loadVector_maximum (k : Nat) (hm : s.mode = .maximum) :
    s.loadVector k =
      { s with
        cp := loByte (s.wordAt (BitVec.ofNat 24 (4 * k))), pc := s.wordAt (BitVec.ofNat 24 (4 * k) + 2) } := by
  rw [State.loadVector, State.vectorAddress, hm]

/-- The registers are initialised first; after that only PC and, in maximum mode, CP are loaded. -/
theorem resetExit_eq (s : State) :
    ∃ (c : Byte) (v : Word), s.resetExit = { s.clearForReset with cp := c, pc := v } ∧
      (s.modePins = .minimum → v = s.wordAt 0) ∧ (s.modePins = .maximum → c = loByte (s.wordAt 0) ∧ v = s.wordAt 2) := by
  obtain hm | hm := minimum_or_maximum s.modePins
  · have other : s.modePins ≠ .maximum := by rw [hm]; decide
    exact ⟨_, _, loadVector_minimum 0 hm, fun _ => rfl, fun h => absurd h other⟩
  · have other : s.modePins ≠ .minimum := by rw [hm]; decide
    exact ⟨_, _, loadVector_maximum 0 hm, fun h => absurd h other, fun _ => ⟨rfl, rfl⟩⟩

/-- Settles O10: all but PC and CP is what `State.clearForReset` writes. -/
theorem resetExit : Obligations.ResetExit := by
  intro s hc hr hs
  obtain ⟨c, v, loaded, minimum, maximum⟩ := resetExit_eq s
  have trace : (0x0700 : Word).getLsbD 15 = false := by decide
  have reserved : (0x0700 : Word) &&& ~~~srMask = 0 := by decide
  have mask : (0x0700 : Word).extractLsb' 8 3 = 7 := by decide
  rw [step_reset hr hs hc, loaded]
  exact ⟨_, rfl, rfl, rfl, trace, mask, reserved, rfl, rfl, rfl, rfl, minimum, maximum⟩

/-- Settles O13: the fault is `takeException_odd`, and reset leaves memory. -/
theorem oddStackInSequence : Obligations.OddStackInSequence := by
  refine ⟨fun s e p ho => takeException_odd e p ho, fun s hc hr hs => ?reset⟩
  case reset =>
    obtain ⟨t, ht, _, _, _, _, _, _, _, _, mem, _⟩ := resetExit s hc hr hs
    exact ⟨t, ht, fun a _ => by rw [State.readByte, mem, State.readByte]⟩

end Sys2Proof.Machine
end

section
/-! SUPPORT. Taking an exception, the invalid codes, and RTE after an exception (spec/60_exceptions.md R380 to R385, R391,
spec/44_system_control.md R333). -/

namespace Sys2Proof.Machine

variable {s t : State} {e : Exception} {p : Word}

/-- Settles O12: the sequence is `entered_takeException`; vectors and masks are read off Table 3-2, where an interrupt has
one of 48 vectors from 32 on. -/
theorem takeException : Obligations.TakeException := by
  refine ⟨fun s e p hw he => entered_takeException e p hw he, rfl, rfl, rfl, rfl, rfl, rfl, fun v => ⟨rfl, rfl⟩,
    fun q => ?interrupt, rfl, ?others⟩
  case interrupt => exact ⟨Nat.le_add_right 32 _, Nat.add_le_add_left (Nat.le_of_lt_succ q.vec.isLt) 32, rfl⟩
  case others => decide

/-! ### Invalid codes -/

theorem inMaximum_minimum {d : Word} {o : Outcome} (hm : s.mode = .minimum) : inMaximum d s o = s.takeInvalid d := by
  rw [inMaximum, hm]

/-- Settles O48: every such code is `State.takeInvalid`, at the PC or at the byte that showed it. -/
theorem invalidCodes : Obligations.InvalidCodes := by
  intro s hw he taken
  have invalid {i : Instr} {d : Word} (h : exec i s = s.takeInvalid d) : taken i d := by
    obtain ⟨t, ht, entered⟩ := entered_takeException .invalidInstruction (s.invalidPc d) hw he
    exact ⟨t, h.trans ht, entered⟩
  refine ⟨fun _ _ _ => ⟨invalid rfl, invalid rfl, invalid rfl, invalid rfl⟩, fun _ _ _ _ => invalid rfl,
    fun _ _ _ _ => invalid rfl, fun _ _ _ => invalid rfl, fun _ _ _ => invalid rfl, fun _ _ => invalid rfl,
    fun _ _ => invalid rfl, invalid rfl, invalid rfl, invalid rfl, fun _ _ => invalid rfl, fun hm => ?pages⟩
  case pages =>
    exact ⟨fun _ _ => ⟨invalid (inMaximum_minimum hm), invalid (inMaximum_minimum hm)⟩,
      fun _ => ⟨invalid (inMaximum_minimum hm), invalid (inMaximum_minimum hm)⟩, invalid (inMaximum_minimum hm),
      fun _ => invalid (inMaximum_minimum hm), fun _ => invalid (inMaximum_minimum hm)⟩

/-! ### RTE after an exception -/

/-- R7 stays even through the sequence of an exception. -/
theorem Entered.even (h : Entered s t e p) (he : odd (s.reg .r7) = false) : odd (t.reg .r7) = false := by
  rw [h.regs, State.withSp, if_pos rfl]
  rw [even_iff] at he ⊢
  rw [BitVec.toNat_sub, BitVec.toNat_ofNat]
  omega

/-- After the sequence of an exception, word k of the stack is the one pushed j-th, k words having been pushed after it. -/
theorem Entered.stackWord {j k : Nat} (h : Entered s t e p) (hjk : j + k = frameWords s.mode) :
    t.stackWord k = t.wordAt (s.pushSlot j) := by
  have slot : t.reg .r7 + BitVec.ofNat 16 (2 * k) = s.reg .r7 - BitVec.ofNat 16 (2 * j) := by
    rw [h.regs, State.withSp, if_pos rfl, ← hjk, Nat.mul_add, BitVec.ofNat_add, ← word_sub_sub, BitVec.sub_add_cancel]
  rw [State.stackWord, slot, State.pushSlot, State.phys, State.phys, h.control.mode, h.control.tp]

/-- Settles O50: RTE finds on the stack what the sequence pushed there, and moves R7 back up by as many words. -/
theorem rteUndoesException : Obligations.RteUndoesException := by
  intro s e p hw he reserved
  obtain ⟨t, ht, entered⟩ := entered_takeException e p hw he
  obtain ⟨u, hu, sr, _, regs, minimum, maximum⟩ := returnFromException t (entered.even he)
  have mode : t.mode = s.mode := entered.control.mode
  have srBack : u.sr = s.sr := by
    rw [sr, entered.stackWord (Nat.add_zero _), entered.srSaved]
    exact and_srMask_of_reserved reserved
  have regsBack (r : Reg) : u.reg r = s.reg r := by
    rw [regs, mode, State.withSp]
    split_ifs with h7
    · rw [entered.regs, State.withSp, if_pos rfl, BitVec.sub_add_cancel, h7]
    · rw [entered.regs, State.withSp, if_neg h7]
  obtain hm | hm := minimum_or_maximum s.mode
  · obtain ⟨pc, control⟩ := minimum (mode.trans hm)
    obtain ⟨_, cp⟩ := entered.vectorMinimum hm
    have pcBack : t.stackWord 1 = p := (entered.stackWord (j := 1) (by rw [hm]; rfl)).trans entered.pcSaved
    exact ⟨t, u, ht, hu, pc.trans pcBack, control.cp.trans cp, srBack, control.mode.trans mode, regsBack⟩
  · obtain ⟨pc, control⟩ := maximum (mode.trans hm)
    have pcBack : t.stackWord 2 = p := (entered.stackWord (j := 1) (by rw [hm]; rfl)).trans entered.pcSaved
    have cpBack : loByte (t.stackWord 1) = s.cp := by
      rw [entered.stackWord (j := 2) (by rw [hm]; rfl), entered.cpSaved hm]
    exact ⟨t, u, ht, hu, pc.trans pcBack, control.cp.trans cpBack, srBack, control.mode.trans mode, regsBack⟩

end Sys2Proof.Machine
end

section
/-! SUPPORT. Fetching, and the bytes of the next sequential instruction (spec/60_exceptions.md R375, spec/20_memory.md R104). -/

namespace Sys2Proof.Machine

variable {s t : State} {i : Instr} {n : Nat}

theorem mem_codeAddresses (a : Addr) (off : Word) (m : Nat) :
    a ∈ s.codeAddresses off m ↔ ∃ k, k < m ∧ s.codeAddress (off + BitVec.ofNat 16 k) = a := by
  induction m generalizing off with
  | zero => simp [State.codeAddresses]
  | succ m ih =>
    have shift (k : Nat) : off + 1 + BitVec.ofNat 16 k = off + BitVec.ofNat 16 (k + 1) := by
      rw [Nat.add_comm k, BitVec.ofNat_add, BitVec.add_assoc]
      rfl
    rw [State.codeAddresses, List.mem_cons, ih, Nat.exists_lt_succ_left]
    simp only [shift, BitVec.add_zero, eq_comm (a := a)]

/-- A store counts as one into the next instruction where the decoder's length of it reaches. -/
theorem storedIntoNext_iff {m : Nat} (hm : (s.decodeAt (s.pc + BitVec.ofNat 16 n)).len = m) :
    s.storedIntoNext n t = true ↔
      ∃ k, k < m ∧ s.codeAddress (s.pc + BitVec.ofNat 16 n + BitVec.ofNat 16 k) ∈ t.stores := by
  simp only [State.storedIntoNext, State.nextInstruction, hm, List.any_eq_true, List.contains_iff_mem, mem_codeAddresses]
  constructor
  · rintro ⟨_, ⟨k, hk, rfl⟩, stored⟩
    exact ⟨k, hk, stored⟩
  · rintro ⟨k, hk, stored⟩
    exact ⟨_, ⟨k, hk, rfl⟩, stored⟩

theorem step_quiet (hq : Quiet s) : step s = s.executeStep := by
  have kept : (s.breqLow && hasBreq s.chip) = false := by
    rw [Bool.and_eq_false_iff, hasBreq_eq_false_iff]
    exact hq.busKept
  rw [step_executing hq.resHigh hq.stbyHigh hq.executing, kept, if_neg Bool.false_ne_true]

theorem step_instr (hq : Quiet s) (hi : s.decodeAt s.pc = .instr i n) : step s = s.runInstruction i n := by
  rw [step_quiet hq, State.executeStep, hi]

/-- Settles O6: `step_instr`, and the length of the next instruction, decoded or not. -/
theorem stepRunsDecoded : Obligations.StepRunsDecoded := by
  refine fun s hq => ⟨fun i n hi => ⟨rfl, step_instr hq hi, fun m hm t => ?next⟩, fun e n he => ?undefined⟩
  case next =>
    have len : (s.decodeAt (s.pc + BitVec.ofNat 16 n)).len = m := by
      obtain ⟨j, hj⟩ | ⟨e, he⟩ := hm
      · rw [hj, Decoded.len]
      · rw [he, Decoded.len]
    exact storedIntoNext_iff len
  case undefined => rw [step_quiet hq, State.executeStep, he]

end Sys2Proof.Machine
end

section
/-! SUPPORT. The interrupt check: which request it presents, and that it accepts one (spec/60_exceptions.md R371, R392). -/

namespace Sys2Proof.Machine

variable {s t v : State} {e : Exception} {p : Word} {q : Request}

/-! ### The request presented -/

/-- The presented request is an acceptable one of maximal level. -/
theorem presented_eq_argmax (s : State) :
    s.presented = (s.pending.filter s.acceptable).argmax fun q => q.level.toNat := by
  have higher_eq : higher = List.argAux fun b c : Request => c.level.toNat < b.level.toNat := by
    funext best q
    cases best <;> rfl
  rw [State.presented, higher_eq, List.argmax]

theorem mem_acceptable : q ∈ s.pending.filter s.acceptable ↔ q ∈ s.pending ∧ s.intMask.toNat < q.level.toNat := by
  rw [List.mem_filter, State.acceptable, decide_eq_true_iff]

theorem presented_eq_none (h : ∀ q ∈ s.pending, q.level.toNat ≤ s.intMask.toNat) : s.presented = none := by
  rw [presented_eq_argmax, List.argmax_eq_none, List.eq_nil_iff_forall_not_mem]
  intro q hq
  obtain ⟨mem, above⟩ := mem_acceptable.mp hq
  exact Nat.not_lt_of_le (h q mem) above

/-- The presented request is pending and above the mask, and no acceptable one is higher. -/
theorem presented_eq_some (h : s.presented = some q) :
    q ∈ s.pending ∧ s.intMask.toNat < q.level.toNat ∧
      ∀ p ∈ s.pending, s.intMask.toNat < p.level.toNat → p.level.toNat ≤ q.level.toNat := by
  rw [presented_eq_argmax] at h
  obtain ⟨mem, above⟩ := mem_acceptable.mp (List.argmax_mem h)
  exact ⟨mem, above, fun p hp ha => List.le_of_mem_argmax (f := fun q => q.level.toNat) (mem_acceptable.mpr ⟨hp, ha⟩) h⟩

/-! ### Sequences one after the other -/

/-- A sequence can be taken: its pushes find memory in canonical form and an even R7. -/
structure Ready (s : State) : Prop where
  memory : s.mem.wf = true
  even : odd (s.reg .r7) = false

/-- The sequence of an exception can be followed by another. -/
theorem Ready.takeException (h : Ready s) (e : Exception) (p : Word) :
    ∃ t, s.takeException e p = .next t ∧ Entered s t e p ∧ Ready t := by
  obtain ⟨t, ht, entered⟩ := entered_takeException e p h.memory h.even
  exact ⟨t, ht, entered, (tracksStores_takeException ht).wf h.memory, entered.even h.even⟩

theorem Entered.settle (h : Entered s t e p) : Entered s t.settle e p :=
  { h with control := { h.control with } }

/-- The sequence ends in the program execution state, whatever state it began in. -/
theorem Entered.of_cpuState {x : CpuState} (h : Entered { s with cpuState := x } t e p) : Entered s t e p :=
  { h with }

/-! ### The check -/

theorem serveInterrupts_idle (hn : s.nmiRequest = false) (hp : s.presented = none) (n : Nat) :
    serveInterrupts n s = .next s := by
  cases n with
  | zero => rfl
  | succ n => rw [serveInterrupts, hn, if_neg Bool.false_ne_true, hp]

theorem interruptCheck_idle (hn : s.nmiRequest = false) (hp : s.presented = none) : s.interruptCheck = .next s :=
  serveInterrupts_idle hn hp _

/-- After an exception that raises the mask as high as every request left, the check ends. -/
theorem serveInterrupts_after {l : BitVec 3} (n : Nat) (ready : Ready v) (he : e.newMask = some l)
    (hn : v.nmiRequest = false) (hl : ∀ q ∈ v.pending, q.level.toNat ≤ l.toNat) :
    ∃ t, andThen (v.takeException e p) (serveInterrupts n) = .next t ∧ Entered v t e p ∧ t.intMask = l := by
  obtain ⟨t, ht, entered, _⟩ := ready.takeException e p
  have mask : t.intMask = l := by rw [entered.mask, he, Option.getD_some]
  have none_left : t.presented = none := presented_eq_none (by rwa [mask, entered.control.pending])
  exact ⟨t, by rw [ht, andThen, serveInterrupts_idle (entered.control.nmiRequest.trans hn) none_left], entered, mask⟩

theorem interruptCheck_nmi (ready : Ready s) (hn : s.nmiRequest = true) :
    ∃ t, s.interruptCheck = .next t ∧ Entered { s with nmiRequest := false } t .nmi s.pc ∧ t.intMask = 7 := by
  rw [State.interruptCheck, serveInterrupts, hn, if_pos rfl]
  exact serveInterrupts_after _ { ready with } rfl rfl fun q _ => Nat.le_of_lt_succ q.level.isLt

theorem interruptCheck_presented (ready : Ready s) (hn : s.nmiRequest = false) (hp : s.presented = some q) :
    ∃ t, s.interruptCheck = .next t ∧ Entered { s with pending := s.pending.erase q } t (.interrupt q) s.pc ∧
      t.intMask = q.level := by
  obtain ⟨_, above, top⟩ := presented_eq_some hp
  have rest (p) (hm : p ∈ s.pending.erase q) : p.level.toNat ≤ q.level.toNat := by
    by_cases ha : s.intMask.toNat < p.level.toNat
    · exact top p (List.mem_of_mem_erase hm) ha
    · exact (Nat.le_of_not_lt ha).trans above.le
  rw [State.interruptCheck, serveInterrupts, hn, if_neg Bool.false_ne_true, hp]
  exact serveInterrupts_after _ { ready with } rfl rfl rest

end Sys2Proof.Machine
end

section
/-! SUPPORT. The end of an instruction: address error, trace and interrupts in their order (spec/60_exceptions.md R376). -/

namespace Sys2Proof.Machine

variable {s t u v : State} {e : Exception} {p : Word}

/-! ### The three checks -/

theorem checkAddressError_clear (h : s.aerr = false) : s.checkAddressError = .next s := if_neg (ne_true_of_eq_false h)

theorem checkAddressError_noted (h : s.aerr = true) :
    s.checkAddressError =
      { s with aerr := false }.takeException .addressError (Config.addressErrorStackedPc s.insAddr s.pc) :=
  if_pos h

theorem checkInterrupts_idle (hn : s.nmiRequest = false) (hp : s.presented = none) (sampled : Bool) :
    s.checkInterrupts sampled = .next s := by
  cases sampled with
  | false => rfl
  | true => exact interruptCheck_idle hn hp

theorem endOfInstruction_idle (ha : s.aerr = false) (ht : s.flagT = false ∨ s.defer = true) (hn : s.nmiRequest = false)
    (hp : s.presented = none) : s.endOfInstruction = .next s.settle := by
  have untraced : (s.flagT && !s.defer) = false := by
    rwa [Bool.and_eq_false_iff, Bool.not_eq_false']
  rw [State.endOfInstruction, untraced, checkAddressError_clear ha]
  simp only [andThen, State.checkTrace, checkInterrupts_idle hn hp, Bool.false_eq_true, if_false]

/-- Settles O7: the instruction runs, and its end finds nothing. -/
theorem stepAnswersTheInstruction : Obligations.StepAnswersTheInstruction := by
  intro s t i n hq hi ht stored ha trace hn hp
  rw [step_instr hq hi, State.runInstruction, ht, andThen, stored, if_neg Bool.false_ne_true]
  exact endOfInstruction_idle ha trace hn hp

/-! ### Where the interrupts are looked at -/

/-- The same requests are acceptable. -/
structure SameRequests (s t : State) : Prop where
  nmiRequest : t.nmiRequest = s.nmiRequest
  pending : t.pending = s.pending
  intMask : t.intMask = s.intMask

theorem SameRequests.refl (s : State) : SameRequests s s := ⟨rfl, rfl, rfl⟩

theorem SameRequests.trans (h : SameRequests s t) (k : SameRequests t u) : SameRequests s u :=
  ⟨k.nmiRequest.trans h.nmiRequest, k.pending.trans h.pending, k.intMask.trans h.intMask⟩

theorem SameRequests.presented (h : SameRequests s t) : t.presented = s.presented := by
  have acceptable : t.acceptable = s.acceptable := by
    funext q
    rw [State.acceptable, h.intMask, State.acceptable]
  rw [State.presented, h.pending, acceptable, State.presented]

/-- An exception that leaves the mask leaves the acceptable requests. -/
theorem Entered.sameRequests (h : Entered s t e p) (he : e.newMask = none) : SameRequests s t :=
  ⟨h.control.nmiRequest, h.control.pending, by rw [h.mask, he, Option.getD_none]⟩

/-- Once address error and trace are done with, what is left of the check is that of the interrupts. -/
theorem endOfInstruction_of_checks (ha : s.checkAddressError = .next v)
    (ht : v.checkTrace (s.flagT && !s.defer) = .next u) (h : s.aerr = true ∨ s.defer = false) :
    s.endOfInstruction = andThen u.interruptCheck fun t => .next t.settle := by
  have sampled : (s.aerr || (s.flagT && !s.defer) || !s.defer) = true := by
    obtain h | h := h <;> simp [h]
  rw [State.endOfInstruction, sampled, ha, andThen, ht, andThen, State.checkInterrupts, if_pos rfl]

/-- A state in which the end of an instruction that ends in `s` looks for interrupts. -/
structure LooksIn (s u : State) : Prop where
  sampled : Sampled s u
  requests : SameRequests s u
  ready : Ready u
  rest : s.endOfInstruction = andThen u.interruptCheck fun t => .next t.settle

/-- With no address error: the state itself, or what the trace exception leaves. -/
theorem exists_looksIn_of_clear (ready : Ready s) (ha : s.aerr = false) (looked : s.defer = false) :
    ∃ u, LooksIn s u := by
  have clear := checkAddressError_clear ha
  cases ht : s.flagT with
  | false =>
    exact ⟨s, .plain ⟨ha, ht, looked⟩, .refl s, ready, endOfInstruction_of_checks clear (by rw [ht]; rfl) (.inr looked)⟩
  | true =>
    obtain ⟨u, hu, entered, ready'⟩ := ready.takeException .trace s.pc
    exact ⟨u, .trace ⟨ha, ht, looked⟩ u entered, entered.sameRequests rfl, ready',
      endOfInstruction_of_checks clear (by rw [ht, looked]; exact hu) (.inr looked)⟩

/-- With an address error: what its sequence leaves, or what the trace exception after it leaves. -/
theorem exists_looksIn_of_noted (ready : Ready s) (ha : s.aerr = true) : ∃ u, LooksIn s u := by
  obtain ⟨v, hv, entered, ready'⟩ :=
    Ready.takeException (s := { s with aerr := false }) { ready with } .addressError
      (Config.addressErrorStackedPc s.insAddr s.pc)
  have noted := (checkAddressError_noted ha).trans hv
  have requests : SameRequests s v := { entered.sameRequests rfl with }
  cases ht : s.flagT && !s.defer with
  | false =>
    have untraced : s.flagT = false ∨ s.defer = true := by
      rwa [Bool.and_eq_false_iff, Bool.not_eq_false'] at ht
    exact ⟨v, .addressError ⟨ha, untraced⟩ v entered, requests, ready',
      endOfInstruction_of_checks noted (by rw [ht]; rfl) (.inl ha)⟩
  | true =>
    obtain ⟨trace, looked⟩ : s.flagT = true ∧ s.defer = false := by
      rwa [Bool.and_eq_true_iff, Bool.not_eq_true'] at ht
    obtain ⟨u, hu, entered', ready''⟩ := ready'.takeException .trace v.pc
    exact ⟨u, .both ⟨ha, trace, looked⟩ v u entered entered', requests.trans (entered'.sameRequests rfl), ready'',
      endOfInstruction_of_checks noted (by rw [ht]; exact hu) (.inl ha)⟩

theorem exists_looksIn (ready : Ready s) (h : s.aerr = true ∨ s.defer = false) : ∃ u, LooksIn s u := by
  cases ha : s.aerr with
  | false => exact exists_looksIn_of_clear ready ha (by simpa [ha] using h)
  | true => exact exists_looksIn_of_noted ready ha

/-! ### What the end of an instruction takes -/

theorem LooksIn.endOfInstruction (h : LooksIn s u) (ht : u.interruptCheck = .next t) :
    s.endOfInstruction = .next t.settle := by
  rw [h.rest, ht, andThen]

/-- Without an acceptable request the check ends where it looks for one. -/
theorem exists_sampled_idle (ready : Ready s) (h : s.aerr = true ∨ s.defer = false) (hn : s.nmiRequest = false)
    (hp : s.presented = none) : ∃ u, Sampled s u ∧ s.endOfInstruction = .next u.settle := by
  obtain ⟨u, looks⟩ := exists_looksIn ready h
  exact ⟨u, looks.sampled, looks.endOfInstruction
    (interruptCheck_idle (looks.requests.nmiRequest.trans hn) (looks.requests.presented.trans hp))⟩

/-- Settles O14: which sequences have been taken is what `Sampled` says of the state at the end. -/
theorem addressErrorAndTraceTaken : Obligations.AddressErrorAndTraceTaken := by
  intro s hw he hn hp
  have ready : Ready s := ⟨hw, he⟩
  refine ⟨fun ha untraced => ?addressError, fun ha trace looked => ?trace, fun ha trace looked => ?both⟩
  case addressError =>
    obtain ⟨u, sampled, hu⟩ := exists_sampled_idle ready (.inl ha) hn hp
    cases sampled with
    | addressError h u entered => exact ⟨_, hu, entered.settle⟩
    | plain h | trace h | both h => simp_all
  case trace =>
    obtain ⟨u, sampled, hu⟩ := exists_sampled_idle ready (.inr looked) hn hp
    cases sampled with
    | trace h u entered => exact ⟨_, hu, entered.settle⟩
    | plain h | addressError h | both h => simp_all
  case both =>
    obtain ⟨u, sampled, hu⟩ := exists_sampled_idle ready (.inr looked) hn hp
    cases sampled with
    | both h v u entered entered' => exact ⟨v, _, entered, hu, entered'.settle⟩
    | plain h | addressError h | trace h => simp_all

/-- Settles O16: `interruptCheck_nmi`, in the state itself and where the end of an instruction looks. -/
theorem nmiAcceptedMaskedRequestsWait : Obligations.NmiAcceptedMaskedRequestsWait := by
  refine fun s => ⟨fun hw he hn => ⟨interruptCheck_nmi ⟨hw, he⟩ hn, fun h => ?accepted⟩, fun hn masked => ?wait⟩
  case accepted =>
    obtain ⟨u, looks⟩ := exists_looksIn ⟨hw, he⟩ h
    obtain ⟨t, ht, entered, mask⟩ := interruptCheck_nmi looks.ready (looks.requests.nmiRequest.trans hn)
    exact ⟨u, _, looks.sampled, looks.endOfInstruction ht, entered.settle, mask⟩
  case wait =>
    have hp := presented_eq_none masked
    exact ⟨interruptCheck_idle hn hp, fun ha ht => endOfInstruction_idle ha (.inl ht) hn hp⟩

/-- Settles O17: `interruptCheck_presented`, in the state itself and where the end of an instruction looks. -/
theorem interruptAccepted : Obligations.InterruptAccepted := by
  intro s q hw he hn hp
  obtain ⟨mem, above, top⟩ := presented_eq_some hp
  refine ⟨mem, above, top, interruptCheck_presented ⟨hw, he⟩ hn hp, fun h => ?accepted⟩
  case accepted =>
    obtain ⟨u, looks⟩ := exists_looksIn ⟨hw, he⟩ h
    obtain ⟨t, ht, entered, mask⟩ := interruptCheck_presented looks.ready (looks.requests.nmiRequest.trans hn)
      (looks.requests.presented.trans hp)
    exact ⟨u, _, looks.sampled, looks.endOfInstruction ht, entered.settle, mask⟩

end Sys2Proof.Machine
end

section
/-! SUPPORT. Waking from sleep and from software standby (spec/60_exceptions.md R403, R404). -/

namespace Sys2Proof.Machine

variable {s t : State} {e : Exception} {p : Word}

theorem nmiWakes_eq_false_iff {c : Chip} : nmiWakes c = false ↔ c = .h8570 := by
  cases c <;> decide

section
variable (hr : s.resLow = false) (hs : s.stbyLow = false)
include hr hs

theorem step_sleep_idle (hc : s.cpuState = .sleep) (hn : s.nmiRequest = false) (hp : s.presented = none) :
    step s = .next s := by
  have asleep : s.wakes = false := by rw [State.wakes, hn, hp]; rfl
  rw [step_sleep hr hs hc, asleep, if_neg Bool.false_ne_true]

theorem step_sleep_wakes (hc : s.cpuState = .sleep) (hw : s.wakes = true)
    (ht : { s with cpuState := .executing }.interruptCheck = .next t) : step s = .next t.settle := by
  rw [step_sleep hr hs hc, hw, if_pos rfl, ht, andThen]

/-- NMI from software standby: its own sequence first, then a check that finds nothing above the mask of 7. -/
theorem step_softwareStandby_wakes (hc : s.cpuState = .softwareStandby) (hn : s.nmiRequest = true)
    (hchip : s.chip ≠ .h8570) (ready : Ready s) :
    ∃ t, step s = .next t ∧ Entered { s with nmiRequest := false } t .nmi s.pc := by
  have wakes : nmiWakes s.chip = true := by rwa [← Bool.not_eq_false, nmiWakes_eq_false_iff]
  obtain ⟨t, ht, entered, _⟩ :=
    Ready.takeException (s := { s with cpuState := .executing, nmiRequest := false }) { ready with } .nmi s.pc
  have mask : t.intMask = 7 := entered.mask
  have none_above : t.presented = none :=
    presented_eq_none fun q _ => mask ▸ Nat.le_of_lt_succ q.level.isLt
  have checked := interruptCheck_idle entered.control.nmiRequest none_above
  refine ⟨t.settle, ?_, (Entered.of_cpuState (s := { s with nmiRequest := false }) entered).settle⟩
  rw [step_softwareStandby hr hs hc, hn, wakes, Bool.and_self, if_pos rfl, ht, andThen, checked, andThen]

end

/-- Settles O18: sleep runs the ordinary interrupt check, software standby takes NMI alone. -/
theorem sleepAndSoftwareStandby : Obligations.SleepAndSoftwareStandby := by
  refine fun s hr hs => ⟨fun hc => ⟨fun hn masked => ?asleep, fun hn hw he => ?nmi, fun q hn hp hw he => ?request⟩,
    fun hc => ⟨fun h => ?standby, fun hn hchip hw he => step_softwareStandby_wakes hr hs hc hn hchip ⟨hw, he⟩⟩⟩
  case asleep => exact step_sleep_idle hr hs hc hn (presented_eq_none masked)
  case nmi =>
    obtain ⟨t, ht, entered, _⟩ := interruptCheck_nmi (s := { s with cpuState := .executing }) ⟨hw, he⟩ hn
    have wakes : s.wakes = true := by rw [State.wakes, hn, Bool.true_or]
    exact ⟨_, step_sleep_wakes hr hs hc wakes ht,
      (Entered.of_cpuState (s := { s with nmiRequest := false }) entered).settle⟩
  case request =>
    obtain ⟨t, ht, entered, _⟩ := interruptCheck_presented (s := { s with cpuState := .executing }) ⟨hw, he⟩ hn hp
    have wakes : s.wakes = true := by rw [State.wakes, hp, Option.isSome_some, Bool.or_true]
    exact ⟨_, step_sleep_wakes hr hs hc wakes ht,
      (Entered.of_cpuState (s := { s with pending := s.pending.erase q }) entered).settle⟩
  case standby =>
    have asleep : (s.nmiRequest && nmiWakes s.chip) = false := by rwa [Bool.and_eq_false_iff, nmiWakes_eq_false_iff]
    rw [step_softwareStandby hr hs hc, asleep, if_neg Bool.false_ne_true]

end Sys2Proof.Machine
end

section
/-! SUPPORT. The state at reset, and the hold on trace and interrupts (spec/70_reset_and_hazards.md R420, R431). -/

namespace Sys2Proof.Machine

/-- The invariant holds at reset: memory lists no byte, and SR is H'0700, whose bits all lie in the mask. -/
theorem inv_reset : Inv State.reset where
  memory := rfl
  reserved := by decide
  noError := rfl
  noStores := rfl
  settled := CpuState.noConfusion

/-- Settles O9: `inv_reset`, and T and the mask as they stand in H'0700. -/
theorem resetInv : Obligations.ResetInv := by
  have trace : State.reset.flagT = false := by decide
  have mask : State.reset.intMask = 7 := by decide
  exact ⟨inv_reset, trace, mask, rfl, rfl, rfl, rfl, rfl⟩

/-- Settles O15: the hold takes back a trace that T asks for, and with neither an address error nor a trace the requests
are not looked at. -/
theorem deferHoldsOff : Obligations.DeferHoldsOff := by
  intro s held clear
  have untraced : (s.flagT && !s.defer) = false := by rw [held, Bool.not_true, Bool.and_false]
  have unsampled : (s.aerr || (s.flagT && !s.defer) || !s.defer) = false := by rw [clear, untraced, held]; rfl
  rw [State.endOfInstruction, unsampled, untraced, checkAddressError_clear clear]
  rfl

end Sys2Proof.Machine
end
